-- ==== Sys2Proof/Word.lean ====
section
/-! DEFINITION. The word types of the block (spec/00_scope.md R8: bit 0 is the least significant bit). -/

namespace Sys2Proof

/-- A byte of system memory or of a staging buffer. -/
abbrev Byte := BitVec 8

/-- A 32-bit register value or system address (R8, R24). -/
abbrev Word := BitVec 32

/-- A transfer size, `SIZE_WIDTH` = 20 bits (R7, R27). -/
abbrev Size := BitVec 20

/-- The byte offset of a register access from `UART_BASE`, 7 bits (R23). -/
abbrev Offset := BitVec 7

/-- The 10-bit request key of rule R86. -/
abbrev Key := BitVec 10

end Sys2Proof
end

