-- ==== Sys2Proof/Syntax.lean ====
section
/-! DEFINITION. What is presented to the block: the register accesses (the block's "instructions", rule R98
says what has no encoding), the requests of the register bus, and the inputs of one step. -/

namespace Sys2Proof

/-- The two channels of the block (R1). -/
inductive ChannelId where
  | rx
  | tx
deriving DecidableEq, Repr, Inhabited

/-- The eight registers of the window (R37). -/
inductive Reg where
  | rxSaddr
  | rxSize
  | rxCfg
  | txSaddr
  | txSize
  | txCfg
  | status
  | setup
deriving DecidableEq, Repr, Inhabited

/-- The `W` flag of a register access with its data: `wdata` exists for writes only (R23). -/
inductive Direction where
  | read
  | write (wdata : Word)
deriving DecidableEq, Repr, Inhabited

/-- A request on the register bus (R23, R85): the byte offset from `UART_BASE`, the access width in bytes,
and the direction. -/
structure BusRequest where
  offset : Offset
  size : Nat
  dir : Direction
deriving DecidableEq, Repr, Inhabited

/-- The block's answer to a register access (R23): status `OK` with `rdata` for a read, status `OK` alone for a
write, or status `INVALID`. -/
inductive BusResponse where
  | okRead (rdata : Word)
  | okWrite
  | invalid
deriving DecidableEq, Repr, Inhabited

/-- What the memory port and the other agents of the SoC do in one step, in the order of the list
(R76 to R78, R81, R83; log entries 5, 6 and 7). -/
inductive MemEvent where
  /-- another agent stores a byte -/
  | store (addr : Word) (b : Byte)
  /-- the port performs the request of a channel (the instant `t` of R77 and R78) -/
  | perform (c : ChannelId)
  /-- the port answers the request of a channel, performing it now if it has not done so yet -/
  | answer (c : ChannelId)
  /-- the port answers with an error status, performing the request as with `answer`; a read answers the bytes
  `data` (any value, R83) -/
  | answerError (c : ChannelId) (data : List Byte)
deriving DecidableEq, Repr, Inhabited

/-- The inputs of one step (R21): the reset pulse, the clock-gate bit, the receive line, the register access
presented (at most one, R23), and the memory port's and the other agents' actions. -/
structure StepInput where
  rst : Bool
  cg : Bool
  rxIn : Bool
  req : Option BusRequest
  mem : List MemEvent
deriving DecidableEq, Repr, Inhabited

/-- The register accesses, one constructor per row of `opcode_table.json` (R90). `invalid` keeps the key that
was presented and its data, which is 0 for a read. -/
inductive Instr where
  | rdRxSaddr
  | wrRxSaddr (wdata : Word)
  | rdRxSize
  | wrRxSize (wdata : Word)
  | rdRxCfg
  | wrRxCfg (wdata : Word)
  | rdTxSaddr
  | wrTxSaddr (wdata : Word)
  | rdTxSize
  | wrTxSize (wdata : Word)
  | rdTxCfg
  | wrTxCfg (wdata : Word)
  | rdStatus
  | wrStatus (wdata : Word)
  | rdSetup
  | wrSetup (wdata : Word)
  | invalid (key : Key) (wdata : Word)
deriving DecidableEq, Repr, Inhabited

end Sys2Proof
end

