-- ==== Sys2Proof/Config.lean ====
section
/-! DEFINITION. The parameters of rule R7, and the environment's free choices. -/

namespace Sys2Proof

/-- `POOL_DEPTH`: transfer descriptors of a channel, counting the current one (R7; log entry 14, DESIGN CHOICE). -/
def Config.poolDepth : Nat := 4

/-- `STAGE_BYTES`: capacity of a staging buffer (R7, R29; log entry 14, DESIGN CHOICE). -/
def Config.stageBytes : Nat := 4

/-- `WINDOW_BYTES`: size of the register window (R7, R37). -/
def Config.windowBytes : Nat := 0x80

/-- `UART_BASE`, OPEN (R7): the system address of register offset 0. -/
opaque Config.uartBase : Word

/-- `UART_PERIPH_ID`, OPEN (R7): the UART's bit of the UDMA clock-gating bitmask. -/
opaque Config.uartPeriphId : Nat

/-- `EVT_RX_ID`, OPEN (R7): the identifier under which `evt_rx` reaches the SoC. -/
opaque Config.evtRxId : Nat

/-- `EVT_TX_ID`, OPEN (R7): the identifier under which `evt_tx` reaches the SoC. -/
opaque Config.evtTxId : Nat

/-- The inputs the environment chooses at the step numbered `n` when the state lists none: a free value, so
that a claim about such a step holds for every input (R25, R76; log entry 1). -/
opaque Config.envInput (n : Nat) : StepInput

/-- What a byte of system memory that nothing has written reads as (DESIGN CHOICE, unsafe: log entry 4). -/
def Config.unwrittenByte : Byte := 0#8

end Sys2Proof
end

