-- ==== Sys2Proof/Machine/State.lean ====
section
/-! DEFINITION. The state of the block and of its environment as plain data (spec/10_state.md). -/

namespace Sys2Proof.Machine

open Sys2Proof

/-- Why a step faults: never. No condition stops the block (R173), so this type has no constructor. -/
inductive Fault where
deriving DecidableEq, Repr

/-- Why a step is refused. -/
inductive Refusal where
  /-- raised by `exec` for a register access that has no meaning yet; safe. No arm raises it now. -/
  | notModelled (mnemonic : String)
deriving DecidableEq, Repr

/-- The unit size of a transfer, 1, 2 or 4 bytes (R30, R49; the reserved DATASIZE code 3 is no value of
this type, log entry 10). -/
inductive UnitSize where
  | one
  | two
  | four
deriving DecidableEq, Repr, Inhabited

/-- `parity_mode` (R34; the reserved PARITY code 3 is no value of this type, log entry 10). -/
inductive ParityMode where
  | noParity
  | even
  | odd
deriving DecidableEq, Repr, Inhabited

/-- A transfer descriptor (R30). -/
structure Descriptor where
  startAddress : Word
  totalSize : Size
  unitSize : UnitSize
  continuous : Bool
  currentAddress : Word
  remainingSize : Nat
  receivedSize : Nat
deriving DecidableEq, Repr, Inhabited

/-- The outstanding memory request of a channel, `c.out` (R32). -/
structure OutRequest where
  addr : Word
  n : Nat
  discard : Bool
deriving DecidableEq, Repr, Inhabited

/-- The state of one channel (R27 to R33). -/
structure Channel where
  saddr : Word
  size : Size
  cont : Bool
  ds : UnitSize
  en : Bool
  cur : Option Descriptor
  pend : List Descriptor
  stage : List Byte
  out : Option OutRequest
  ready : Option (List Byte)
  evt : Bool
deriving DecidableEq, Repr, Inhabited

/-- The UART configuration, the fields of SETUP (R34, R42). -/
structure Setup where
  parity : ParityMode
  stop2 : Bool
  clkdiv : BitVec 16
deriving DecidableEq, Repr, Inhabited

/-- `tx_state` (R35). -/
inductive TxState where
  | idle
  | start
  | data
  | parity
  | stop
deriving DecidableEq, Repr, Inhabited

/-- The transmitter's state (R35). -/
structure TxFsm where
  state : TxState
  shift : Byte
  bit : Fin 8
  stop : Fin 2
  cnt : BitVec 16
  line : Bool
deriving DecidableEq, Repr, Inhabited

/-- `rx_state` (R36). -/
inductive RxState where
  | waitStart
  | data
  | parity
  | waitStop
deriving DecidableEq, Repr, Inhabited

/-- The receiver's state (R36). -/
structure RxFsm where
  state : RxState
  shift : Byte
  bit : Fin 8
  cnt : BitVec 17
  prev : Bool
deriving DecidableEq, Repr, Inhabited

/-- What a memory request asks for (R24). -/
inductive MemOp where
  | read
  | write (bytes : List Byte)
deriving DecidableEq, Repr, Inhabited

/-- A request handed to the memory port (R24). -/
structure MemRequest where
  chan : ChannelId
  addr : Word
  n : Nat
  op : MemOp
deriving DecidableEq, Repr, Inhabited

/-- A request in the port's hands; `performed` holds its response bytes once the port has performed it
(R77, R78; log entry 5). -/
structure PortEntry where
  req : MemRequest
  performed : Option (List Byte)
deriving DecidableEq, Repr, Inhabited

/-- The responses that arrive at a step, by channel (R123). -/
structure Arrivals where
  rx : Option (List Byte)
  tx : Option (List Byte)
deriving DecidableEq, Repr, Inhabited

/-- System memory (R46): the bytes that differ from what an unlisted address reads as, addresses rising. -/
abbrev Memory := List Host.Cell

/-- The whole state: the block's (R27 to R36), the outputs of the last step (R60), and the environment's
(system memory, the memory port, the inputs to come). -/
structure State where
  rx : Channel
  tx : Channel
  setup : Setup
  txFsm : TxFsm
  rxFsm : RxFsm
  busResp : Option BusResponse
  issued : List MemRequest
  mem : Memory
  portRx : Option PortEntry
  portTx : Option PortEntry
  inputs : List StepInput
  clock : Nat
deriving DecidableEq, Repr, Inhabited

/-- A channel after reset (R48). -/
def Channel.reset : Channel where
  saddr := 0#32
  size := 0#20
  cont := false
  ds := .one
  en := false
  cur := none
  pend := []
  stage := []
  out := none
  ready := none
  evt := false

/-- The UART configuration after reset: no parity, one stop bit, `B = 1` (R48). -/
def Setup.reset : Setup where
  parity := .noParity
  stop2 := false
  clkdiv := 0#16

/-- The transmitter after reset (R48). -/
def TxFsm.reset : TxFsm where
  state := .idle
  shift := 0#8
  bit := 0
  stop := 0
  cnt := 0#16
  line := true

/-- The receiver after reset (R48). -/
def RxFsm.reset : RxFsm where
  state := .waitStart
  shift := 0#8
  bit := 0
  cnt := 0#17
  prev := true

/-- The machine right after its reset, before its first step (R48, R192; log entries 1, 4, 9 and 17 for the
environment's and the model's own fields). -/
def State.reset : State where
  rx := Channel.reset
  tx := Channel.reset
  setup := Setup.reset
  txFsm := TxFsm.reset
  rxFsm := RxFsm.reset
  busResp := none
  issued := []
  mem := []
  portRx := none
  portTx := none
  inputs := []
  clock := 0

end Sys2Proof.Machine
end

