-- ==== Sys2Proof/Machine/Ops.lean ====
section
/-! DEFINITION. The named operations over memory, channels and the register bus that the phases and the register
accesses share. -/

namespace Sys2Proof.Machine

open Sys2Proof

/-! ### System memory (R46, R66) -/

/-- The byte at an address; an unlisted one reads as `Config.unwrittenByte` (log entry 4). -/
def Memory.read : Memory → Nat → Byte
  | [], _ => Config.unwrittenByte
  | (k, v) :: rest, a => if k = a then v else Memory.read rest a

/-- Lists a byte in front of cells at higher addresses, unless an unlisted address reads as it anyway. -/
def Memory.cons (a : Nat) (b : Byte) (m : Memory) : Memory :=
  if b = Config.unwrittenByte then m else (a, b) :: m

/-- Stores one byte, keeping the canonical form. -/
def Memory.write : Memory → Nat → Byte → Memory
  | [], a, b => Memory.cons a b []
  | (k, v) :: rest, a, b =>
    if a < k then Memory.cons a b ((k, v) :: rest)
    else if a = k then Memory.cons a b rest
    else (k, v) :: Memory.write rest a b

/-- Every address listed is at least `low` and below 2^32, addresses rise strictly, and no entry is what an
unlisted address reads as. -/
def Memory.wfFrom (low : Nat) : Memory → Bool
  | [] => true
  | (k, v) :: rest =>
    decide (low ≤ k) && decide (k < 2 ^ 32) && decide (v ≠ Config.unwrittenByte) && Memory.wfFrom (k + 1) rest

/-- The canonical form of memory. -/
def Memory.wf (m : Memory) : Bool := Memory.wfFrom 0 m

/-- The `n` bytes at `a`, `a + 1`, ... modulo 2^32, in that order (R66, R77). -/
def Memory.readBytes (m : Memory) (a : Word) : Nat → List Byte
  | 0 => []
  | n + 1 => Memory.read m a.toNat :: Memory.readBytes m (a + 1#32) n

/-- Stores the bytes at `a`, `a + 1`, ... modulo 2^32, in that order (R66, R78). -/
def Memory.writeBytes (m : Memory) (a : Word) : List Byte → Memory
  | [] => m
  | b :: bs => Memory.writeBytes (Memory.write m a.toNat b) (a + 1#32) bs

/-! ### Access to the state -/

/-- A channel of the state. -/
def State.chan (s : State) : ChannelId → Channel
  | .rx => s.rx
  | .tx => s.tx

/-- Replaces a channel. -/
def State.setChan (s : State) (c : ChannelId) (ch : Channel) : State :=
  match c with
  | .rx => { s with rx := ch }
  | .tx => { s with tx := ch }

/-- The request of a channel that the memory port holds. -/
def State.port (s : State) : ChannelId → Option PortEntry
  | .rx => s.portRx
  | .tx => s.portTx

/-- Replaces the request of a channel that the memory port holds. -/
def State.setPort (s : State) (c : ChannelId) (p : Option PortEntry) : State :=
  match c with
  | .rx => { s with portRx := p }
  | .tx => { s with portTx := p }

/-- Replaces system memory. -/
def State.setMem (s : State) (m : Memory) : State := { s with mem := m }

/-- Replaces the UART configuration. -/
def State.setSetup (s : State) (u : Setup) : State := { s with setup := u }

/-- Replaces the transmitter. -/
def State.setTxFsm (s : State) (f : TxFsm) : State := { s with txFsm := f }

/-- Replaces the receiver. -/
def State.setRxFsm (s : State) (f : RxFsm) : State := { s with rxFsm := f }

/-- Adds a memory request to the requests handed over in this step (R60, outputs). -/
def State.hand (s : State) (r : MemRequest) : State := { s with issued := s.issued ++ [r] }

/-- Answers the register access of this step (R23). -/
def State.respond (s : State) (r : BusResponse) : State := { s with busResp := some r }

/-- `raise InvalidAccess()`: the access ends with status INVALID, no `rdata`, and no state of the block changes
(R170). There is nothing to save and nothing to return from (R178, R179). -/
def State.raiseInvalidAccess (s : State) : State := s.respond .invalid

/-! ### Outputs (R25, R26) -/

/-- `tx_out` after the step (R25). -/
def State.txOut (s : State) : Bool := s.txFsm.line

/-- The event identifiers pulsed in the step, `evt_rx` and `evt_tx` by their names in the SoC (R26, R174). -/
def State.raisedEvents (s : State) : List Nat :=
  (if s.rx.evt then [Config.evtRxId] else []) ++ (if s.tx.evt then [Config.evtTxId] else [])

/-- The UART's clock-gate bit of the UDMA top level's bitmask, the input `cg` (R184). -/
def clockGateBit (mask : Word) : Bool := mask.getLsbD Config.uartPeriphId

/-! ### Arithmetic -/

/-- The bit time `B = clkdiv + 1` in steps (R140). -/
def Setup.bitTime (u : Setup) : Nat := u.clkdiv.toNat + 1

/-- `H = floor(B / 2)` (spec/43_uart_rx.md). -/
def Setup.halfBit (u : Setup) : Nat := u.bitTime / 2

/-- Replaces one bit of a byte. -/
def setBit (b : Byte) (i : Fin 8) (v : Bool) : Byte :=
  if v then b ||| BitVec.twoPow 8 i.val else b &&& ~~~(BitVec.twoPow 8 i.val)

end Sys2Proof.Machine
end

