-- ==== Sys2Proof/Machine/Flags.lean ====
section
/-! DEFINITION. The status flags (R44) and the parity bit (R147). -/

namespace Sys2Proof.Machine

open Sys2Proof

/-- CFG.PENDING: a transfer is current (R40). -/
def Channel.pending (c : Channel) : Bool := c.cur.isSome

/-- STATUS.TX_BUSY: a frame on the line or a fetched byte not yet sent (R41). -/
def State.txBusy (s : State) : Bool := decide (s.txFsm.state ≠ .idle) || decide (s.tx.stage ≠ [])

/-- STATUS.RX_BUSY: a frame is being received (R41). -/
def State.rxBusy (s : State) : Bool := decide (s.rxFsm.state ≠ .waitStart)

/-- `parity(b)`, the exclusive or of the eight bits (R9). -/
def byteParity (b : Byte) : Bool :=
  b.getLsbD 0 ^^ b.getLsbD 1 ^^ b.getLsbD 2 ^^ b.getLsbD 3 ^^ b.getLsbD 4 ^^ b.getLsbD 5 ^^ b.getLsbD 6
    ^^ b.getLsbD 7

/-- `pbit(b, mode)`: even parity is `parity(b)`, odd parity its complement (R147). Mode none has no parity
bit; the value 0 given for it is never used. -/
def parityBit (b : Byte) : ParityMode → Bool
  | .noParity => false
  | .even => byteParity b
  | .odd => !byteParity b

end Sys2Proof.Machine
end

