-- ==== Sys2Proof/Machine/Operands.lean ====
section
/-! DEFINITION. The fields a write takes from `wdata` (R88) and the data a read assembles (R89). -/

namespace Sys2Proof.Machine

open Sys2Proof

/-! ### Codes of the two coded fields -/

/-- The unit size a DATASIZE code names; 3 is reserved (R40, R49). -/
def UnitSize.ofCode (code : BitVec 2) : Option UnitSize :=
  if code = 0#2 then some .one
  else if code = 1#2 then some .two
  else if code = 2#2 then some .four
  else none

/-- The DATASIZE code of a unit size (R40). -/
def UnitSize.code : UnitSize → BitVec 2
  | .one => 0#2
  | .two => 1#2
  | .four => 2#2

/-- The unit size in bytes, `1 << ds` (R49). -/
def UnitSize.bytes : UnitSize → Nat
  | .one => 1
  | .two => 2
  | .four => 4

/-- The parity mode a PARITY code names; 3 is reserved (R42). -/
def ParityMode.ofCode (code : BitVec 2) : Option ParityMode :=
  if code = 0#2 then some .noParity
  else if code = 1#2 then some .even
  else if code = 2#2 then some .odd
  else none

/-- The PARITY code of a parity mode (R42). -/
def ParityMode.code : ParityMode → BitVec 2
  | .noParity => 0#2
  | .even => 1#2
  | .odd => 2#2

/-! ### Fields of `wdata` (R88) -/

/-- SIZE, bits 19:0 of a SIZE write (R39). -/
def sizeField (w : Word) : Size := w.extractLsb' 0 20

/-- CONT, bit 0 of a CFG write (R40). -/
def contField (w : Word) : Bool := w.getLsbD 0

/-- DATASIZE, bits 2:1 of a CFG write (R40). -/
def dataSizeField (w : Word) : BitVec 2 := w.extractLsb' 1 2

/-- EN, bit 4 of a CFG write (R40). -/
def enField (w : Word) : Bool := w.getLsbD 4

/-- CLR, bit 6 of a CFG write (R40). -/
def clrField (w : Word) : Bool := w.getLsbD 6

/-- PARITY, bits 1:0 of a SETUP write (R42). -/
def parityField (w : Word) : BitVec 2 := w.extractLsb' 0 2

/-- STOP2, bit 2 of a SETUP write (R42). -/
def stop2Field (w : Word) : Bool := w.getLsbD 2

/-- CLKDIV, bits 31:16 of a SETUP write (R42). -/
def clkdivField (w : Word) : BitVec 16 := w.extractLsb' 16 16

/-! ### Read data (R89) -/

/-- The value of a `c_SIZE` read: the remaining size of the current transfer, 0 when idle (R39). -/
def Channel.sizeWord (c : Channel) : Word :=
  match c.cur with
  | some d => (BitVec.ofNat 20 d.remainingSize).setWidth 32
  | none => 0#32

/-- The value of a `c_CFG` read: CLR and the reserved bits read 0 (R40). -/
def Channel.cfgWord (c : Channel) : Word :=
  (0#25 ++ 0#1 ++ BitVec.ofBool c.pending ++ BitVec.ofBool c.en ++ 0#1 ++ c.ds.code ++ BitVec.ofBool c.cont
    : BitVec 32)

/-- The value of a STATUS read (R41). -/
def State.statusWord (s : State) : Word :=
  (0#30 ++ BitVec.ofBool s.rxBusy ++ BitVec.ofBool s.txBusy : BitVec 32)

/-- The value of a SETUP read (R42). -/
def Setup.word (u : Setup) : Word :=
  (u.clkdiv ++ 0#13 ++ BitVec.ofBool u.stop2 ++ u.parity.code : BitVec 32)

end Sys2Proof.Machine
end

