-- ==== Sys2Proof/Machine/Channel.lean ====
section
/-! DEFINITION. The channel operations of spec/41_channel.md: ARM, ISSUE, CAPTURE, SERVICE, COMPLETE, END_PASS,
WRAP, CLEAR, PUSH, and the channel's part of a reset step (R48). -/

namespace Sys2Proof.Machine

open Sys2Proof

/-! ### Descriptors -/

/-- `next_n`: the bytes of the unit a transfer moves next; the last unit of a pass may be short (R50). -/
def Descriptor.nextN (d : Descriptor) : Nat := min d.unitSize.bytes d.remainingSize

/-- A transfer after a unit of `n` bytes (R125, R126, R129). -/
def Descriptor.advance (d : Descriptor) (n : Nat) : Descriptor :=
  { d with
    currentAddress := d.currentAddress + BitVec.ofNat 32 n
    remainingSize := d.remainingSize - n
    receivedSize := d.receivedSize + n }

/-- WRAP: a continuous transfer starts its next pass; `received_size` keeps counting (R128). -/
def Descriptor.wrap (d : Descriptor) : Descriptor :=
  { d with currentAddress := d.startAddress, remainingSize := d.totalSize.toNat }

/-! ### Arming and clearing (R120, R130) -/

/-- The descriptors in use: the current one and those pending (R28, R120). -/
def Channel.used (c : Channel) : Nat := (if c.cur.isSome then 1 else 0) + c.pend.length

/-- The transfer an ARM makes from the channel's registers (R120). -/
def Channel.newTransfer (c : Channel) : Descriptor where
  startAddress := c.saddr
  totalSize := c.size
  unitSize := c.ds
  continuous := c.cont
  currentAddress := c.saddr
  remainingSize := c.size.toNat
  receivedSize := 0

/-- ARM: a size of 0 and a full pool arm nothing; an idle channel begins the transfer, a busy one queues it
(R120). -/
def Channel.arm (c : Channel) : Channel :=
  if c.size = 0#20 then c
  else if c.used = Config.poolDepth then c
  else
    match c.cur with
    | none => { c with cur := some c.newTransfer }
    | some _ => { c with pend := c.pend ++ [c.newTransfer] }

/-- CLEAR: every descriptor is freed, the stage is emptied, and the response to an outstanding request will be
dropped (R130). -/
def Channel.clear (c : Channel) : Channel :=
  { c with
    cur := none
    pend := []
    stage := []
    out := c.out.map fun o => { o with discard := true } }

/-! ### Register writes (R103, R105, R109, R111) -/

/-- A SIZE write: the field is stored, and EN = 1 arms a transfer (R103, R109). -/
def Channel.writeSize (c : Channel) (w : Word) : Channel :=
  let c := { c with size := sizeField w }
  if c.en then c.arm else c

/-- A CFG write, or none for the reserved DATASIZE code: the fields are stored, then CLR clears the channel
(R105, R111). -/
def Channel.writeCfg (c : Channel) (w : Word) : Option Channel :=
  match UnitSize.ofCode (dataSizeField w) with
  | none => none
  | some ds =>
    let c := { c with cont := contField w, ds := ds, en := enField w }
    some (if clrField w then c.clear else c)

/-! ### Requests (R121, R122) -/

/-- The request a channel is to issue in phase 6, if it is to issue one: TX reads the next unit when its stage
is empty (R121), RX writes a unit when its stage holds one (R122). -/
def Channel.nextRequest (id : ChannelId) (c : Channel) : Option MemRequest :=
  match c.cur, c.out with
  | some d, none =>
    match id with
    | .tx => if c.stage = [] then some ⟨.tx, d.currentAddress, d.nextN, .read⟩ else none
    | .rx =>
      if d.nextN ≤ c.stage.length then
        some ⟨.rx, d.currentAddress, d.nextN, .write (c.stage.take d.nextN)⟩
      else none
  | _, _ => none

/-- A channel that has handed over a request; the bytes of a write leave the stage (R121, R122). -/
def Channel.requested (id : ChannelId) (c : Channel) (r : MemRequest) : Channel :=
  { c with
    out := some ⟨r.addr, r.n, false⟩
    stage :=
      match id with
      | .tx => c.stage
      | .rx => c.stage.drop r.n }

/-! ### Responses (R123 to R128) -/

/-- CAPTURE: a response to `c.out` waits for service; a write's response has no bytes (R123). -/
def Channel.capture (id : ChannelId) (c : Channel) (arrived : Option (List Byte)) : Channel :=
  match arrived, c.out with
  | some bytes, some o =>
    { c with
      ready :=
        match id with
        | .tx => some (bytes.take o.n)
        | .rx => some [] }
  | _, _ => c

/-- The request and its response are done with (R124). -/
def Channel.release (c : Channel) : Channel := { c with out := none, ready := none }

/-- END_PASS of the current transfer `d`: the event pulses; a continuous transfer wraps, another is retired and
the next pending one begins, or the channel idles, RX dropping what it has staged (R127). -/
def Channel.endPass (id : ChannelId) (c : Channel) (d : Descriptor) : Channel :=
  if d.continuous then { c with evt := true, cur := some d.wrap }
  else
    match c.pend with
    | next :: rest => { c with evt := true, cur := some next, pend := rest }
    | [] =>
      { c with
        evt := true
        cur := none
        stage :=
          match id with
          | .tx => c.stage
          | .rx => [] }

/-- COMPLETE of a unit of `n` bytes of the transfer `d`: TX stages the bytes read (R125), RX has nothing to move
(R126). -/
def Channel.complete (id : ChannelId) (c : Channel) (d : Descriptor) (n : Nat) (bytes : List Byte) : Channel :=
  { c with
    cur := some (d.advance n)
    stage :=
      match id with
      | .tx => c.stage ++ bytes
      | .rx => c.stage }

/-- SERVICE: a discarded response is dropped; another completes its unit and, when nothing remains, ends the pass
(R124, R84). A response with no request or no transfer behind it does not occur (R32; log entry 12). -/
def Channel.service (id : ChannelId) (c : Channel) : Channel :=
  match c.ready with
  | none => c
  | some bytes =>
    match c.out, c.cur with
    | some o, some d =>
      if o.discard then c.release
      else
        let done := (c.complete id d o.n bytes).release
        if (d.advance o.n).remainingSize = 0 then done.endPass id (d.advance o.n) else done
    | _, _ => c.release

/-! ### The FSMs' side (R131) -/

/-- PUSH: a received byte is staged if a transfer is current and the stage has room, else dropped (R131). -/
def Channel.push (c : Channel) (b : Byte) : Channel :=
  if c.cur.isSome ∧ c.stage.length < Config.stageBytes then { c with stage := c.stage ++ [b] } else c

/-- The RX channel after the receiver's step: the byte it pushes, if any, goes through PUSH (R131). -/
def Channel.pushed (c : Channel) : Option Byte → Channel
  | some b => c.push b
  | none => c

/-! ### Events and reset -/

/-- Phase 0: the event output returns to 0 (R60). -/
def Channel.clearEvent (c : Channel) : Channel := { c with evt := false }

/-- A channel after a reset step; `arrived` says that a response arrives at that step (R48, R190, R191). -/
def Channel.afterReset (c : Channel) (arrived : Bool) : Channel :=
  { Channel.reset with
    out :=
      if c.ready.isSome || arrived then none
      else c.out.map fun o => { o with discard := true } }

end Sys2Proof.Machine
end

