-- ==== Sys2Proof/Machine/Access.lean ====
section
/-! DEFINITION. What the register accesses of a channel do, for either channel (R100 to R111 differ only in the
channel). -/

namespace Sys2Proof.Machine

open Sys2Proof

/-- A SADDR read returns the value last written, not the current address (R100, R106). -/
def State.readSaddr (s : State) (c : ChannelId) : State := s.respond (.okRead (s.chan c).saddr)

/-- A SADDR write changes no transfer that is current or pending (R101, R107). -/
def State.writeSaddr (s : State) (c : ChannelId) (w : Word) : State :=
  (s.setChan c { s.chan c with saddr := w }).respond .okWrite

/-- A SIZE read returns the remaining size (R102, R108). -/
def State.readSize (s : State) (c : ChannelId) : State := s.respond (.okRead (s.chan c).sizeWord)

/-- A SIZE write; an ARM that is refused is silent (R103, R109, R172). -/
def State.writeSize (s : State) (c : ChannelId) (w : Word) : State :=
  (s.setChan c ((s.chan c).writeSize w)).respond .okWrite

/-- A CFG read (R104, R110). -/
def State.readCfg (s : State) (c : ChannelId) : State := s.respond (.okRead (s.chan c).cfgWord)

/-- A CFG write; the reserved DATASIZE code rejects it as a whole (R105, R111, R92). -/
def State.writeCfg (s : State) (c : ChannelId) (w : Word) : State :=
  match (s.chan c).writeCfg w with
  | none => s.raiseInvalidAccess
  | some ch => (s.setChan c ch).respond .okWrite

end Sys2Proof.Machine
end

