-- ==== Sys2Proof/Machine/RxRegs.lean ====
section
/-! DEFINITION. The accesses of the RX channel's registers (R100 to R105). -/

namespace Sys2Proof.Machine

open Sys2Proof

/-- RD_RX_SADDR (R100). -/
def execRdRxSaddr (s : State) : Host.Outcome State Fault Refusal := .next (s.readSaddr .rx)

/-- WR_RX_SADDR (R101). -/
def execWrRxSaddr (wdata : Word) (s : State) : Host.Outcome State Fault Refusal := .next (s.writeSaddr .rx wdata)

/-- RD_RX_SIZE (R102). -/
def execRdRxSize (s : State) : Host.Outcome State Fault Refusal := .next (s.readSize .rx)

/-- WR_RX_SIZE (R103). -/
def execWrRxSize (wdata : Word) (s : State) : Host.Outcome State Fault Refusal := .next (s.writeSize .rx wdata)

/-- RD_RX_CFG (R104). -/
def execRdRxCfg (s : State) : Host.Outcome State Fault Refusal := .next (s.readCfg .rx)

/-- WR_RX_CFG (R105). -/
def execWrRxCfg (wdata : Word) (s : State) : Host.Outcome State Fault Refusal := .next (s.writeCfg .rx wdata)

end Sys2Proof.Machine
end

