-- ==== Sys2Proof/Machine/TxRegs.lean ====
section
/-! DEFINITION. The accesses of the TX channel's registers (R106 to R111). -/

namespace Sys2Proof.Machine

open Sys2Proof

/-- RD_TX_SADDR (R106). -/
def execRdTxSaddr (s : State) : Host.Outcome State Fault Refusal := .next (s.readSaddr .tx)

/-- WR_TX_SADDR (R107). -/
def execWrTxSaddr (wdata : Word) (s : State) : Host.Outcome State Fault Refusal := .next (s.writeSaddr .tx wdata)

/-- RD_TX_SIZE (R108). -/
def execRdTxSize (s : State) : Host.Outcome State Fault Refusal := .next (s.readSize .tx)

/-- WR_TX_SIZE (R109). -/
def execWrTxSize (wdata : Word) (s : State) : Host.Outcome State Fault Refusal := .next (s.writeSize .tx wdata)

/-- RD_TX_CFG (R110). -/
def execRdTxCfg (s : State) : Host.Outcome State Fault Refusal := .next (s.readCfg .tx)

/-- WR_TX_CFG (R111). -/
def execWrTxCfg (wdata : Word) (s : State) : Host.Outcome State Fault Refusal := .next (s.writeCfg .tx wdata)

end Sys2Proof.Machine
end

