-- ==== Sys2Proof/Machine/UartRegs.lean ====
section
/-! DEFINITION. The accesses of the UART's own registers, and the invalid access (R112 to R116). -/

namespace Sys2Proof.Machine

open Sys2Proof

/-- RD_STATUS (R112). -/
def execRdStatus (s : State) : Host.Outcome State Fault Refusal := .next (s.respond (.okRead s.statusWord))

/-- WR_STATUS: accepted and ignored, whatever the data (R113). -/
def execWrStatus (_wdata : Word) (s : State) : Host.Outcome State Fault Refusal := .next (s.respond .okWrite)

/-- RD_SETUP (R114). -/
def execRdSetup (s : State) : Host.Outcome State Fault Refusal := .next (s.respond (.okRead s.setup.word))

/-- WR_SETUP; the reserved PARITY code rejects it as a whole (R115, R92). -/
def execWrSetup (wdata : Word) (s : State) : Host.Outcome State Fault Refusal :=
  match ParityMode.ofCode (parityField wdata) with
  | none => .next s.raiseInvalidAccess
  | some mode => .next ((s.setSetup ⟨mode, stop2Field wdata, clkdivField wdata⟩).respond .okWrite)

/-- INVALID: the invalid-access outcome, whatever the key and the data (R116, R170). -/
def execInvalid (_key : Key) (_wdata : Word) (s : State) : Host.Outcome State Fault Refusal :=
  .next s.raiseInvalidAccess

end Sys2Proof.Machine
end

