-- ==== Sys2Proof/Machine/Dispatch.lean ====
section
/-! DEFINITION. The meaning of each register access, one arm per row of the table (phase 4 of a step, R60). -/

namespace Sys2Proof.Machine

open Sys2Proof

def exec (i : Instr) (s : State) : Host.Outcome State Fault Refusal :=
  match i with
  | .rdRxSaddr => Sys2Proof.Machine.execRdRxSaddr s
  | .wrRxSaddr wdata => Sys2Proof.Machine.execWrRxSaddr wdata s
  | .rdRxSize => Sys2Proof.Machine.execRdRxSize s
  | .wrRxSize wdata => Sys2Proof.Machine.execWrRxSize wdata s
  | .rdRxCfg => Sys2Proof.Machine.execRdRxCfg s
  | .wrRxCfg wdata => Sys2Proof.Machine.execWrRxCfg wdata s
  | .rdTxSaddr => Sys2Proof.Machine.execRdTxSaddr s
  | .wrTxSaddr wdata => Sys2Proof.Machine.execWrTxSaddr wdata s
  | .rdTxSize => Sys2Proof.Machine.execRdTxSize s
  | .wrTxSize wdata => Sys2Proof.Machine.execWrTxSize wdata s
  | .rdTxCfg => Sys2Proof.Machine.execRdTxCfg s
  | .wrTxCfg wdata => Sys2Proof.Machine.execWrTxCfg wdata s
  | .rdStatus => Sys2Proof.Machine.execRdStatus s
  | .wrStatus wdata => Sys2Proof.Machine.execWrStatus wdata s
  | .rdSetup => Sys2Proof.Machine.execRdSetup s
  | .wrSetup wdata => Sys2Proof.Machine.execWrSetup wdata s
  | .invalid key wdata => Sys2Proof.Machine.execInvalid key wdata s

end Sys2Proof.Machine
end

