-- ==== Sys2Proof/WellFormed.lean ====
section
/-! DEFINITION. Which terms of `Instr` stand for an access: every row of the table, and an `invalid` only for a
key that is none of the sixteen valid ones (R90, R91). -/

namespace Sys2Proof

/-- The sixteen valid keys, as the table of rule R90 lists them. -/
def validKeys : List Key :=
  [0x100#10, 0x300#10, 0x104#10, 0x304#10, 0x108#10, 0x308#10, 0x110#10, 0x310#10,
   0x114#10, 0x314#10, 0x118#10, 0x318#10, 0x120#10, 0x320#10, 0x124#10, 0x324#10]

/-- An `invalid` access carries a key of R91, and a read (W = 0, bit 9 of the key, R86) carries no data. -/
def Instr.wellFormed : Instr → Bool
  | .invalid key wdata => !validKeys.contains key && (key.getLsbD 9 || wdata == 0#32)
  | .rdRxSaddr => true
  | .wrRxSaddr _ => true
  | .rdRxSize => true
  | .wrRxSize _ => true
  | .rdRxCfg => true
  | .wrRxCfg _ => true
  | .rdTxSaddr => true
  | .wrTxSaddr _ => true
  | .rdTxSize => true
  | .wrTxSize _ => true
  | .rdTxCfg => true
  | .wrTxCfg _ => true
  | .rdStatus => true
  | .wrStatus _ => true
  | .rdSetup => true
  | .wrSetup _ => true

end Sys2Proof
end

