-- ==== Sys2Proof/Decode.lean ====
section
/-! DEFINITION. The request key (R86), the decoder (R87), the encoder, and the layout of an access as bytes
(log entry 3). -/

namespace Sys2Proof

/-- The size code `SZ` of an access width in bytes (R86). -/
def sizeCode (size : Nat) : BitVec 2 :=
  if size = 1 then 0b00#2
  else if size = 2 then 0b01#2
  else if size = 4 then 0b10#2
  else 0b11#2

/-- A width with a given size code; 8 stands for "every other size" (R86; log entry 3). -/
def sizeOfCode (code : BitVec 2) : Nat :=
  if code = 0b00#2 then 1
  else if code = 0b01#2 then 2
  else if code = 0b10#2 then 4
  else 8

/-- `W`, 1 for a write (R85). -/
def Direction.writeBit : Direction → BitVec 1
  | .read => 0#1
  | .write _ => 1#1

/-- The data of an access; a read has none, and 0 stands for it. -/
def Direction.wdata : Direction → Word
  | .read => 0#32
  | .write w => w

/-- The request key: `W` in bit 9, `SZ` in bits 8:7, the offset in bits 6:0 (R86). -/
def BusRequest.key (r : BusRequest) : Key :=
  (r.dir.writeBit ++ sizeCode r.size ++ r.offset : BitVec 10)

/-- `OFF` of a key (R86). -/
def keyOffset (k : Key) : Offset := k.extractLsb' 0 7

/-- `SZ` of a key (R86). -/
def keySize (k : Key) : BitVec 2 := k.extractLsb' 7 2

/-- `W` of a key (R86). -/
def keyWrite (k : Key) : Bool := k.getLsbD 9

/-- The offset of each register (R37). -/
def Reg.offset : Reg → Offset
  | .rxSaddr => 0x00#7
  | .rxSize => 0x04#7
  | .rxCfg => 0x08#7
  | .txSaddr => 0x10#7
  | .txSize => 0x14#7
  | .txCfg => 0x18#7
  | .status => 0x20#7
  | .setup => 0x24#7

/-- The register at an offset; every other offset is reserved (R37, R43). -/
def Reg.ofOffset (off : Offset) : Option Reg :=
  if off = 0x00#7 then some .rxSaddr
  else if off = 0x04#7 then some .rxSize
  else if off = 0x08#7 then some .rxCfg
  else if off = 0x10#7 then some .txSaddr
  else if off = 0x14#7 then some .txSize
  else if off = 0x18#7 then some .txCfg
  else if off = 0x20#7 then some .status
  else if off = 0x24#7 then some .setup
  else none

/-- The read of a register (R90). -/
def Reg.readAccess : Reg → Instr
  | .rxSaddr => .rdRxSaddr
  | .rxSize => .rdRxSize
  | .rxCfg => .rdRxCfg
  | .txSaddr => .rdTxSaddr
  | .txSize => .rdTxSize
  | .txCfg => .rdTxCfg
  | .status => .rdStatus
  | .setup => .rdSetup

/-- The write of a register (R90). -/
def Reg.writeAccess (w : Word) : Reg → Instr
  | .rxSaddr => .wrRxSaddr w
  | .rxSize => .wrRxSize w
  | .rxCfg => .wrRxCfg w
  | .txSaddr => .wrTxSaddr w
  | .txSize => .wrTxSize w
  | .txCfg => .wrTxCfg w
  | .status => .wrStatus w
  | .setup => .wrSetup w

/-- Decode of a key with its data, in the order of rule R87: width, alignment, reserved offset. -/
def decodeKey (k : Key) (wdata : Word) : Instr :=
  if keySize k ≠ 0b10#2 then .invalid k wdata
  else if k.extractLsb' 0 2 ≠ 0b00#2 then .invalid k wdata
  else
    match Reg.ofOffset (keyOffset k) with
    | none => .invalid k wdata
    | some reg => if keyWrite k then reg.writeAccess wdata else reg.readAccess

/-- The register access a bus request stands for (R86, R87). -/
def decodeRequest (r : BusRequest) : Instr := decodeKey r.key r.dir.wdata

/-- The causes of rule R171 that apply to a request before its data is looked at. They are names for
reference: the bus answers the one status INVALID for all of them. -/
inductive InvalidCause where
  | invSize
  | invAlign
  | invOffset
  | invValue
deriving DecidableEq, Repr, Inhabited

/-- The cause a request is rejected for, if it is (R171, in the order of R87; the value check of R92 last). -/
def BusRequest.invalidCause (r : BusRequest) : Option InvalidCause :=
  if r.size ≠ 4 then some .invSize
  else if r.offset.toNat % 4 ≠ 0 then some .invAlign
  else
    match Reg.ofOffset r.offset, r.dir with
    | none, _ => some .invOffset
    | some .rxCfg, .write w => if w.extractLsb' 1 2 = 3#2 then some .invValue else none
    | some .txCfg, .write w => if w.extractLsb' 1 2 = 3#2 then some .invValue else none
    | some .setup, .write w => if w.extractLsb' 0 2 = 3#2 then some .invValue else none
    | some _, _ => none

/-- The system address of a register offset (R37, R45). -/
def registerAddress (off : Offset) : Word := Config.uartBase + off.setWidth 32

/-- The offset of a system address inside the window, if it is inside (R45). -/
def windowOffset (addr : Word) : Option Offset :=
  let d := addr - Config.uartBase
  if d.toNat < Config.windowBytes then some (d.setWidth 7) else none

/-- The request that asks for a key with given data. -/
def requestOfKey (k : Key) (wdata : Word) : BusRequest where
  offset := keyOffset k
  size := sizeOfCode (keySize k)
  dir := if keyWrite k then .write wdata else .read

/-- A 4-byte read of a register. -/
def readRequest (reg : Reg) : BusRequest := ⟨reg.offset, 4, .read⟩

/-- A 4-byte write of a register. -/
def writeRequest (reg : Reg) (w : Word) : BusRequest := ⟨reg.offset, 4, .write w⟩

/-- The bus request of a register access (R90). -/
def encodeRequest : Instr → BusRequest
  | .rdRxSaddr => readRequest .rxSaddr
  | .wrRxSaddr w => writeRequest .rxSaddr w
  | .rdRxSize => readRequest .rxSize
  | .wrRxSize w => writeRequest .rxSize w
  | .rdRxCfg => readRequest .rxCfg
  | .wrRxCfg w => writeRequest .rxCfg w
  | .rdTxSaddr => readRequest .txSaddr
  | .wrTxSaddr w => writeRequest .txSaddr w
  | .rdTxSize => readRequest .txSize
  | .wrTxSize w => writeRequest .txSize w
  | .rdTxCfg => readRequest .txCfg
  | .wrTxCfg w => writeRequest .txCfg w
  | .rdStatus => readRequest .status
  | .wrStatus w => writeRequest .status w
  | .rdSetup => readRequest .setup
  | .wrSetup w => writeRequest .setup w
  | .invalid k w => requestOfKey k w

/-- Why bytes are no access: too few of them, or a key unit with a bit above bit 9 set (log entry 3). -/
inductive DecodeError where
  | truncated
  | paddingBits
deriving DecidableEq, Repr, Inhabited

/-- The request laid out at the front of a list of bytes, with the bytes that follow it: two bytes of key,
least significant first, and for a write four bytes of data, least significant first (log entry 3). -/
def requestOfBytes : List Byte → Except DecodeError (BusRequest × List Byte)
  | k0 :: k1 :: rest =>
    let key : Key := (k1.extractLsb' 0 2 ++ k0 : BitVec 10)
    if k1.extractLsb' 2 6 ≠ 0#6 then .error .paddingBits
    else if keyWrite key then
      match rest with
      | d0 :: d1 :: d2 :: d3 :: rest' =>
        .ok (requestOfKey key (d3 ++ d2 ++ d1 ++ d0 : BitVec 32), rest')
      | _ => .error .truncated
    else .ok (requestOfKey key 0#32, rest)
  | _ => .error .truncated

/-- The access at the front of a list of bytes, with the bytes that follow it. -/
def decode (bytes : List Byte) : Except DecodeError (Instr × List Byte) :=
  match requestOfBytes bytes with
  | .ok (r, rest) => .ok (decodeRequest r, rest)
  | .error e => .error e

/-- The four bytes of a word, least significant first. -/
def wordBytes (w : Word) : List Byte :=
  [w.extractLsb' 0 8, w.extractLsb' 8 8, w.extractLsb' 16 8, w.extractLsb' 24 8]

/-- The bytes of a key, least significant first; bits 15:10 of the unit are 0. -/
def keyBytes (k : Key) : List Byte :=
  [k.extractLsb' 0 8, (k.extractLsb' 8 2).setWidth 8]

/-- The bytes of a register access (log entry 3). -/
def encode (i : Instr) : List Byte :=
  let r := encodeRequest i
  match r.dir with
  | .read => keyBytes r.key
  | .write w => keyBytes r.key ++ wordBytes w

/-- The `n` low bytes of a number, least significant first. -/
def bytesOfNat : Nat → Nat → List Byte
  | 0, _ => []
  | n + 1, w => BitVec.ofNat 8 w :: bytesOfNat n (w / 256)

/-- The bytes of the longest access whose low `nbits` bits are those of `w`, the bits above them 0. -/
def tableBytes (nbits w : Nat) : List Byte := bytesOfNat 6 (w % 2 ^ nbits)

/-- The access the decoder reads from the `nbits` bits `w`, numbered as `opcode_table.json` numbers them. -/
def decodeTableWord (nbits w : Nat) : Option Instr :=
  match decode (tableBytes nbits w) with
  | .ok (i, _) => some i
  | .error _ => none

end Sys2Proof
end

