-- ==== Sys2Proof/Machine/MemPort.lean ====
section
/-! DEFINITION. The memory port and the other agents' stores (R24, R76 to R78, R83, R84; log entries 5 to 8). -/

namespace Sys2Proof.Machine

open Sys2Proof

/-- Performs a request on memory: the memory after it and the response bytes (R77, R78). -/
def MemRequest.perform (r : MemRequest) (m : Memory) : Memory × List Byte :=
  match r.op with
  | .read => (m, Memory.readBytes m r.addr r.n)
  | .write bytes => (Memory.writeBytes m r.addr bytes, [])

/-- The response bytes of a request that ends with an error status: any bytes for a read (R83; log entry 6). -/
def MemRequest.errorBytes (r : MemRequest) (data : List Byte) : List Byte :=
  match r.op with
  | .read => (data ++ List.replicate r.n 0#8).take r.n
  | .write _ => []

/-- Whether the outstanding request of a channel is to be discarded (R84). -/
def Channel.discarding (c : Channel) : Bool :=
  match c.out with
  | some o => o.discard
  | none => false

/-- The port performs the request it holds for a channel, once (R77, R78). -/
def State.portPerform (s : State) (c : ChannelId) : State :=
  match s.port c with
  | some ⟨r, none⟩ =>
    (s.setMem (r.perform s.mem).1).setPort c (some ⟨r, some (r.perform s.mem).2⟩)
  | _ => s

/-- The port lets go of the request of a channel. -/
def State.portRelease (s : State) (c : ChannelId) : State := s.setPort c none

/-- Whether the port performs a request it has not yet performed when it answers it: always, but for a discarded
write, which may never land (R84, I5; log entry 7). DESIGN CHOICE, unsafe (log entry 22): at a reset step, where R190
treats the request as discarded and I5 leaves its landing open, the `discard` bit from before the step decides. -/
def State.performsAtAnswer (s : State) (c : ChannelId) (r : MemRequest) : Bool :=
  match r.op with
  | .read => true
  | .write _ => !(s.chan c).discarding

/-- The port answers the request of a channel: the state after it, and the response (R76 to R78, R84). -/
def State.portAnswer (s : State) (c : ChannelId) : State × Option (List Byte) :=
  match s.port c with
  | none => (s, none)
  | some ⟨_, some bytes⟩ => (s.portRelease c, some bytes)
  | some ⟨r, none⟩ =>
    if s.performsAtAnswer c r then
      ((s.setMem (r.perform s.mem).1).portRelease c, some (r.perform s.mem).2)
    else (s.portRelease c, some [])

/-- The port answers the request of a channel with an error status. The block ignores the status (R83, R172): the
request is performed as with any answer (R78, R84), and only the bytes of a read are any bytes (log entry 6). -/
def State.portAnswerError (s : State) (c : ChannelId) (data : List Byte) : State × Option (List Byte) :=
  ((s.portAnswer c).1, (s.port c).map fun e => e.req.errorBytes data)

/-- Records the response to a channel's request, if there is one. -/
def Arrivals.add (arr : Arrivals) (c : ChannelId) : Option (List Byte) → Arrivals
  | none => arr
  | some bytes =>
    match c with
    | .rx => { arr with rx := some bytes }
    | .tx => { arr with tx := some bytes }

/-- The response that arrives for a channel. -/
def Arrivals.get (arr : Arrivals) : ChannelId → Option (List Byte)
  | .rx => arr.rx
  | .tx => arr.tx

/-- No response arrives. -/
def Arrivals.empty : Arrivals := ⟨none, none⟩

/-- One action of the port or of another agent. -/
def State.memEvent (p : State × Arrivals) (e : MemEvent) : State × Arrivals :=
  match e with
  | .store addr b => (p.1.setMem (Memory.write p.1.mem addr.toNat b), p.2)
  | .perform c => (p.1.portPerform c, p.2)
  | .answer c => ((p.1.portAnswer c).1, p.2.add c (p.1.portAnswer c).2)
  | .answerError c data => ((p.1.portAnswerError c data).1, p.2.add c (p.1.portAnswerError c data).2)

/-- What the port and the other agents do in a step, in order: the state after it, and the responses that arrive
(log entry 5). -/
def State.memEvents (s : State) (events : List MemEvent) : State × Arrivals :=
  events.foldl State.memEvent (s, Arrivals.empty)

end Sys2Proof.Machine
end

