-- ==== Sys2Proof/Machine/Receiver.lean ====
section
/-! DEFINITION. The receive state machine of spec/43_uart_rx.md. A step over the line level gives the receiver
after it and the byte it pushes, if it pushes one. -/

namespace Sys2Proof.Machine

open Sys2Proof

/-- The counter value after a sample, `B - 1` (R158 to R160). -/
def Setup.rxLoad (u : Setup) : BitVec 17 := BitVec.ofNat 17 (u.bitTime - 1)

/-- The counter value at a start edge, `B + H - 1` (R157). -/
def Setup.rxFirstLoad (u : Setup) : BitVec 17 := BitVec.ofNat 17 (u.bitTime + u.halfBit - 1)

/-- IN_WAIT_START: a falling edge begins a frame (R156, R157). -/
def RxFsm.inWaitStart (u : Setup) (f : RxFsm) (v : Bool) : RxFsm :=
  if f.prev = true ∧ v = false then { f with state := .data, bit := 0, cnt := u.rxFirstLoad } else f

/-- The sample of a data bit: bits 0 to 6 (R158), and bit 7, after which the byte is pushed or its parity bit is
awaited (R159). -/
def RxFsm.sampleData (u : Setup) (f : RxFsm) (v : Bool) : RxFsm × Option Byte :=
  let shift := setBit f.shift f.bit v
  if f.bit.val < 7 then ({ f with shift := shift, bit := f.bit + 1, cnt := u.rxLoad }, none)
  else
    match u.parity with
    | .noParity => ({ f with shift := shift, cnt := u.rxLoad, state := .waitStop }, some shift)
    | _ => ({ f with shift := shift, cnt := u.rxLoad, state := .parity }, none)

/-- Whether a parity sample delivers the byte: parity was switched off meanwhile, or the bit is right (R160). -/
def parityAccepts (u : Setup) (b : Byte) (v : Bool) : Bool :=
  match u.parity with
  | .noParity => true
  | mode => v == parityBit b mode

/-- The parity sample: a mismatch discards the byte (R160). -/
def RxFsm.sampleParity (u : Setup) (f : RxFsm) (v : Bool) : RxFsm × Option Byte :=
  ({ f with state := .waitStop, cnt := u.rxLoad }, if parityAccepts u f.shift v then some f.shift else none)

/-- The stop sample: good or bad, the receiver waits for the next edge (R161, R162). -/
def RxFsm.sampleStop (f : RxFsm) : RxFsm := { f with state := .waitStart }

/-- One step less before the next sample. -/
def RxFsm.countDown (f : RxFsm) : RxFsm := { f with cnt := f.cnt - 1#17 }

/-- The state's own part of an enabled step, before `rx_prev` takes the level (R155). -/
def RxFsm.react (u : Setup) (f : RxFsm) (v : Bool) : RxFsm × Option Byte :=
  match f.state with
  | .waitStart => (f.inWaitStart u v, none)
  | .data => if f.cnt = 0#17 then f.sampleData u v else (f.countDown, none)
  | .parity => if f.cnt = 0#17 then f.sampleParity u v else (f.countDown, none)
  | .waitStop => if f.cnt = 0#17 then (f.sampleStop, none) else (f.countDown, none)

/-- RX_STEP of an enabled step with line level `v` (R155). -/
def RxFsm.step (u : Setup) (f : RxFsm) (v : Bool) : RxFsm × Option Byte :=
  ({ (f.react u v).1 with prev := v }, (f.react u v).2)

/-- RX_STEP in the whole state: a pushed byte goes to `RX.stage` (R131, R61). -/
def State.rxStep (s : State) (v : Bool) : State :=
  let r := s.rxFsm.step s.setup v
  { s with
    rxFsm := r.1
    rx := s.rx.pushed r.2 }

end Sys2Proof.Machine
end

