-- ==== Sys2Proof/Machine/Transmitter.lean ====
section
/-! DEFINITION. The transmit state machine of spec/42_uart_tx.md, over its own state and the TX staging buffer. -/

namespace Sys2Proof.Machine

open Sys2Proof

/-- The counter value that starts a bit, `B - 1` (R140). -/
def Setup.txLoad (u : Setup) : BitVec 16 := BitVec.ofNat 16 (u.bitTime - 1)

/-- LOAD: POP takes the head byte and the start bit goes on the line (R142, R132). -/
def TxFsm.load (u : Setup) (f : TxFsm) (b : Byte) : TxFsm :=
  { f with shift := b, state := .start, line := false, cnt := u.txLoad }

/-- END_START: the first data bit, least significant first (R143). -/
def TxFsm.endStart (u : Setup) (f : TxFsm) : TxFsm :=
  { f with state := .data, bit := 0, line := f.shift.getLsbD 0, cnt := u.txLoad }

/-- The first stop bit goes on the line (R144, R145). -/
def TxFsm.toStop (u : Setup) (f : TxFsm) : TxFsm :=
  { f with state := .stop, stop := 0, line := true, cnt := u.txLoad }

/-- END_DATA: the next data bit, or after bit 7 the parity bit or the first stop bit (R144). -/
def TxFsm.endData (u : Setup) (f : TxFsm) : TxFsm :=
  if f.bit.val < 7 then
    { f with bit := f.bit + 1, line := f.shift.getLsbD (f.bit.val + 1), cnt := u.txLoad }
  else
    match u.parity with
    | .noParity => f.toStop u
    | mode => { f with state := .parity, line := parityBit f.shift mode, cnt := u.txLoad }

/-- END_PARITY (R145). -/
def TxFsm.endParity (u : Setup) (f : TxFsm) : TxFsm := f.toStop u

/-- END_STOP: the second stop bit, the next frame, or idle; with the staging buffer left (R146). -/
def TxFsm.endStop (u : Setup) (f : TxFsm) (stage : List Byte) : TxFsm × List Byte :=
  if f.stop = 0 ∧ u.stop2 = true then ({ f with stop := 1, line := true, cnt := u.txLoad }, stage)
  else
    match stage with
    | b :: rest => (f.load u b, rest)
    | [] => ({ f with state := .idle, line := true }, [])

/-- TX_STEP of an enabled step: the transmitter and the staging buffer after it (R141). -/
def TxFsm.step (u : Setup) (f : TxFsm) (stage : List Byte) : TxFsm × List Byte :=
  match f.state with
  | .idle =>
    match stage with
    | b :: rest => (f.load u b, rest)
    | [] => (f, [])
  | .start => if f.cnt = 0#16 then (f.endStart u, stage) else ({ f with cnt := f.cnt - 1#16 }, stage)
  | .data => if f.cnt = 0#16 then (f.endData u, stage) else ({ f with cnt := f.cnt - 1#16 }, stage)
  | .parity => if f.cnt = 0#16 then (f.endParity u, stage) else ({ f with cnt := f.cnt - 1#16 }, stage)
  | .stop => if f.cnt = 0#16 then f.endStop u stage else ({ f with cnt := f.cnt - 1#16 }, stage)

/-- TX_STEP in the whole state: the FSM meets its channel only in `TX.stage` (R61). -/
def State.txStep (s : State) : State :=
  let r := s.txFsm.step s.setup s.tx.stage
  { s with txFsm := r.1, tx := { s.tx with stage := r.2 } }

end Sys2Proof.Machine
end

