-- ==== Sys2Proof/Machine/Phases.lean ====
section
/-! DEFINITION. The phases of a step around the register access (R60). -/

namespace Sys2Proof.Machine

open Sys2Proof

/-- The inputs of the step about to be evaluated: the first one listed, else what the environment chooses
(log entry 1). -/
def State.nextInput (s : State) : StepInput :=
  match s.inputs with
  | i :: _ => i
  | [] => Config.envInput s.clock

/-- Takes the inputs of this step and, phase 0, clears the outputs of the last one (R60). -/
def State.begin (s : State) : State :=
  { s with
    rx := s.rx.clearEvent
    tx := s.tx.clearEvent
    busResp := none
    issued := []
    inputs := s.inputs.tail
    clock := s.clock + 1 }

/-- The state the phases start from, and the responses that arrive at this step. -/
def State.environment (s : State) : State × Arrivals := s.begin.memEvents s.nextInput.mem

/-- Phase 2 for one channel (R124). -/
def State.service (s : State) (c : ChannelId) : State := s.setChan c ((s.chan c).service c)

/-- Phase 3 for one channel (R123). -/
def State.capture (s : State) (arr : Arrivals) (c : ChannelId) : State :=
  s.setChan c ((s.chan c).capture c (arr.get c))

/-- Phases 2 and 3, the RX channel first. -/
def State.serviceAndCapture (s : State) (arr : Arrivals) : State :=
  (((s.service .rx).service .tx).capture arr .rx).capture arr .tx

/-- What phases 0, 2 and 3 of a step leave for its register access (R60, R117). -/
def State.beforeAccess (s : State) : State := s.environment.1.serviceAndCapture s.environment.2

/-- Phase 5: the FSMs step only while the clock gate is open (R60, R184). -/
def State.protocol (s : State) (cg rxIn : Bool) : State := if cg then s.txStep.rxStep rxIn else s

/-- Phase 6 for one channel: a request is handed to the memory port (R121, R122). -/
def State.issue (s : State) (c : ChannelId) : State :=
  match (s.chan c).nextRequest c with
  | none => s
  | some r => ((s.setChan c ((s.chan c).requested c r)).setPort c (some ⟨r, none⟩)).hand r

/-- Phases 5 and 6 (R60). -/
def State.afterAccess (s : State) (i : StepInput) : State := ((s.protocol i.cg i.rxIn).issue .rx).issue .tx

/-- A reset step: every element of the block takes its reset value, and an access presented is answered INVALID
without being performed (R48, R190, R191). Memory, the port and the inputs are the environment's;
whether an unperformed RX write answered at this step lands is the model's choice (log entry 22). -/
def State.resetStep (s : State) : State :=
  let p := s.environment
  { p.1 with
    rx := p.1.rx.afterReset p.2.rx.isSome
    tx := p.1.tx.afterReset p.2.tx.isSome
    setup := Setup.reset
    txFsm := TxFsm.reset
    rxFsm := RxFsm.reset
    busResp := s.nextInput.req.map fun _ => .invalid }

/-- Inputs that present nothing: no reset, the clock gated as after the UDMA top level's reset (R193), the line
idle, the memory port silent. -/
def quietInput : StepInput := ⟨false, false, true, none, []⟩

/-- Presents a request in the next step: the inputs listed for it otherwise stay, quiet ones are listed if there
are none, and the step is no reset step (log entry 2). -/
def State.present (s : State) (req : Option BusRequest) : State :=
  { s with
    inputs :=
      match s.inputs with
      | i :: rest => { i with rst := false, req := req } :: rest
      | [] => [{ quietInput with req := req }] }

/-- The request laid out in the `nbits` bits `w`, if it is one. -/
def requestOfTableWord (nbits w : Nat) : Option BusRequest :=
  match requestOfBytes (tableBytes nbits w) with
  | .ok (r, _) => some r
  | .error _ => none

end Sys2Proof.Machine
end

