-- ==== Sys2Proof/Machine/Step.lean ====
section
/-! DEFINITION. One step of the block (R60). -/

namespace Sys2Proof.Machine

open Sys2Proof

/-- One step: a reset step, or the phases in order with the register access presented, if any, in phase 4. -/
def step (s : State) : Host.Outcome State Fault Refusal :=
  if s.nextInput.rst then .next s.resetStep
  else
    match s.nextInput.req with
    | none => .next (s.beforeAccess.afterAccess s.nextInput)
    | some r =>
      match exec (decodeRequest r) s.beforeAccess with
      | .next t => .next (t.afterAccess s.nextInput)
      | .fault f => .fault f
      | .refused e => .refused e

/-- `s` with the access of the `nbits` bits `w` presented in its next step (log entries 2 and 3). -/
def State.withFetchWord (s : State) (nbits w : Nat) : State := s.present (requestOfTableWord nbits w)

end Sys2Proof.Machine
end

