-- ==== Sys2Proof/Safety.lean ====
section
/-! DEFINITION. The terms in which claims about the block are stated: what holds after every step, quiescence, the
shape of a frame, the units of a pass, and runs of the two FSMs on their own. -/

namespace Sys2Proof.Machine

open Sys2Proof

/-! ### What holds after every step (R28 to R32) -/

/-- A transfer that is current (R31): some of the pass remains, the address is as far from its start as bytes of
the pass have been moved (R125, R134), and `received_size` counts them (R133). -/
structure Descriptor.Active (d : Descriptor) : Prop where
  remaining_pos : 0 < d.remainingSize
  remaining_le : d.remainingSize ≤ d.totalSize.toNat
  address : d.currentAddress = d.startAddress + BitVec.ofNat 32 (d.totalSize.toNat - d.remainingSize)
  received_once : d.continuous = false → d.receivedSize + d.remainingSize = d.totalSize.toNat
  received_cyclic : d.continuous = true →
    d.receivedSize % d.totalSize.toNat = d.totalSize.toNat - d.remainingSize

/-- A transfer that is pending has not begun (R31). -/
structure Descriptor.Fresh (d : Descriptor) : Prop where
  total_pos : 0 < d.totalSize.toNat
  address : d.currentAddress = d.startAddress
  remaining : d.remainingSize = d.totalSize.toNat
  received : d.receivedSize = 0

/-- What holds of either channel after every step. -/
structure Channel.Ok (c : Channel) : Prop where
  /-- the pool bound (R28) -/
  pool : c.used ≤ Config.poolDepth
  /-- nothing is pending behind no transfer (R28) -/
  idle_pend : c.cur = none → c.pend = []
  active : ∀ d, c.cur = some d → d.Active
  fresh : ∀ d, d ∈ c.pend → d.Fresh
  /-- the staging buffer's capacity (R29) -/
  stage_le : c.stage.length ≤ Config.stageBytes
  /-- a response belongs to a request (R32) -/
  ready_out : c.ready ≠ none → c.out ≠ none
  /-- a request moves 1 to 4 bytes (R24, R32) -/
  out_bytes : ∀ o, c.out = some o → 1 ≤ o.n ∧ o.n ≤ 4
  /-- a request that is not discarded is for the current transfer's next unit (R121, R122) -/
  out_unit : ∀ o, c.out = some o → o.discard = false →
    ∃ d, c.cur = some d ∧ o.n = d.nextN ∧ o.addr = d.currentAddress

/-- What holds of the TX channel besides: a request is out only while nothing is staged, one is out whenever a
transfer is current and nothing is staged, and a captured response has the bytes asked for (R121, R123, R125). -/
structure Channel.TxOk (c : Channel) : Prop where
  out_stage : c.out ≠ none → c.stage = []
  busy : c.cur ≠ none → c.stage = [] → c.out ≠ none
  ready_bytes : ∀ o bytes, c.out = some o → c.ready = some bytes → bytes.length = o.n

/-- What holds of the RX channel besides: an idle channel stages nothing, a request is out whenever a unit is
staged, and a captured response has no bytes (R122, R123, R127, R131). -/
structure Channel.RxOk (c : Channel) : Prop where
  idle_stage : c.cur = none → c.stage = []
  busy : ∀ d, c.cur = some d → d.nextN ≤ c.stage.length → c.out ≠ none
  ready_bytes : ∀ bytes, c.ready = some bytes → bytes = []

/-- The request a channel hands to the port is a read of TX or a write of RX with its bytes (R24), and once it is
performed its response has the bytes R77 and R123 say. -/
def PortEntry.Shape (e : PortEntry) : ChannelId → Prop
  | .tx => e.req.op = .read ∧ ∀ bytes, e.performed = some bytes → bytes.length = e.req.n
  | .rx => (∃ bytes, e.req.op = .write bytes ∧ bytes.length = e.req.n) ∧
      ∀ bytes, e.performed = some bytes → bytes = []

/-- The port holds a channel's request exactly while it is out and its response has not arrived, and it is the
request `c.out` describes (R24, R32). -/
structure State.PortOk (s : State) (id : ChannelId) : Prop where
  holds : (s.port id).isSome = ((s.chan id).out.isSome && (s.chan id).ready.isNone)
  entry : ∀ e o, s.port id = some e → (s.chan id).out = some o →
    e.req.chan = id ∧ e.req.addr = o.addr ∧ e.req.n = o.n ∧ e.Shape id

/-- The level the transmitter drives in each of its states: 1 when idle or in a stop bit, 0 in the start bit, the
data bit it is at (R142 to R146). -/
def TxFsm.lineOk (f : TxFsm) : Prop :=
  match f.state with
  | .idle => f.line = true
  | .start => f.line = false
  | .data => f.line = f.shift.getLsbD f.bit.val
  | .parity => True
  | .stop => f.line = true

/-- The invariant of the block, after every step. -/
structure State.Inv (s : State) : Prop where
  mem : Memory.wf s.mem = true
  rx : s.rx.Ok
  tx : s.tx.Ok
  rx_own : s.rx.RxOk
  tx_own : s.tx.TxOk
  port_rx : s.PortOk .rx
  port_tx : s.PortOk .tx
  line : s.txFsm.lineOk
  /-- `rx_cnt` never exceeds `B + H - 1` of the greatest divider (R157, R181) -/
  rx_count : s.rxFsm.cnt.toNat ≤ 98303

/-- The block is quiescent (R205). -/
structure State.Quiescent (s : State) : Prop where
  rx_idle : s.rx.cur = none
  tx_idle : s.tx.cur = none
  rx_out : s.rx.out = none
  tx_out : s.tx.out = none
  tx_stage : s.tx.stage = []
  tx_state : s.txFsm.state = .idle
  rx_state : s.rxFsm.state = .waitStart

/-! ### A frame on the line (R147, R148) -/

/-- The parity bits of a frame: none or one. -/
def parityBits (u : Setup) (b : Byte) : List Bool :=
  match u.parity with
  | .noParity => []
  | mode => [parityBit b mode]

/-- The stop bits of a frame: one or two. -/
def stopBits (u : Setup) : List Bool := if u.stop2 then [true, true] else [true]

/-- The bits of the frame of a byte, in the order of the line: start, data from the least significant, parity,
stop (R148). -/
def frameBits (u : Setup) (b : Byte) : List Bool :=
  false :: ((List.range 8).map fun i => b.getLsbD i) ++ parityBits u b ++ stopBits u

/-- The steps a frame lasts, `(10 + P + S) * B` (R148). -/
def frameLength (u : Setup) (b : Byte) : Nat := (frameBits u b).length * u.bitTime

/-- The level of the frame of a byte `k` enabled steps after its start bit began; the line idles at 1 (R148). -/
def frameLevel (u : Setup) (b : Byte) (k : Nat) : Bool := (frameBits u b).getD (k / u.bitTime) true

/-- The bit of its frame that the transmitter sends, the start bit being bit 0 (R148). -/
def TxFsm.frameBit (u : Setup) (f : TxFsm) : Nat :=
  match f.state with
  | .idle => 0
  | .start => 0
  | .data => 1 + f.bit.val
  | .parity => 9
  | .stop => 9 + (parityBits u f.shift).length + f.stop.val

/-- The transmitter sends the frame of `b` and is `k` enabled steps past the one its start bit began with
(R140, R148). -/
structure TxFsm.AtFrame (u : Setup) (b : Byte) (k : Nat) (f : TxFsm) : Prop where
  sending : f.state ≠ .idle
  byte : f.shift = b
  within : k < frameLength u b
  count : f.cnt.toNat ≤ u.clkdiv.toNat
  place : k = f.frameBit u * u.bitTime + (u.clkdiv.toNat - f.cnt.toNat)
  parity : f.state = .parity → u.parity ≠ .noParity
  level : f.line = frameLevel u b k

/-! ### Runs of one FSM over enabled steps -/

/-- The levels the transmitter drives in its next `n` enabled steps, when nothing else touches the staging
buffer. -/
def TxFsm.lines (u : Setup) : Nat → TxFsm → List Byte → List Bool
  | 0, _, _ => []
  | n + 1, f, stage => (f.step u stage).1.line :: TxFsm.lines u n (f.step u stage).1 (f.step u stage).2

/-- The receiver after the levels of its next enabled steps, and the bytes it pushes meanwhile. -/
def RxFsm.run (u : Setup) : RxFsm → List Bool → RxFsm × List Byte
  | f, [] => (f, [])
  | f, v :: vs => ((RxFsm.run u (f.step u v).1 vs).1, (f.step u v).2.toList ++ (RxFsm.run u (f.step u v).1 vs).2)

/-- The steps from a start edge to the stop sample, both included, `(9 + P) B + H + 1` (R163). -/
def receptionLength (u : Setup) (b : Byte) : Nat :=
  (9 + (parityBits u b).length) * u.bitTime + u.halfBit + 1

/-! ### The units of a pass (R50, R129) -/

/-- The addresses and sizes of the next requests of a transfer, up to `fuel` of them, to the end of the pass. -/
def Descriptor.units : Nat → Descriptor → List (Word × Nat)
  | 0, _ => []
  | fuel + 1, d =>
    if d.remainingSize = 0 then []
    else (d.currentAddress, d.nextN) :: Descriptor.units fuel (d.advance d.nextN)

/-- The transfer at the end of its pass, after at most `fuel` units. -/
def Descriptor.finish : Nat → Descriptor → Descriptor
  | 0, d => d
  | fuel + 1, d => if d.remainingSize = 0 then d else Descriptor.finish fuel (d.advance d.nextN)

/-! ### The access of a register, by channel -/

/-- RD_RX_SADDR or RD_TX_SADDR. -/
def rdSaddr : ChannelId → Instr
  | .rx => .rdRxSaddr
  | .tx => .rdTxSaddr

/-- WR_RX_SADDR or WR_TX_SADDR. -/
def wrSaddr (w : Word) : ChannelId → Instr
  | .rx => .wrRxSaddr w
  | .tx => .wrTxSaddr w

/-- RD_RX_SIZE or RD_TX_SIZE. -/
def rdSize : ChannelId → Instr
  | .rx => .rdRxSize
  | .tx => .rdTxSize

/-- WR_RX_SIZE or WR_TX_SIZE. -/
def wrSize (w : Word) : ChannelId → Instr
  | .rx => .wrRxSize w
  | .tx => .wrTxSize w

/-- RD_RX_CFG or RD_TX_CFG. -/
def rdCfg : ChannelId → Instr
  | .rx => .rdRxCfg
  | .tx => .rdTxCfg

/-- WR_RX_CFG or WR_TX_CFG. -/
def wrCfg (w : Word) : ChannelId → Instr
  | .rx => .wrRxCfg w
  | .tx => .wrTxCfg w

/-! ### Runs and inputs -/

/-- `k` steps, ending at the first fault or refusal. -/
def runSteps : Nat → State → Host.Outcome State Fault Refusal
  | 0, s => .next s
  | k + 1, s =>
    match step s with
    | .next t => runSteps k t
    | .fault f => .fault f
    | .refused r => .refused r

/-- What the FSMs and the issue of the step start from: the register access of the step, if there is one, has been
performed on what the first phases leave (R60). -/
def State.accessed (s : State) : State :=
  match s.nextInput.req with
  | none => s.beforeAccess
  | some r =>
    match exec (decodeRequest r) s.beforeAccess with
    | .next t => t
    | .fault _ => s.beforeAccess
    | .refused _ => s.beforeAccess

/-- The bytes of the RX channel's write requests in a list of requests, in the order of the list. -/
def rxBytesOf (issued : List MemRequest) : List Byte :=
  issued.flatMap fun r =>
    match r.op with
    | .read => []
    | .write bytes => bytes

/-- The input presents no register access and no reset, and the memory port does what `events` says. -/
def calm (events : List MemEvent) (i : StepInput) : Prop := i.rst = false ∧ i.req = none ∧ i.mem = events

/-- A response to the channel's request arrives at the step (R123, R190). -/
def State.responseArrives (s : State) (c : ChannelId) : Bool := (s.environment.2.get c).isSome

/-- The input resets nothing and writes no SETUP. -/
def keepsSetup (i : StepInput) : Prop :=
  i.rst = false ∧ ∀ r, i.req = some r → ∀ w, decodeRequest r ≠ .wrSetup w

end Sys2Proof.Machine
end

