-- ==== Sys2Proof/Certificates/Slice0/Obligations.lean ====
section
/-! DEFINITION. The statements about the block, for the provers. Each docstring names the rules it formalises. A full
equation of states is the frame of an access: every element not named in it keeps its value. -/

open Sys2Proof Sys2Proof.Machine

/-! ### Encoding -/

/-- Decode and encode agree: the bytes of a well-formed access, followed by any bytes, decode to it and leave those
bytes (R85 to R90; the layout as bytes is the model's choice, log entry 3). -/
def Obligations.EncodedAccessDecodesBack : Prop :=
  ∀ (i : Instr) (rest : List Byte), i.wellFormed = true → decode (encode i ++ rest) = .ok (i, rest)

/-- Every request of the bus stands for exactly one well-formed access, and that access asks for the same key with
the same data (R86, R87, R90, R91). -/
def Obligations.DecodedRequestIsWellFormed : Prop :=
  ∀ r : BusRequest, (decodeRequest r).wellFormed = true ∧
    (encodeRequest (decodeRequest r)).key = r.key ∧ (encodeRequest (decodeRequest r)).dir = r.dir

/-- Keys written out from the table of R90 and from the decode vectors decode to the accesses they stand for. -/
def Obligations.WrittenKeysDecode : Prop :=
  decodeTableWord 16 0x100 = some .rdRxSaddr ∧
  decodeTableWord 48 0x000000040314 = some (.wrTxSize 4#32) ∧
  decodeTableWord 48 0xFFFF00040324 = some (.wrSetup 0xFFFF0004#32) ∧
  decodeTableWord 16 0x120 = some .rdStatus ∧
  decodeTableWord 16 0x084 = some (.invalid 0x084#10 0#32) ∧
  decodeTableWord 16 0x102 = some (.invalid 0x102#10 0#32) ∧
  decodeTableWord 48 0x00000000030C = some (.invalid 0x30C#10 0#32)

/-- R170: which accesses are rejected, with status INVALID and no change; every other access is answered, and not
with INVALID. -/
def Obligations.InvalidAccessOutcome : Prop :=
  ∀ (r : BusRequest) (s : State),
    let bad := r.size ≠ 4 ∨ r.offset.toNat % 4 ≠ 0 ∨
      r.offset.toNat ∉ [0x00, 0x04, 0x08, 0x10, 0x14, 0x18, 0x20, 0x24] ∨
      ∃ w, r.dir = .write w ∧
        ((r.offset.toNat ∈ [0x08, 0x18] ∧ w.toNat / 2 % 4 = 3) ∨ (r.offset.toNat = 0x24 ∧ w.toNat % 4 = 3))
    (bad → exec (decodeRequest r) s = .next { s with busResp := some .invalid }) ∧
    (¬bad → ∃ t resp, exec (decodeRequest r) s = .next t ∧ t.busResp = some resp ∧ resp ≠ .invalid)

/-! ### The step and the register access in it -/

/-- The step runs the access presented: what the first phases leave is what the access sees, and the FSMs and the
issue follow it (R60, R117). -/
def Obligations.DecodedAccessRuns : Prop :=
  ∀ (s : State) (i : StepInput) (later : List StepInput) (r : BusRequest),
    s.inputs = i :: later → i.rst = false → i.req = some r →
    (decodeRequest r).wellFormed = true ∧
      ∃ t, exec (decodeRequest r) s.beforeAccess = .next t ∧ step s = .next (t.afterAccess i)

/-- The next step runs exactly the access that is placed with `withFetchWord` (the model's placing of an access,
log entries 2 and 3). -/
def Obligations.PlacedWordRuns : Prop :=
  ∀ (s : State) (nbits w : Nat) (a : Instr), decodeTableWord nbits w = some a →
    ∃ t, exec a (s.withFetchWord nbits w).beforeAccess = .next t ∧
      step (s.withFetchWord nbits w) = .next (t.afterAccess (s.withFetchWord nbits w).nextInput)

/-- R173: every state steps to a next state. -/
def Obligations.NoConditionStops : Prop :=
  ∀ s : State, ∃ t, step s = .next t

/-- No register access reads or writes system memory, drives a line, changes an FSM, an event, a captured response,
the memory port or the inputs; and every access completes (R119). -/
def Obligations.AccessLeavesEnvironment : Prop :=
  ∀ (i : Instr) (s : State), ∃ t, exec i s = .next t ∧
    (∀ a, Memory.read t.mem a = Memory.read s.mem a) ∧
    (∀ m, exec i (s.setMem m) = .next (t.setMem m)) ∧
    t.txFsm = s.txFsm ∧ t.rxFsm = s.rxFsm ∧ t.portRx = s.portRx ∧ t.portTx = s.portTx ∧
    t.inputs = s.inputs ∧ t.clock = s.clock ∧ t.issued = s.issued ∧
    ∀ c, (t.chan c).evt = (s.chan c).evt ∧ (t.chan c).ready = (s.chan c).ready ∧
      (t.chan c).out.isSome = (s.chan c).out.isSome

/-! ### The results of the accesses -/

/-- R100, R106: a SADDR read answers the value last written and changes nothing; it is 0 after reset. -/
def Obligations.SaddrReadAnswersLastWritten : Prop :=
  (encodeRequest .rdRxSaddr).key = 0x100#10 ∧ (encodeRequest .rdTxSaddr).key = 0x110#10 ∧
  ∀ (c : ChannelId) (s : State) (w : Word),
    exec (rdSaddr c) s = .next { s with busResp := some (.okRead (s.chan c).saddr) } ∧
    (State.reset.chan c).saddr = 0#32 ∧
    ∃ t, exec (wrSaddr w c) s = .next t ∧ exec (rdSaddr c) t = .next { t with busResp := some (.okRead w) }

/-- R101, R107: a SADDR write stores the word and changes nothing else, the transfers in the queue included. -/
def Obligations.SaddrWriteStoresTheWord : Prop :=
  (∀ w, (encodeRequest (.wrRxSaddr w)).key = 0x300#10 ∧ (encodeRequest (.wrTxSaddr w)).key = 0x310#10) ∧
  ∀ (s : State) (w : Word),
    exec (.wrRxSaddr w) s = .next { s with rx := { s.rx with saddr := w }, busResp := some .okWrite } ∧
    exec (.wrTxSaddr w) s = .next { s with tx := { s.tx with saddr := w }, busResp := some .okWrite }

/-- R102, R108: a SIZE read answers the remaining size of the current transfer, 0 when there is none, and changes
nothing. -/
def Obligations.SizeReadAnswersRemaining : Prop :=
  (encodeRequest .rdRxSize).key = 0x104#10 ∧ (encodeRequest .rdTxSize).key = 0x114#10 ∧
  ∀ (c : ChannelId) (s : State), ∃ v : Word,
    exec (rdSize c) s = .next { s with busResp := some (.okRead v) } ∧
    ((s.chan c).cur = none → v = 0#32) ∧
    ∀ d, (s.chan c).cur = some d → v.toNat = d.remainingSize % 2 ^ 20

/-- R103, R109, R120: a SIZE write stores bits 19:0. With EN = 1, a size other than 0 and a free descriptor it also
arms a transfer with the channel's registers, current if the channel is idle, else queued last; otherwise it arms
nothing. Nothing else changes. -/
def Obligations.SizeWriteStoresAndArms : Prop :=
  (∀ w, (encodeRequest (.wrRxSize w)).key = 0x304#10 ∧ (encodeRequest (.wrTxSize w)).key = 0x314#10) ∧
  ∀ (c : ChannelId) (s : State) (w : Word),
    let ch := s.chan c
    let sz : Size := BitVec.ofNat 20 w.toNat
    let used := (if ch.cur = none then 0 else 1) + ch.pend.length
    let d : Descriptor := ⟨ch.saddr, sz, ch.ds, ch.cont, ch.saddr, w.toNat % 2 ^ 20, 0⟩
    let after (ch' : Channel) : State := (s.setChan c ch').respond .okWrite
    (ch.en = false ∨ w.toNat % 2 ^ 20 = 0 ∨ used = 4 →
      exec (wrSize w c) s = .next (after { ch with size := sz })) ∧
    (ch.en = true → w.toNat % 2 ^ 20 ≠ 0 → used ≠ 4 → ch.cur = none →
      exec (wrSize w c) s = .next (after { ch with size := sz, cur := some d })) ∧
    (ch.en = true → w.toNat % 2 ^ 20 ≠ 0 → used ≠ 4 → ch.cur ≠ none →
      exec (wrSize w c) s = .next (after { ch with size := sz, pend := ch.pend ++ [d] }))

/-- R104, R110: a CFG read assembles PENDING, EN, DATASIZE and CONT, CLR and the reserved bits 0, and changes
nothing. -/
def Obligations.CfgReadAssemblesFields : Prop :=
  (encodeRequest .rdRxCfg).key = 0x108#10 ∧ (encodeRequest .rdTxCfg).key = 0x118#10 ∧
  ∀ (c : ChannelId) (s : State), ∃ v : Word,
    exec (rdCfg c) s = .next { s with busResp := some (.okRead v) } ∧
    v.toNat = (if (s.chan c).cur = none then 0 else 32) + (if (s.chan c).en then 16 else 0) +
      2 * Nat.log 2 (s.chan c).ds.bytes + (if (s.chan c).cont then 1 else 0)

/-- R105, R111, R130: a CFG write with DATASIZE = 3 is INVALID and changes nothing; another stores CONT, DATASIZE and
EN and arms nothing; with CLR = 1 it then frees every transfer, empties the stage and marks an outstanding request
to be discarded. Nothing else changes. -/
def Obligations.CfgWriteStoresAndClears : Prop :=
  (∀ w, (encodeRequest (.wrRxCfg w)).key = 0x308#10 ∧ (encodeRequest (.wrTxCfg w)).key = 0x318#10) ∧
  ∀ (c : ChannelId) (s : State) (w : Word),
    let ch := s.chan c
    let after (ch' : Channel) : State := (s.setChan c ch').respond .okWrite
    (w.toNat / 2 % 4 = 3 → exec (wrCfg w c) s = .next { s with busResp := some .invalid }) ∧
    (w.toNat / 2 % 4 ≠ 3 → ∃ ds : UnitSize, ds.bytes = 2 ^ (w.toNat / 2 % 4) ∧
      (w.getLsbD 6 = false →
        exec (wrCfg w c) s = .next (after { ch with cont := w.getLsbD 0, ds := ds, en := w.getLsbD 4 })) ∧
      (w.getLsbD 6 = true →
        exec (wrCfg w c) s = .next (after { ch with
          cont := w.getLsbD 0, ds := ds, en := w.getLsbD 4, cur := none, pend := [], stage := []
          out := ch.out.map fun o => { o with discard := true } })))

/-- R112, R113: a STATUS read assembles RX_BUSY and TX_BUSY from the FSMs and the TX stage; a STATUS write is
answered OK; neither changes anything. -/
def Obligations.StatusAccesses : Prop :=
  (encodeRequest .rdStatus).key = 0x120#10 ∧ (∀ w, (encodeRequest (.wrStatus w)).key = 0x320#10) ∧
  ∀ (s : State) (w : Word),
    exec (.wrStatus w) s = .next { s with busResp := some .okWrite } ∧
    ∃ v : Word, exec .rdStatus s = .next { s with busResp := some (.okRead v) } ∧
      v.toNat = (if s.rxFsm.state = .waitStart then 0 else 2) +
        (if s.txFsm.state ≠ .idle ∨ s.tx.stage ≠ [] then 1 else 0)

/-- R114: a SETUP read assembles CLKDIV, STOP2 and PARITY, the reserved bits 0, and changes nothing. -/
def Obligations.SetupReadAssemblesFields : Prop :=
  (encodeRequest .rdSetup).key = 0x124#10 ∧
  ∀ s : State, ∃ v : Word, exec .rdSetup s = .next { s with busResp := some (.okRead v) } ∧
    v.toNat = s.setup.clkdiv.toNat * 2 ^ 16 + (if s.setup.stop2 then 4 else 0) +
      (match s.setup.parity with | .noParity => 0 | .even => 1 | .odd => 2)

/-- R115: a SETUP write with PARITY = 3 is INVALID and changes nothing; another stores PARITY, STOP2 and CLKDIV, and
nothing else changes. -/
def Obligations.SetupWriteStoresFields : Prop :=
  (∀ w, (encodeRequest (.wrSetup w)).key = 0x324#10) ∧
  ∀ (s : State) (w : Word),
    (w.toNat % 4 = 3 → exec (.wrSetup w) s = .next { s with busResp := some .invalid }) ∧
    (w.toNat % 4 ≠ 3 → ∃ mode : ParityMode,
      (match mode with | .noParity => 0 | .even => 1 | .odd => 2) = w.toNat % 4 ∧
      exec (.wrSetup w) s = .next { s with
        setup := ⟨mode, w.getLsbD 2, BitVec.ofNat 16 (w.toNat / 2 ^ 16)⟩
        busResp := some .okWrite })

/-- R116: an invalid access is answered INVALID, whatever its key and its data, and changes nothing. -/
def Obligations.InvalidChangesNothing : Prop :=
  ∀ (k : Key) (w : Word) (s : State),
    (k ∉ validKeys → ∀ r : BusRequest, r.key = k → ∃ w', decodeRequest r = .invalid k w') ∧
    exec (.invalid k w) s = .next { s with busResp := some .invalid }

/-- R93: a write acts as if its reserved bits were 0, so it is not rejected for them, and every read answers 0 in
the reserved bits. -/
def Obligations.ReservedBitsIgnored : Prop :=
  ∀ (c : ChannelId) (s : State) (w : Word),
    exec (wrSize w c) s = exec (wrSize (w &&& 0x000FFFFF#32) c) s ∧
    exec (wrCfg w c) s = exec (wrCfg (w &&& 0x00000057#32) c) s ∧
    exec (.wrSetup w) s = exec (.wrSetup (w &&& 0xFFFF0007#32)) s ∧
    (∀ t v, exec (rdSize c) s = .next t → t.busResp = some (.okRead v) → v &&& 0xFFF00000#32 = 0#32) ∧
    (∀ t v, exec (rdCfg c) s = .next t → t.busResp = some (.okRead v) → v &&& 0xFFFFFFC8#32 = 0#32) ∧
    (∀ t v, exec .rdStatus s = .next t → t.busResp = some (.okRead v) → v &&& 0xFFFFFFFC#32 = 0#32) ∧
    (∀ t v, exec .rdSetup s = .next t → t.busResp = some (.okRead v) → v &&& 0x0000FFF8#32 = 0#32)

/-! ### Transfers -/

/-- R124, R126 and R127, with the TX unit and the wrap they call: the service of a captured response (phase 2, the
channel then as the register access of the step sees it). A discarded one is let go of. Another advances the address,
the remaining and the received size by the unit's bytes, TX staging the bytes read after those staged; and with the last
unit of a pass the event pulses: a continuous transfer starts again at its start address with its total size and keeps
counting what it received; another one retires, and the next pending one becomes current, or the channel idles, RX
dropping what it has staged. Nothing else of the channel changes. -/
def Obligations.ServiceMovesUnitAndEndsPass : Prop :=
  ∀ (c : ChannelId) (s : State) (bytes : List Byte) (o : OutRequest),
    (s.chan c).ready = some bytes → (s.chan c).out = some o →
    let staged := (s.chan c).stage ++ (if c = .tx then bytes else [])
    let ch := s.beforeAccess.chan c
    (o.discard = true → ch = { s.chan c with out := none, ready := none, evt := false }) ∧
    ∀ d, (s.chan c).cur = some d → o.discard = false →
      (o.n < d.remainingSize → ch = { s.chan c with
        cur := some { d with
          currentAddress := d.currentAddress + BitVec.ofNat 32 o.n
          remainingSize := d.remainingSize - o.n
          receivedSize := d.receivedSize + o.n }
        stage := staged, out := none, ready := none, evt := false }) ∧
      (d.remainingSize = o.n → d.continuous = true → ch = { s.chan c with
        cur := some { d with
          currentAddress := d.startAddress
          remainingSize := d.totalSize.toNat
          receivedSize := d.receivedSize + o.n }
        stage := staged, out := none, ready := none, evt := true }) ∧
      (d.remainingSize = o.n → d.continuous = false → ∀ next rest, (s.chan c).pend = next :: rest →
        ch = { s.chan c with
          cur := some next, pend := rest, stage := staged, out := none, ready := none, evt := true }) ∧
      (d.remainingSize = o.n → d.continuous = false → (s.chan c).pend = [] → ch = { s.chan c with
        cur := none, stage := (if c = .tx then staged else []), out := none, ready := none, evt := true })

/-- R26: a channel's event is 1 after a step exactly when the channel ended a pass in it, by the service of a
response that is not discarded and leaves nothing of the pass. -/
def Obligations.EventExactlyAtPassEnd : Prop :=
  ∀ (c : ChannelId) (s t : State), step s = .next t →
    ((t.chan c).evt = true ↔
      s.nextInput.rst = false ∧ ∃ bytes o d, (s.chan c).ready = some bytes ∧ (s.chan c).out = some o ∧
        o.discard = false ∧ (s.chan c).cur = some d ∧ d.remainingSize ≤ o.n)

/-- A transfer that is not continuous has received exactly its size when it retires, and with nothing pending the
channel then has no current transfer (41_channel.md R133). -/
def Obligations.RetiredTransferIsWhole : Prop :=
  ∀ (c : ChannelId) (s t : State) (d : Descriptor), s.Inv → step s = .next t → (t.chan c).evt = true →
    (s.chan c).cur = some d → d.continuous = false →
    ∃ o, (s.chan c).out = some o ∧ o.n = d.remainingSize ∧ d.receivedSize + o.n = d.totalSize.toNat ∧
      ((s.chan c).pend = [] → s.nextInput.req = none → (t.chan c).cur = none)

/-- The requests of a pass: `T / u` units of `u` bytes at addresses `u` apart from the start address, and the rest of
the pass as one last unit if `u` does not divide `T` (41_channel.md R129). -/
def Obligations.PassRequestsCoverTheBuffer : Prop :=
  ∀ (d : Descriptor) (fuel : Nat), d.Fresh → d.totalSize.toNat ≤ fuel →
    let t := d.totalSize.toNat
    let u := d.unitSize.bytes
    d.units fuel = (List.range (t / u)).map (fun i => (d.startAddress + BitVec.ofNat 32 (i * u), u)) ++
      (if t % u = 0 then [] else [(d.startAddress + BitVec.ofNat 32 (t / u * u), t % u)])

/-- A transfer that has moved a whole pass and wraps makes the same requests again, having received the total size
once more (41_channel.md R128, R134). -/
def Obligations.WrappedPassRepeats : Prop :=
  ∀ (d : Descriptor) (fuel : Nat), d.currentAddress = d.startAddress → d.remainingSize = d.totalSize.toNat →
    d.totalSize.toNat ≤ fuel →
    (d.finish fuel).remainingSize = 0 ∧
    (d.finish fuel).wrap.units fuel = d.units fuel ∧
    (d.finish fuel).wrap.receivedSize = d.receivedSize + d.totalSize.toNat

/-! ### Requests and responses -/

/-- R121: in phase 6 the TX channel hands over a read of the next unit exactly when a transfer is current, no request
is out and nothing is staged; nothing else changes. -/
def Obligations.TxIssuesWhenStageEmpty : Prop :=
  ∀ s : State,
    ((s.tx.cur = none ∨ s.tx.out ≠ none ∨ s.tx.stage ≠ []) → s.issue .tx = s) ∧
    ∀ d, s.tx.cur = some d → s.tx.out = none → s.tx.stage = [] →
      let n := min d.unitSize.bytes d.remainingSize
      let r : MemRequest := ⟨.tx, d.currentAddress, n, .read⟩
      s.issue .tx = { s with
        tx := { s.tx with out := some ⟨d.currentAddress, n, false⟩ }
        portTx := some ⟨r, none⟩
        issued := s.issued ++ [r] }

/-- R122: in phase 6 the RX channel hands over a write of the next unit exactly when a transfer is current, no
request is out and the unit is staged; the unit's bytes leave the stage and the others stay. -/
def Obligations.RxIssuesWhenUnitStaged : Prop :=
  ∀ s : State,
    ((∀ d, s.rx.cur = some d → s.rx.out ≠ none ∨ s.rx.stage.length < min d.unitSize.bytes d.remainingSize) →
      s.issue .rx = s) ∧
    ∀ d bytes rest, s.rx.cur = some d → s.rx.out = none → s.rx.stage = bytes ++ rest →
      bytes.length = min d.unitSize.bytes d.remainingSize →
      let r : MemRequest := ⟨.rx, d.currentAddress, bytes.length, .write bytes⟩
      s.issue .rx = { s with
        rx := { s.rx with out := some ⟨d.currentAddress, bytes.length, false⟩, stage := rest }
        portRx := some ⟨r, none⟩
        issued := s.issued ++ [r] }

/-- A channel hands over a request only in a step that began with none outstanding or with its response captured, and
one request at most (20_memory.md R75). -/
def Obligations.RequestsAreSequential : Prop :=
  ∀ (c : ChannelId) (s t : State), step s = .next t →
    (t.issued.filter (fun r => r.chan = c)).length ≤ 1 ∧
    ∀ r ∈ t.issued, r.chan = c →
      ((s.chan c).out = none ∨ (s.chan c).ready ≠ none) ∧ t.port c = some ⟨r, none⟩ ∧
        (t.chan c).out = some ⟨r.addr, r.n, false⟩

/-- R131: a pushed byte is staged last if a transfer is current and fewer than four bytes are staged, else it is
dropped and nothing changes. -/
def Obligations.PushStagesOrDrops : Prop :=
  ∀ (c : Channel) (b : Byte),
    (c.cur ≠ none → c.stage.length < 4 → c.push b = { c with stage := c.stage ++ [b] }) ∧
    (c.cur = none ∨ 4 ≤ c.stage.length → c.push b = c)

/-- The answer to a read (20_memory.md R66, R77, R83; 41_channel.md R123). It brings `n` bytes, which wait for service in
the next step, and leaves memory as it was. They are the bytes memory holds at the request's addresses, lowest address
first and modulo 2^32, if the port performs the read now; those it read if it performed it before; any bytes if it
answers with an error status. -/
def Obligations.ReadAnswerBringsMemory : Prop :=
  ∀ (s : State) (e : PortEntry) (o : OutRequest), s.Inv →
    s.nextInput.rst = false → s.portTx = some e → s.tx.out = some o →
    (s.nextInput.mem = [.answer .tx] ∨ ∃ data, s.nextInput.mem = [.answerError .tx data]) →
    ∃ t bytes, step s = .next t ∧ t.tx.ready = some bytes ∧ bytes.length = o.n ∧ t.tx.evt = false ∧ t.portTx = none ∧
      (∀ a, Memory.read t.mem a = Memory.read s.mem a) ∧
      (s.nextInput.mem = [.answer .tx] → e.performed = none →
        ∀ i < o.n, bytes[i]? = some (Memory.read s.mem (o.addr + BitVec.ofNat 32 i).toNat)) ∧
      (s.nextInput.mem = [.answer .tx] → ∀ early, e.performed = some early → bytes = early) ∧
      (∀ data, s.nextInput.mem = [.answerError .tx data] → data.length = o.n → bytes = data)

/-- The answer to a write, with or without an error status (20_memory.md R66, R78, R83, R84). If the port has not
performed the write before and it is not discarded, its bytes are in memory at the request's addresses, lowest address
first and modulo 2^32, and every other byte is as it was; if the port has performed it before, or it is discarded and
the port has left it unperformed (log entry 7), memory is as it was. In each case the response waits for service, but at
a reset step. That the write lands when it is answered at a reset step is the model's choice (log entry 22). -/
def Obligations.WriteAnswerLandsInMemory : Prop :=
  ∀ (s : State) (e : PortEntry) (bytes : List Byte) (o : OutRequest), s.Inv →
    (s.nextInput.mem = [.answer .rx] ∨ ∃ data, s.nextInput.mem = [.answerError .rx data]) →
    s.portRx = some e → e.req.op = .write bytes → s.rx.out = some o →
    ∃ t, step s = .next t ∧ t.portRx = none ∧ (s.nextInput.rst = false → t.rx.ready = some []) ∧
      (e.performed = none → o.discard = false →
        (∀ i, ∀ h : i < bytes.length, Memory.read t.mem (o.addr + BitVec.ofNat 32 i).toNat = bytes[i]) ∧
        ∀ a, (∀ i < bytes.length, (o.addr + BitVec.ofNat 32 i).toNat ≠ a) →
          Memory.read t.mem a = Memory.read s.mem a) ∧
      (e.performed ≠ none ∨ o.discard = true → ∀ a, Memory.read t.mem a = Memory.read s.mem a)

/-- The port performs a request before it answers it, once: a read keeps the bytes memory holds at that instant for its
answer, a write stores its bytes, discarded or not, and a request performed before is left alone; no response arrives
(20_memory.md R66, R77, R78, R84). -/
def Obligations.RequestPerformedOnce : Prop :=
  ∀ (c : ChannelId) (s : State) (e : PortEntry) (o : OutRequest), s.Inv →
    s.nextInput.mem = [.perform c] → s.port c = some e → (s.chan c).out = some o →
    ∃ t, step s = .next t ∧ (t.chan c).ready = none ∧
      (e.performed ≠ none → t.port c = some e ∧ ∀ a, Memory.read t.mem a = Memory.read s.mem a) ∧
      (e.performed = none → e.req.op = .read →
        (∃ bytes, t.port c = some { e with performed := some bytes } ∧ bytes.length = o.n ∧
          ∀ i < o.n, bytes[i]? = some (Memory.read s.mem (o.addr + BitVec.ofNat 32 i).toNat)) ∧
        ∀ a, Memory.read t.mem a = Memory.read s.mem a) ∧
      (∀ bytes, e.performed = none → e.req.op = .write bytes →
        t.port c = some { e with performed := some [] } ∧
        (∀ i, ∀ h : i < bytes.length, Memory.read t.mem (o.addr + BitVec.ofNat 32 i).toNat = bytes[i]) ∧
        ∀ a, (∀ i < bytes.length, (o.addr + BitVec.ofNat 32 i).toNat ≠ a) →
          Memory.read t.mem a = Memory.read s.mem a)

/-- Whatever the port and the other agents do in a step: if the response to a write that is not discarded arrives in it,
then at one instant of the step, or before it, the port has stored the write's bytes, whatever the status of the
response (20_memory.md R78, R79, R83). At a reset step this is the model's choice (log entry 22). -/
def Obligations.AnsweredWriteIsPerformed : Prop :=
  ∀ (s : State) (r : MemRequest) (bytes : List Byte) (o : OutRequest),
    s.portRx = some ⟨r, none⟩ → r.op = .write bytes → s.rx.out = some o → o.discard = false →
    s.responseArrives .rx = true →
    ∃ t before now later, step s = .next t ∧ s.nextInput.mem = before ++ now :: later ∧
      (now = .perform .rx ∨ now = .answer .rx ∨ ∃ data, now = .answerError .rx data) ∧
      (s.begin.memEvents (before ++ [now])).1.mem =
        Memory.writeBytes (s.begin.memEvents before).1.mem r.addr bytes ∧
      t.mem = (s.begin.memEvents s.nextInput.mem).1.mem

/-- A step in which neither the port nor another agent acts leaves every byte of memory as it was (20_memory.md R77,
R78: only the port and other agents touch memory). -/
def Obligations.MemoryChangesOnlyThroughPort : Prop :=
  ∀ s t : State, step s = .next t → s.nextInput.mem = [] → ∀ a, Memory.read t.mem a = Memory.read s.mem a

/-- Two memories in canonical form that read the same at every address are equal (the model's form of memory, log
entry 4). -/
def Obligations.CanonicalMemoriesAreEqual : Prop :=
  ∀ m m' : Memory, Memory.wf m = true → Memory.wf m' = true → (∀ a, Memory.read m a = Memory.read m' a) → m = m'

/-! ### The transmitter -/

/-- R141 to R146: what an enabled step does when the line is idle, within a bit, and at the end of each bit; a bit that
starts lasts `clkdiv + 1` steps. The parity bit is `pbit` (R147), 1 for even parity exactly when the number of ones is
odd. At a step with `cg = 0` that is no reset step the whole transmitter keeps its value. -/
def Obligations.TransmitterSteps : Prop :=
  (∀ s t : State, step s = .next t → s.nextInput.rst = false → s.nextInput.cg = false → t.txFsm = s.txFsm) ∧
  ∀ (u : Setup) (f : TxFsm) (stage : List Byte) (b : Byte),
    let next (g : TxFsm) : TxFsm := { g with cnt := u.clkdiv }
    let load := next { f with shift := b, state := .start, line := false }
    (f.state = .idle → f.step u (b :: stage) = (load, stage) ∧ f.step u [] = (f, [])) ∧
    (f.state ≠ .idle → f.cnt ≠ 0#16 →
      f.step u stage = ({ f with cnt := BitVec.ofNat 16 (f.cnt.toNat - 1) }, stage)) ∧
    (f.state = .start → f.cnt = 0#16 →
      f.step u stage = (next { f with state := .data, bit := 0, line := f.shift.getLsbD 0 }, stage)) ∧
    (f.state = .data → f.cnt = 0#16 → ∀ h : f.bit.val < 7,
      f.step u stage = (next { f with bit := ⟨f.bit.val + 1, by omega⟩, line := f.shift.getLsbD (f.bit.val + 1) }, stage)) ∧
    (f.state = .data → f.cnt = 0#16 → f.bit.val = 7 → u.parity = .noParity →
      f.step u stage = (next { f with state := .stop, stop := 0, line := true }, stage)) ∧
    (f.state = .data → f.cnt = 0#16 → f.bit.val = 7 → u.parity ≠ .noParity →
      f.step u stage = (next { f with
        state := .parity
        line := decide (((List.range 8).countP fun i => f.shift.getLsbD i) % 2 = (if u.parity = .even then 1 else 0)) },
        stage)) ∧
    (f.state = .parity → f.cnt = 0#16 →
      f.step u stage = (next { f with state := .stop, stop := 0, line := true }, stage)) ∧
    (f.state = .stop → f.cnt = 0#16 → f.stop = 0 → u.stop2 = true →
      f.step u stage = (next { f with stop := 1, line := true }, stage)) ∧
    (f.state = .stop → f.cnt = 0#16 → f.stop = 1 ∨ u.stop2 = false →
      f.step u (b :: stage) = (load, stage) ∧ f.step u [] = ({ f with state := .idle, line := true }, []))

/-- R147: with even parity the data bits and the parity bit hold an even number of ones, with odd parity an odd
number. -/
def Obligations.ParityBitCountsOnes : Prop :=
  ∀ b : Byte,
    ((List.range 8).countP (fun i => b.getLsbD i) + (parityBit b .even).toNat) % 2 = 0 ∧
    ((List.range 8).countP (fun i => b.getLsbD i) + (parityBit b .odd).toNat) % 2 = 1

/-- The frame of a byte on the line: from the step its start bit began, over any steps that reset nothing and write no
SETUP, `tx_out` is the level of R148 for the number of enabled steps passed, gated steps not counted (42_uart_tx.md
R148, R149). -/
def Obligations.FrameOnTheLine : Prop :=
  ∀ (s : State) (b : Byte) (ins later : List StepInput),
    s.txFsm.state = .start → s.txFsm.shift = b → s.txFsm.line = false → s.txFsm.cnt = s.setup.clkdiv →
    s.inputs = ins ++ later → (∀ i ∈ ins, keepsSetup i) →
    ins.countP (fun i => i.cg) < frameLength s.setup b →
    ∃ t, runSteps ins.length s = .next t ∧ t.txFsm.state ≠ .idle ∧
      t.txOut = frameLevel s.setup b (ins.countP fun i => i.cg)

/-- A frame lasts `(10 + P + S) * B` enabled steps: at the step that completes them the line goes idle at 1 or the
next frame's start bit begins (42_uart_tx.md R148, R149). -/
def Obligations.FrameLastsItsLength : Prop :=
  ∀ (s : State) (b : Byte) (ins later : List StepInput) (last : StepInput),
    s.txFsm.state = .start → s.txFsm.shift = b → s.txFsm.line = false → s.txFsm.cnt = s.setup.clkdiv →
    s.inputs = ins ++ last :: later → (∀ i ∈ ins ++ [last], keepsSetup i) →
    last.cg = true → ins.countP (fun i => i.cg) + 1 = frameLength s.setup b →
    frameLength s.setup b =
      (10 + (if s.setup.parity = .noParity then 0 else 1) + (if s.setup.stop2 then 1 else 0)) * s.setup.bitTime ∧
    ∃ t, runSteps (ins.length + 1) s = .next t ∧
      ((t.txFsm.state = .idle ∧ t.txOut = true) ∨
        (t.txFsm.state = .start ∧ t.txOut = false ∧ t.txFsm.cnt = s.setup.clkdiv))

/-- The transmitter keeps its place in a frame: a step that resets nothing and writes no SETUP leaves it where it is in
the frame of `b` if the clock is gated, takes it one enabled step further if the clock runs, and from the frame's last
step takes it to the first step of the frame of the byte staged first, or to idle at 1 if none is staged
(42_uart_tx.md R140 to R149). -/
def Obligations.TransmitterKeepsItsPlace : Prop :=
  ∀ (s t : State) (b : Byte) (k : Nat),
    keepsSetup s.nextInput → s.txFsm.AtFrame s.setup b k → step s = .next t →
    (s.nextInput.cg = false → t.txFsm.AtFrame t.setup b k) ∧
    (s.nextInput.cg = true → k + 1 < frameLength s.setup b → t.txFsm.AtFrame t.setup b (k + 1)) ∧
    (s.nextInput.cg = true → k + 1 = frameLength s.setup b →
      (∀ b' rest, s.accessed.tx.stage = b' :: rest → t.txFsm.AtFrame t.setup b' 0) ∧
      (s.accessed.tx.stage = [] → t.txFsm.state = .idle ∧ t.txOut = true))

/-! ### The receiver -/

/-- R156, R157: an enabled step in WAIT_START begins a frame exactly at a falling edge, the first sample `B + H - 1`
steps after the next; otherwise only `rx_prev` takes the level. Nothing is pushed. -/
def Obligations.FallingEdgeStartsReception : Prop :=
  ∀ (u : Setup) (f : RxFsm) (v : Bool), f.state = .waitStart →
    (f.prev = true ∧ v = false → ∃ cnt : BitVec 17,
      cnt.toNat = (u.clkdiv.toNat + 1) + (u.clkdiv.toNat + 1) / 2 - 1 ∧
      f.step u v = ({ f with state := .data, bit := 0, cnt := cnt, prev := v }, none)) ∧
    (¬(f.prev = true ∧ v = false) → f.step u v = ({ f with prev := v }, none))

/-- R158 to R161: what an enabled step does while a frame is received: it counts down to the sample; a data sample
takes its bit; the eighth pushes the byte or awaits its parity bit; a parity sample pushes the byte if the bit is right
or parity has been switched off; a stop sample, 1 or 0, ends the frame and pushes nothing. -/
def Obligations.ReceiverSamples : Prop :=
  ∀ (u : Setup) (f : RxFsm) (v : Bool) (shift : Byte),
    (∀ j < 8, shift.getLsbD j = if j = f.bit.val then v else f.shift.getLsbD j) →
    ∀ cnt : BitVec 17, cnt.toNat = u.clkdiv.toNat →
    (f.state ≠ .waitStart → f.cnt ≠ 0#17 →
      f.step u v = ({ f with cnt := BitVec.ofNat 17 (f.cnt.toNat - 1), prev := v }, none)) ∧
    (f.state = .data → f.cnt = 0#17 → ∀ h : f.bit.val < 7,
      f.step u v = ({ f with shift := shift, bit := ⟨f.bit.val + 1, by omega⟩, cnt := cnt, prev := v }, none)) ∧
    (f.state = .data → f.cnt = 0#17 → f.bit.val = 7 → u.parity = .noParity →
      f.step u v = ({ f with shift := shift, state := .waitStop, cnt := cnt, prev := v }, some shift)) ∧
    (f.state = .data → f.cnt = 0#17 → f.bit.val = 7 → u.parity ≠ .noParity →
      f.step u v = ({ f with shift := shift, state := .parity, cnt := cnt, prev := v }, none)) ∧
    (f.state = .parity → f.cnt = 0#17 →
      f.step u v = ({ f with state := .waitStop, cnt := cnt, prev := v },
        if u.parity = .noParity ∨ v = parityBit f.shift u.parity then some f.shift else none)) ∧
    (f.state = .waitStop → f.cnt = 0#17 →
      f.step u v = ({ f with state := .waitStart, prev := v }, none))

/-- The sample schedule: over the levels of the enabled steps from a start edge to the stop sample, data bit `i` is the
level `B + H + i * B` steps after the edge; the byte is pushed once, unless its parity sample, `9 * B + H` steps after
the edge, is wrong; and the receiver waits for the next edge (43_uart_rx.md R163). -/
def Obligations.FrameReceivedAtMidBit : Prop :=
  ∀ (u : Setup) (f : RxFsm) (levels : List Bool) (b : Byte),
    f.state = .waitStart → f.prev = true → levels.length = receptionLength u b → levels[0]? = some false →
    (∀ i < 8, levels[u.bitTime + u.halfBit + i * u.bitTime]? = some (b.getLsbD i)) →
    (f.run u levels).1.state = .waitStart ∧ (f.run u levels).1.shift = b ∧
    (f.run u levels).2 =
      if u.parity = .noParity ∨ levels[9 * u.bitTime + u.halfBit]? = some (parityBit b u.parity) then [b] else []

/-- A frame sent by the transmitter is received as the byte that was sent, by a receiver with the same configuration
that listens to its line from an idle level on (43_uart_rx.md R168). -/
def Obligations.FrameRoundTrip : Prop :=
  ∀ (u : Setup) (f : TxFsm) (g : RxFsm) (b : Byte) (n : Nat),
    f.state = .idle → g.state = .waitStart → g.prev = true → receptionLength u b ≤ n →
    (g.run u (f.lines u n [b])).2 = [b] ∧ (g.run u (f.lines u n [b])).1.state = .waitStart

/-- Over steps that reset nothing and write no SETUP the receiver sees the levels of the enabled steps and no others
(43_uart_rx.md R155, R167). -/
def Obligations.ReceiverFollowsEnabledSteps : Prop :=
  ∀ (s : State) (ins later : List StepInput), s.inputs = ins ++ later → (∀ i ∈ ins, keepsSetup i) →
    ∃ t, runSteps ins.length s = .next t ∧
      t.rxFsm = (s.rxFsm.run s.setup ((ins.filter fun i => i.cg).map fun i => i.rxIn)).1

/-- A byte the receiver delivers in a step, by its last data sample or by its parity sample, goes through PUSH: it is
staged last if a transfer is current and fewer than four bytes are staged, else it is dropped. The bytes of the request
the step issues leave the stage from its front, and nothing else changes the stage after the register access
(41_channel.md R122, R131; 43_uart_rx.md R159, R160). -/
def Obligations.ReceivedByteIsStaged : Prop :=
  ∀ s t : State, s.nextInput.rst = false → step s = .next t →
    let m := s.accessed
    let i := s.nextInput
    let sent := rxBytesOf t.issued
    (∀ b, i.cg = true → (s.rxFsm.step m.setup i.rxIn).2 = some b → m.rx.cur ≠ none → m.rx.stage.length < 4 →
      sent ++ t.rx.stage = m.rx.stage ++ [b]) ∧
    (i.cg = true → s.rxFsm.state = .parity → s.rxFsm.cnt = 0#17 →
      m.setup.parity = .noParity ∨ i.rxIn = parityBit s.rxFsm.shift m.setup.parity →
      m.rx.cur ≠ none → m.rx.stage.length < 4 → sent ++ t.rx.stage = m.rx.stage ++ [s.rxFsm.shift]) ∧
    (i.cg = false ∨ (s.rxFsm.step m.setup i.rxIn).2 = none ∨ m.rx.cur = none ∨ 4 ≤ m.rx.stage.length →
      sent ++ t.rx.stage = m.rx.stage)

/-! ### The clock gate and reset -/

/-- The clock gate stops both FSMs and nothing else (60_exceptions.md R184). From the same state `m`, which the first
phases and the register access leave, a gated step that is no reset step goes on to the issue of both channels, and the
step with the clock running does the same after one step of each FSM. So the gated step holds both FSMs, and it answers
the bus, changes the registers, the queues and memory and pulses the events just as the running one. -/
def Obligations.GateStopsOnlyTheFsms : Prop :=
  ∀ (s : State) (i : StepInput) (later : List StepInput), i.rst = false →
    let m := ({ s with inputs := i :: later } : State).accessed
    let t := (m.issue .rx).issue .tx
    let t' := ((m.txStep.rxStep i.rxIn).issue .rx).issue .tx
    step { s with inputs := { i with cg := false } :: later } = .next t ∧
      step { s with inputs := { i with cg := true } :: later } = .next t' ∧
      t.txFsm = s.txFsm ∧ t.rxFsm = s.rxFsm ∧
      t.busResp = t'.busResp ∧ t.setup = t'.setup ∧ t.mem = t'.mem ∧
      ∀ c, (t.chan c).saddr = (t'.chan c).saddr ∧ (t.chan c).size = (t'.chan c).size ∧
        (t.chan c).cont = (t'.chan c).cont ∧ (t.chan c).ds = (t'.chan c).ds ∧ (t.chan c).en = (t'.chan c).en ∧
        (t.chan c).cur = (t'.chan c).cur ∧ (t.chan c).pend = (t'.chan c).pend ∧
        (t.chan c).ready = (t'.chan c).ready ∧ (t.chan c).evt = (t'.chan c).evt

/-- R190, with the values of R48: a reset step leaves every element of the block at its reset value, an outstanding
request kept to be discarded unless its response is captured or arrives; nothing is issued, the line is at 1, no event
pulses, and an access presented is answered INVALID. -/
def Obligations.ResetStepState : Prop :=
  ∀ s : State, s.nextInput.rst = true →
    ∃ t, step s = .next t ∧
      (∀ c, (t.chan c).saddr = 0#32 ∧ (t.chan c).size = 0#20 ∧ (t.chan c).cont = false ∧ (t.chan c).ds = .one ∧
        (t.chan c).en = false ∧ (t.chan c).cur = none ∧ (t.chan c).pend = [] ∧ (t.chan c).stage = [] ∧
        (t.chan c).ready = none ∧ (t.chan c).evt = false ∧
        ((s.chan c).ready ≠ none ∨ s.responseArrives c = true → (t.chan c).out = none) ∧
        ((s.chan c).ready = none → s.responseArrives c = false →
          (t.chan c).out = (s.chan c).out.map fun o => { o with discard := true })) ∧
      t.setup = ⟨.noParity, false, 0#16⟩ ∧
      t.txFsm = ⟨.idle, 0#8, 0, 0, 0#16, true⟩ ∧
      t.rxFsm = ⟨.waitStart, 0#8, 0, 0#17, true⟩ ∧
      t.issued = [] ∧ t.txOut = true ∧
      (s.nextInput.req ≠ none → t.busResp = some .invalid) ∧
      (s.nextInput.req = none → t.busResp = none)

/-- After a reset step every register reads 0 (10_state.md section 8). -/
def Obligations.RegistersReadZeroAfterReset : Prop :=
  ∀ s t : State, s.nextInput.rst = true → step s = .next t →
    ∀ reg : Reg, exec reg.readAccess t = .next { t with busResp := some (.okRead 0#32) }

/-- A second reset step in a row, with the memory port and the bus silent, leaves the block as the first left it
(70_reset_and_hazards.md R192; log entry 19). -/
def Obligations.ResetTwiceLeavesTheSame : Prop :=
  ∀ (s t : State) (i j : StepInput) (later : List StepInput), s.inputs = i :: j :: later →
    i.rst = true → j.rst = true → j.mem = [] → j.req = none → runSteps 1 s = .next t →
    runSteps 2 s = .next { t with busResp := none, inputs := later, clock := t.clock + 1 }

/-! ### The whole block -/

/-- Every step keeps `State.Inv`, in every state that has it: the queues and the descriptors (10_state.md R28 to R32;
41_channel.md R120, R125, R128, R129, R133, R134), the stages and the requests out (41_channel.md R121 to R123, R127,
R131), the request each port entry holds (10_state.md R24; 20_memory.md R77, R78), the level of the line
(42_uart_tx.md R142 to R146), the bound of `rx_cnt` (43_uart_rx.md R157; 60_exceptions.md R181). Its clause on memory,
the canonical form, is no rule of the spec but the model's choice (log entry 4). -/
def Obligations.StepKeepsInvariant : Prop :=
  ∀ s t : State, s.Inv → step s = .next t → t.Inv

/-- The machine right after reset meets the invariant (10_state.md R48; its environment fields and the form of memory are
the model's choices, log entries 9 and 4). -/
def Obligations.ResetMeetsInvariant : Prop := State.reset.Inv

/-- A quiescent block with the line at 1, no access and no reset stays as it is, but for `rx_prev` and the fall of an
event pulse of the step before, and drives 1 (70_reset_and_hazards.md R205; log entry 15). -/
def Obligations.QuiescentBlockStays : Prop :=
  ∀ s : State, s.Inv → s.Quiescent → s.nextInput.rst = false → s.nextInput.req = none → s.nextInput.rxIn = true →
    ∃ t, step s = .next t ∧ t.Quiescent ∧ t.rx = { s.rx with evt := false } ∧ t.tx = { s.tx with evt := false } ∧
      t.setup = s.setup ∧ t.txFsm = s.txFsm ∧
      t.rxFsm = { s.rxFsm with prev := s.rxFsm.prev || s.nextInput.cg } ∧
      t.issued = [] ∧ t.portRx = s.portRx ∧ t.portTx = s.portTx ∧ t.txOut = true

/-- The transmit side does not depend on the receive side: two states that agree on the transmit side, the
configuration, memory and the step's input, in which the port neither performs nor answers an RX request, agree on
them after the step (10_state.md R61). -/
def Obligations.TransmitSideIgnoresReceiveSide : Prop :=
  ∀ s s' t t' : State, s.nextInput = s'.nextInput → s.tx = s'.tx → s.txFsm = s'.txFsm → s.setup = s'.setup →
    s.portTx = s'.portTx → s.mem = s'.mem →
    (∀ e ∈ s.nextInput.mem, e ≠ .perform .rx ∧ e ≠ .answer .rx ∧ ∀ data, e ≠ .answerError .rx data) →
    step s = .next t → step s' = .next t' →
    t.tx = t'.tx ∧ t.txFsm = t'.txFsm ∧ t.setup = t'.setup ∧ t.portTx = t'.portTx ∧ t.mem = t'.mem

/-- The receive side does not depend on the transmit side nor on memory: two states that agree on the receive side,
the configuration and the step's input agree on them after the step (10_state.md R61). -/
def Obligations.ReceiveSideIgnoresTransmitSide : Prop :=
  ∀ s s' t t' : State, s.nextInput = s'.nextInput → s.rx = s'.rx → s.rxFsm = s'.rxFsm → s.setup = s'.setup →
    s.portRx = s'.portRx → (∀ e, s.portRx = some e → ∃ bytes, e.req.op = .write bytes) →
    step s = .next t → step s' = .next t' →
    t.rx = t'.rx ∧ t.rxFsm = t'.rxFsm ∧ t.setup = t'.setup ∧ t.portRx = t'.portRx

/-- A transfer armed on an idle, enabled TX channel whose first read is answered `L` steps later puts the start bit of
the byte at its start address on the line at `L + 1` steps after the arming write (70_reset_and_hazards.md R204). -/
def Obligations.ArmedTransferStartsSending : Prop :=
  ∀ (s : State) (w : Word) (r : BusRequest) (arm ans last : StepInput) (waits later : List StepInput),
    s.Inv → s.tx.cur = none → s.tx.out = none → s.tx.stage = [] → s.tx.en = true → s.txFsm.state = .idle →
    s.inputs = arm :: (waits ++ ans :: last :: later) →
    arm.rst = false → arm.mem = [] → arm.req = some r → decodeRequest r = .wrTxSize w → w.toNat % 2 ^ 20 ≠ 0 →
    (∀ i ∈ waits, calm [] i) → calm [.answer .tx] ans → calm [] last → last.cg = true →
    ∃ t, runSteps (waits.length + 3) s = .next t ∧ t.txFsm.state = .start ∧ t.txOut = false ∧
      t.txFsm.shift = Memory.read s.mem s.tx.saddr.toNat

/-- The last unit of an RX pass is in memory, lowest address first, when `evt_rx` pulses, and every other byte of memory
is as it was: the receiver pushes the unit's last byte `b`, by the last data sample without parity or by the parity
sample, the write of the unit is answered `L` steps later, and the event pulses `L + 1` steps after the push
(70_reset_and_hazards.md R204; 20_memory.md R79). -/
def Obligations.ReceivedByteReachesMemory : Prop :=
  ∀ (s : State) (d : Descriptor) (b : Byte) (push ans last : StepInput) (waits later : List StepInput),
    s.Inv → s.rx.cur = some d → s.rx.out = none →
    s.rx.stage.length + 1 = d.remainingSize → d.remainingSize ≤ d.unitSize.bytes → s.rxFsm.cnt = 0#17 →
    (s.rxFsm.state = .data ∧ s.rxFsm.bit.val = 7 ∧ s.setup.parity = .noParity ∧
        (∀ j < 8, b.getLsbD j = if j = 7 then push.rxIn else s.rxFsm.shift.getLsbD j) ∨
      s.rxFsm.state = .parity ∧ s.rxFsm.shift = b ∧
        (s.setup.parity = .noParity ∨ push.rxIn = parityBit b s.setup.parity)) →
    s.inputs = push :: (waits ++ ans :: last :: later) → calm [] push → push.cg = true →
    (∀ i ∈ waits, calm [] i) → calm [.answer .rx] ans → calm [] last →
    ∃ t, runSteps (waits.length + 3) s = .next t ∧ t.rx.evt = true ∧
      (∀ i < d.remainingSize,
        (s.rx.stage ++ [b])[i]? = some (Memory.read t.mem (d.currentAddress + BitVec.ofNat 32 i).toNat)) ∧
      ∀ a, (∀ i < d.remainingSize, (d.currentAddress + BitVec.ofNat 32 i).toNat ≠ a) →
        Memory.read t.mem a = Memory.read s.mem a
end

