-- ==== Sys2Proof/Laws/State.lean ====
section
/-! SUPPORT. The small lemmas of the state's updates: what each update leaves and changes, one lemma per field. -/

namespace Sys2Proof.Machine

open Sys2Proof

/-! ### respond -/

@[simp] theorem State.respond_rx (s : State) (r : BusResponse) : (s.respond r).rx = s.rx := rfl
@[simp] theorem State.respond_tx (s : State) (r : BusResponse) : (s.respond r).tx = s.tx := rfl
@[simp] theorem State.respond_setup (s : State) (r : BusResponse) : (s.respond r).setup = s.setup := rfl
@[simp] theorem State.respond_txFsm (s : State) (r : BusResponse) : (s.respond r).txFsm = s.txFsm := rfl
@[simp] theorem State.respond_rxFsm (s : State) (r : BusResponse) : (s.respond r).rxFsm = s.rxFsm := rfl
@[simp] theorem State.respond_busResp (s : State) (r : BusResponse) : (s.respond r).busResp = some r := rfl
@[simp] theorem State.respond_issued (s : State) (r : BusResponse) : (s.respond r).issued = s.issued := rfl
@[simp] theorem State.respond_mem (s : State) (r : BusResponse) : (s.respond r).mem = s.mem := rfl
@[simp] theorem State.respond_portRx (s : State) (r : BusResponse) : (s.respond r).portRx = s.portRx := rfl
@[simp] theorem State.respond_portTx (s : State) (r : BusResponse) : (s.respond r).portTx = s.portTx := rfl
@[simp] theorem State.respond_inputs (s : State) (r : BusResponse) : (s.respond r).inputs = s.inputs := rfl
@[simp] theorem State.respond_clock (s : State) (r : BusResponse) : (s.respond r).clock = s.clock := rfl
@[simp] theorem State.respond_chan (s : State) (r : BusResponse) (c : ChannelId) : (s.respond r).chan c = s.chan c := by
  cases c <;> rfl
@[simp] theorem State.respond_port (s : State) (r : BusResponse) (c : ChannelId) : (s.respond r).port c = s.port c := by
  cases c <;> rfl

/-! ### setMem -/

@[simp] theorem State.setMem_rx (s : State) (m : Memory) : (s.setMem m).rx = s.rx := rfl
@[simp] theorem State.setMem_tx (s : State) (m : Memory) : (s.setMem m).tx = s.tx := rfl
@[simp] theorem State.setMem_setup (s : State) (m : Memory) : (s.setMem m).setup = s.setup := rfl
@[simp] theorem State.setMem_txFsm (s : State) (m : Memory) : (s.setMem m).txFsm = s.txFsm := rfl
@[simp] theorem State.setMem_rxFsm (s : State) (m : Memory) : (s.setMem m).rxFsm = s.rxFsm := rfl
@[simp] theorem State.setMem_busResp (s : State) (m : Memory) : (s.setMem m).busResp = s.busResp := rfl
@[simp] theorem State.setMem_issued (s : State) (m : Memory) : (s.setMem m).issued = s.issued := rfl
@[simp] theorem State.setMem_mem (s : State) (m : Memory) : (s.setMem m).mem = m := rfl
@[simp] theorem State.setMem_portRx (s : State) (m : Memory) : (s.setMem m).portRx = s.portRx := rfl
@[simp] theorem State.setMem_portTx (s : State) (m : Memory) : (s.setMem m).portTx = s.portTx := rfl
@[simp] theorem State.setMem_inputs (s : State) (m : Memory) : (s.setMem m).inputs = s.inputs := rfl
@[simp] theorem State.setMem_clock (s : State) (m : Memory) : (s.setMem m).clock = s.clock := rfl
@[simp] theorem State.setMem_chan (s : State) (m : Memory) (c : ChannelId) : (s.setMem m).chan c = s.chan c := by
  cases c <;> rfl
@[simp] theorem State.setMem_port (s : State) (m : Memory) (c : ChannelId) : (s.setMem m).port c = s.port c := by
  cases c <;> rfl

/-! ### setSetup -/

@[simp] theorem State.setSetup_rx (s : State) (u : Setup) : (s.setSetup u).rx = s.rx := rfl
@[simp] theorem State.setSetup_tx (s : State) (u : Setup) : (s.setSetup u).tx = s.tx := rfl
@[simp] theorem State.setSetup_setup (s : State) (u : Setup) : (s.setSetup u).setup = u := rfl
@[simp] theorem State.setSetup_txFsm (s : State) (u : Setup) : (s.setSetup u).txFsm = s.txFsm := rfl
@[simp] theorem State.setSetup_rxFsm (s : State) (u : Setup) : (s.setSetup u).rxFsm = s.rxFsm := rfl
@[simp] theorem State.setSetup_busResp (s : State) (u : Setup) : (s.setSetup u).busResp = s.busResp := rfl
@[simp] theorem State.setSetup_issued (s : State) (u : Setup) : (s.setSetup u).issued = s.issued := rfl
@[simp] theorem State.setSetup_mem (s : State) (u : Setup) : (s.setSetup u).mem = s.mem := rfl
@[simp] theorem State.setSetup_portRx (s : State) (u : Setup) : (s.setSetup u).portRx = s.portRx := rfl
@[simp] theorem State.setSetup_portTx (s : State) (u : Setup) : (s.setSetup u).portTx = s.portTx := rfl
@[simp] theorem State.setSetup_inputs (s : State) (u : Setup) : (s.setSetup u).inputs = s.inputs := rfl
@[simp] theorem State.setSetup_clock (s : State) (u : Setup) : (s.setSetup u).clock = s.clock := rfl
@[simp] theorem State.setSetup_chan (s : State) (u : Setup) (c : ChannelId) : (s.setSetup u).chan c = s.chan c := by
  cases c <;> rfl
@[simp] theorem State.setSetup_port (s : State) (u : Setup) (c : ChannelId) : (s.setSetup u).port c = s.port c := by
  cases c <;> rfl

/-! ### setTxFsm -/

@[simp] theorem State.setTxFsm_rx (s : State) (f : TxFsm) : (s.setTxFsm f).rx = s.rx := rfl
@[simp] theorem State.setTxFsm_tx (s : State) (f : TxFsm) : (s.setTxFsm f).tx = s.tx := rfl
@[simp] theorem State.setTxFsm_setup (s : State) (f : TxFsm) : (s.setTxFsm f).setup = s.setup := rfl
@[simp] theorem State.setTxFsm_txFsm (s : State) (f : TxFsm) : (s.setTxFsm f).txFsm = f := rfl
@[simp] theorem State.setTxFsm_rxFsm (s : State) (f : TxFsm) : (s.setTxFsm f).rxFsm = s.rxFsm := rfl
@[simp] theorem State.setTxFsm_busResp (s : State) (f : TxFsm) : (s.setTxFsm f).busResp = s.busResp := rfl
@[simp] theorem State.setTxFsm_issued (s : State) (f : TxFsm) : (s.setTxFsm f).issued = s.issued := rfl
@[simp] theorem State.setTxFsm_mem (s : State) (f : TxFsm) : (s.setTxFsm f).mem = s.mem := rfl
@[simp] theorem State.setTxFsm_portRx (s : State) (f : TxFsm) : (s.setTxFsm f).portRx = s.portRx := rfl
@[simp] theorem State.setTxFsm_portTx (s : State) (f : TxFsm) : (s.setTxFsm f).portTx = s.portTx := rfl
@[simp] theorem State.setTxFsm_inputs (s : State) (f : TxFsm) : (s.setTxFsm f).inputs = s.inputs := rfl
@[simp] theorem State.setTxFsm_clock (s : State) (f : TxFsm) : (s.setTxFsm f).clock = s.clock := rfl
@[simp] theorem State.setTxFsm_chan (s : State) (f : TxFsm) (c : ChannelId) : (s.setTxFsm f).chan c = s.chan c := by
  cases c <;> rfl
@[simp] theorem State.setTxFsm_port (s : State) (f : TxFsm) (c : ChannelId) : (s.setTxFsm f).port c = s.port c := by
  cases c <;> rfl

/-! ### setRxFsm -/

@[simp] theorem State.setRxFsm_rx (s : State) (f : RxFsm) : (s.setRxFsm f).rx = s.rx := rfl
@[simp] theorem State.setRxFsm_tx (s : State) (f : RxFsm) : (s.setRxFsm f).tx = s.tx := rfl
@[simp] theorem State.setRxFsm_setup (s : State) (f : RxFsm) : (s.setRxFsm f).setup = s.setup := rfl
@[simp] theorem State.setRxFsm_txFsm (s : State) (f : RxFsm) : (s.setRxFsm f).txFsm = s.txFsm := rfl
@[simp] theorem State.setRxFsm_rxFsm (s : State) (f : RxFsm) : (s.setRxFsm f).rxFsm = f := rfl
@[simp] theorem State.setRxFsm_busResp (s : State) (f : RxFsm) : (s.setRxFsm f).busResp = s.busResp := rfl
@[simp] theorem State.setRxFsm_issued (s : State) (f : RxFsm) : (s.setRxFsm f).issued = s.issued := rfl
@[simp] theorem State.setRxFsm_mem (s : State) (f : RxFsm) : (s.setRxFsm f).mem = s.mem := rfl
@[simp] theorem State.setRxFsm_portRx (s : State) (f : RxFsm) : (s.setRxFsm f).portRx = s.portRx := rfl
@[simp] theorem State.setRxFsm_portTx (s : State) (f : RxFsm) : (s.setRxFsm f).portTx = s.portTx := rfl
@[simp] theorem State.setRxFsm_inputs (s : State) (f : RxFsm) : (s.setRxFsm f).inputs = s.inputs := rfl
@[simp] theorem State.setRxFsm_clock (s : State) (f : RxFsm) : (s.setRxFsm f).clock = s.clock := rfl
@[simp] theorem State.setRxFsm_chan (s : State) (f : RxFsm) (c : ChannelId) : (s.setRxFsm f).chan c = s.chan c := by
  cases c <;> rfl
@[simp] theorem State.setRxFsm_port (s : State) (f : RxFsm) (c : ChannelId) : (s.setRxFsm f).port c = s.port c := by
  cases c <;> rfl

/-! ### hand -/

@[simp] theorem State.hand_rx (s : State) (r : MemRequest) : (s.hand r).rx = s.rx := rfl
@[simp] theorem State.hand_tx (s : State) (r : MemRequest) : (s.hand r).tx = s.tx := rfl
@[simp] theorem State.hand_setup (s : State) (r : MemRequest) : (s.hand r).setup = s.setup := rfl
@[simp] theorem State.hand_txFsm (s : State) (r : MemRequest) : (s.hand r).txFsm = s.txFsm := rfl
@[simp] theorem State.hand_rxFsm (s : State) (r : MemRequest) : (s.hand r).rxFsm = s.rxFsm := rfl
@[simp] theorem State.hand_busResp (s : State) (r : MemRequest) : (s.hand r).busResp = s.busResp := rfl
@[simp] theorem State.hand_issued (s : State) (r : MemRequest) : (s.hand r).issued = s.issued ++ [r] := rfl
@[simp] theorem State.hand_mem (s : State) (r : MemRequest) : (s.hand r).mem = s.mem := rfl
@[simp] theorem State.hand_portRx (s : State) (r : MemRequest) : (s.hand r).portRx = s.portRx := rfl
@[simp] theorem State.hand_portTx (s : State) (r : MemRequest) : (s.hand r).portTx = s.portTx := rfl
@[simp] theorem State.hand_inputs (s : State) (r : MemRequest) : (s.hand r).inputs = s.inputs := rfl
@[simp] theorem State.hand_clock (s : State) (r : MemRequest) : (s.hand r).clock = s.clock := rfl
@[simp] theorem State.hand_chan (s : State) (r : MemRequest) (c : ChannelId) : (s.hand r).chan c = s.chan c := by
  cases c <;> rfl
@[simp] theorem State.hand_port (s : State) (r : MemRequest) (c : ChannelId) : (s.hand r).port c = s.port c := by
  cases c <;> rfl

/-! ### setChan -/

@[simp] theorem State.setChan_setup (s : State) (c : ChannelId) (ch : Channel) : (s.setChan c ch).setup = s.setup := by
  cases c <;> rfl
@[simp] theorem State.setChan_txFsm (s : State) (c : ChannelId) (ch : Channel) : (s.setChan c ch).txFsm = s.txFsm := by
  cases c <;> rfl
@[simp] theorem State.setChan_rxFsm (s : State) (c : ChannelId) (ch : Channel) : (s.setChan c ch).rxFsm = s.rxFsm := by
  cases c <;> rfl
@[simp] theorem State.setChan_busResp (s : State) (c : ChannelId) (ch : Channel) : (s.setChan c ch).busResp = s.busResp := by
  cases c <;> rfl
@[simp] theorem State.setChan_issued (s : State) (c : ChannelId) (ch : Channel) : (s.setChan c ch).issued = s.issued := by
  cases c <;> rfl
@[simp] theorem State.setChan_mem (s : State) (c : ChannelId) (ch : Channel) : (s.setChan c ch).mem = s.mem := by
  cases c <;> rfl
@[simp] theorem State.setChan_portRx (s : State) (c : ChannelId) (ch : Channel) : (s.setChan c ch).portRx = s.portRx := by
  cases c <;> rfl
@[simp] theorem State.setChan_portTx (s : State) (c : ChannelId) (ch : Channel) : (s.setChan c ch).portTx = s.portTx := by
  cases c <;> rfl
@[simp] theorem State.setChan_inputs (s : State) (c : ChannelId) (ch : Channel) : (s.setChan c ch).inputs = s.inputs := by
  cases c <;> rfl
@[simp] theorem State.setChan_clock (s : State) (c : ChannelId) (ch : Channel) : (s.setChan c ch).clock = s.clock := by
  cases c <;> rfl
@[simp] theorem State.setChan_rx_rx (s : State) (ch : Channel) : (s.setChan .rx ch).rx = ch := rfl
@[simp] theorem State.setChan_tx_rx (s : State) (ch : Channel) : (s.setChan .tx ch).rx = s.rx := rfl
@[simp] theorem State.setChan_rx_tx (s : State) (ch : Channel) : (s.setChan .rx ch).tx = s.tx := rfl
@[simp] theorem State.setChan_tx_tx (s : State) (ch : Channel) : (s.setChan .tx ch).tx = ch := rfl
@[simp] theorem State.setChan_chan_same (s : State) (c : ChannelId) (ch : Channel) : (s.setChan c ch).chan c = ch := by
  cases c <;> rfl
theorem State.setChan_chan_other (s : State) (c d : ChannelId) (ch : Channel) (h : d ≠ c) : (s.setChan c ch).chan d = s.chan d := by
  cases c <;> cases d <;> first | rfl | exact absurd rfl h
@[simp] theorem State.setChan_port (s : State) (c d : ChannelId) (ch : Channel) : (s.setChan c ch).port d = s.port d := by
  cases c <;> cases d <;> rfl

/-! ### setPort -/

@[simp] theorem State.setPort_rx (s : State) (c : ChannelId) (p : Option PortEntry) : (s.setPort c p).rx = s.rx := by
  cases c <;> rfl
@[simp] theorem State.setPort_tx (s : State) (c : ChannelId) (p : Option PortEntry) : (s.setPort c p).tx = s.tx := by
  cases c <;> rfl
@[simp] theorem State.setPort_setup (s : State) (c : ChannelId) (p : Option PortEntry) : (s.setPort c p).setup = s.setup := by
  cases c <;> rfl
@[simp] theorem State.setPort_txFsm (s : State) (c : ChannelId) (p : Option PortEntry) : (s.setPort c p).txFsm = s.txFsm := by
  cases c <;> rfl
@[simp] theorem State.setPort_rxFsm (s : State) (c : ChannelId) (p : Option PortEntry) : (s.setPort c p).rxFsm = s.rxFsm := by
  cases c <;> rfl
@[simp] theorem State.setPort_busResp (s : State) (c : ChannelId) (p : Option PortEntry) : (s.setPort c p).busResp = s.busResp := by
  cases c <;> rfl
@[simp] theorem State.setPort_issued (s : State) (c : ChannelId) (p : Option PortEntry) : (s.setPort c p).issued = s.issued := by
  cases c <;> rfl
@[simp] theorem State.setPort_mem (s : State) (c : ChannelId) (p : Option PortEntry) : (s.setPort c p).mem = s.mem := by
  cases c <;> rfl
@[simp] theorem State.setPort_inputs (s : State) (c : ChannelId) (p : Option PortEntry) : (s.setPort c p).inputs = s.inputs := by
  cases c <;> rfl
@[simp] theorem State.setPort_clock (s : State) (c : ChannelId) (p : Option PortEntry) : (s.setPort c p).clock = s.clock := by
  cases c <;> rfl
@[simp] theorem State.setPort_rx_portRx (s : State) (p : Option PortEntry) : (s.setPort .rx p).portRx = p := rfl
@[simp] theorem State.setPort_tx_portRx (s : State) (p : Option PortEntry) : (s.setPort .tx p).portRx = s.portRx := rfl
@[simp] theorem State.setPort_rx_portTx (s : State) (p : Option PortEntry) : (s.setPort .rx p).portTx = s.portTx := rfl
@[simp] theorem State.setPort_tx_portTx (s : State) (p : Option PortEntry) : (s.setPort .tx p).portTx = p := rfl
@[simp] theorem State.setPort_port_same (s : State) (c : ChannelId) (p : Option PortEntry) : (s.setPort c p).port c = p := by
  cases c <;> rfl
theorem State.setPort_port_other (s : State) (c d : ChannelId) (p : Option PortEntry) (h : d ≠ c) : (s.setPort c p).port d = s.port d := by
  cases c <;> cases d <;> first | rfl | exact absurd rfl h
@[simp] theorem State.setPort_chan (s : State) (c d : ChannelId) (p : Option PortEntry) : (s.setPort c p).chan d = s.chan d := by
  cases c <;> cases d <;> rfl

/-! ### Channels and ports by name -/

@[simp] theorem State.chan_rx (s : State) : s.chan .rx = s.rx := rfl
@[simp] theorem State.chan_tx (s : State) : s.chan .tx = s.tx := rfl
@[simp] theorem State.port_rx (s : State) : s.port .rx = s.portRx := rfl
@[simp] theorem State.port_tx (s : State) : s.port .tx = s.portTx := rfl

@[simp] theorem State.setChan_self (s : State) (c : ChannelId) : s.setChan c (s.chan c) = s := by
  cases c <;> rfl

@[simp] theorem State.setPort_self (s : State) (c : ChannelId) : s.setPort c (s.port c) = s := by
  cases c <;> rfl

@[simp] theorem State.raiseInvalidAccess_eq (s : State) : s.raiseInvalidAccess = s.respond .invalid := rfl

/-! ### The start of a step (phase 0) -/

@[simp] theorem State.begin_rx (s : State) : s.begin.rx = s.rx.clearEvent := rfl
@[simp] theorem State.begin_tx (s : State) : s.begin.tx = s.tx.clearEvent := rfl
@[simp] theorem State.begin_setup (s : State) : s.begin.setup = s.setup := rfl
@[simp] theorem State.begin_txFsm (s : State) : s.begin.txFsm = s.txFsm := rfl
@[simp] theorem State.begin_rxFsm (s : State) : s.begin.rxFsm = s.rxFsm := rfl
@[simp] theorem State.begin_busResp (s : State) : s.begin.busResp = none := rfl
@[simp] theorem State.begin_issued (s : State) : s.begin.issued = [] := rfl
@[simp] theorem State.begin_mem (s : State) : s.begin.mem = s.mem := rfl
@[simp] theorem State.begin_portRx (s : State) : s.begin.portRx = s.portRx := rfl
@[simp] theorem State.begin_portTx (s : State) : s.begin.portTx = s.portTx := rfl
@[simp] theorem State.begin_inputs (s : State) : s.begin.inputs = s.inputs.tail := rfl
@[simp] theorem State.begin_clock (s : State) : s.begin.clock = s.clock + 1 := rfl
@[simp] theorem State.begin_chan (s : State) (c : ChannelId) : s.begin.chan c = (s.chan c).clearEvent := by
  cases c <;> rfl
@[simp] theorem State.begin_port (s : State) (c : ChannelId) : s.begin.port c = s.port c := by
  cases c <;> rfl

/-! ### The FSM phases -/

@[simp] theorem State.txStep_rx (s : State) : s.txStep.rx = s.rx := rfl
@[simp] theorem State.txStep_tx (s : State) : s.txStep.tx = { s.tx with stage := (s.txFsm.step s.setup s.tx.stage).2 } := rfl
@[simp] theorem State.txStep_setup (s : State) : s.txStep.setup = s.setup := rfl
@[simp] theorem State.txStep_txFsm (s : State) : s.txStep.txFsm = (s.txFsm.step s.setup s.tx.stage).1 := rfl
@[simp] theorem State.txStep_rxFsm (s : State) : s.txStep.rxFsm = s.rxFsm := rfl
@[simp] theorem State.txStep_busResp (s : State) : s.txStep.busResp = s.busResp := rfl
@[simp] theorem State.txStep_issued (s : State) : s.txStep.issued = s.issued := rfl
@[simp] theorem State.txStep_mem (s : State) : s.txStep.mem = s.mem := rfl
@[simp] theorem State.txStep_portRx (s : State) : s.txStep.portRx = s.portRx := rfl
@[simp] theorem State.txStep_portTx (s : State) : s.txStep.portTx = s.portTx := rfl
@[simp] theorem State.txStep_inputs (s : State) : s.txStep.inputs = s.inputs := rfl
@[simp] theorem State.txStep_clock (s : State) : s.txStep.clock = s.clock := rfl
@[simp] theorem State.rxStep_rx (s : State) (v : Bool) : (s.rxStep v).rx = s.rx.pushed (s.rxFsm.step s.setup v).2 := rfl
@[simp] theorem State.rxStep_tx (s : State) (v : Bool) : (s.rxStep v).tx = s.tx := rfl
@[simp] theorem State.rxStep_setup (s : State) (v : Bool) : (s.rxStep v).setup = s.setup := rfl
@[simp] theorem State.rxStep_txFsm (s : State) (v : Bool) : (s.rxStep v).txFsm = s.txFsm := rfl
@[simp] theorem State.rxStep_rxFsm (s : State) (v : Bool) : (s.rxStep v).rxFsm = (s.rxFsm.step s.setup v).1 := rfl
@[simp] theorem State.rxStep_busResp (s : State) (v : Bool) : (s.rxStep v).busResp = s.busResp := rfl
@[simp] theorem State.rxStep_issued (s : State) (v : Bool) : (s.rxStep v).issued = s.issued := rfl
@[simp] theorem State.rxStep_mem (s : State) (v : Bool) : (s.rxStep v).mem = s.mem := rfl
@[simp] theorem State.rxStep_portRx (s : State) (v : Bool) : (s.rxStep v).portRx = s.portRx := rfl
@[simp] theorem State.rxStep_portTx (s : State) (v : Bool) : (s.rxStep v).portTx = s.portTx := rfl
@[simp] theorem State.rxStep_inputs (s : State) (v : Bool) : (s.rxStep v).inputs = s.inputs := rfl
@[simp] theorem State.rxStep_clock (s : State) (v : Bool) : (s.rxStep v).clock = s.clock := rfl

end Sys2Proof.Machine
end

