-- ==== Sys2Proof/Laws/Channel.lean ====
section
/-! SUPPORT. What each channel operation can do, said once, and that each keeps what holds of a channel inside a
step: `Channel.Fit` relates a channel to its request in the port and to a response that has arrived but is not
captured yet. -/

namespace Sys2Proof.Machine

open Sys2Proof

/-! ### Descriptors -/

theorem UnitSize.bytes_pos (u : UnitSize) : 1 ≤ u.bytes := by cases u <;> decide

theorem UnitSize.bytes_le (u : UnitSize) : u.bytes ≤ 4 := by cases u <;> decide

theorem Descriptor.nextN_le_remaining (d : Descriptor) : d.nextN ≤ d.remainingSize := Nat.min_le_right _ _

theorem Descriptor.nextN_le (d : Descriptor) : d.nextN ≤ 4 := (Nat.min_le_left _ _).trans d.unitSize.bytes_le

theorem Descriptor.nextN_pos {d : Descriptor} (h : 0 < d.remainingSize) : 1 ≤ d.nextN :=
  Nat.le_min.2 ⟨d.unitSize.bytes_pos, h⟩

@[simp] theorem Descriptor.advance_remaining (d : Descriptor) (n : Nat) :
    (d.advance n).remainingSize = d.remainingSize - n := rfl
@[simp] theorem Descriptor.advance_continuous (d : Descriptor) (n : Nat) :
    (d.advance n).continuous = d.continuous := rfl
@[simp] theorem Descriptor.advance_start (d : Descriptor) (n : Nat) :
    (d.advance n).startAddress = d.startAddress := rfl
@[simp] theorem Descriptor.advance_total (d : Descriptor) (n : Nat) : (d.advance n).totalSize = d.totalSize := rfl
@[simp] theorem Descriptor.advance_unit (d : Descriptor) (n : Nat) : (d.advance n).unitSize = d.unitSize := rfl
@[simp] theorem Descriptor.advance_received (d : Descriptor) (n : Nat) :
    (d.advance n).receivedSize = d.receivedSize + n := rfl
@[simp] theorem Descriptor.advance_address (d : Descriptor) (n : Nat) :
    (d.advance n).currentAddress = d.currentAddress + BitVec.ofNat 32 n := rfl

/-- A pending transfer is ready to become current. -/
theorem Descriptor.Fresh.toActive {d : Descriptor} (h : d.Fresh) : d.Active where
  remaining_pos := h.remaining ▸ h.total_pos
  remaining_le := h.remaining.le
  address := by rw [h.address, h.remaining]; simp
  received_once _ := by rw [h.received, h.remaining]; simp
  received_cyclic _ := by rw [h.received, h.remaining]; simp

/-- A unit that leaves something of the pass keeps the current transfer as it should be. -/
theorem Descriptor.Active.advance {d : Descriptor} (h : d.Active) {n : Nat} (hn : n < d.remainingSize) :
    (d.advance n).Active where
  remaining_pos := by simp; omega
  remaining_le := by have := h.remaining_le; simp; omega
  address := by
    have := h.remaining_le
    simp only [Descriptor.advance_address, Descriptor.advance_start, Descriptor.advance_total,
      Descriptor.advance_remaining, h.address]
    rw [BitVec.add_assoc, ← BitVec.ofNat_add]
    congr 2
    omega
  received_once hc := by have := h.received_once hc; simp; omega
  received_cyclic hc := by
    have h1 := h.received_cyclic hc
    have h2 := h.remaining_le
    have h3 := h.remaining_pos
    simp only [Descriptor.advance_received, Descriptor.advance_total, Descriptor.advance_remaining]
    rw [Nat.add_mod, h1, Nat.add_mod_mod, Nat.mod_eq_of_lt (by omega)]
    omega

/-- The transfer that has moved its whole pass wraps to a current one. -/
theorem Descriptor.Active.wrap {d : Descriptor} (h : d.Active) (hc : d.continuous = true) {n : Nat}
    (hn : n = d.remainingSize) : (d.advance n).wrap.Active where
  remaining_pos := lt_of_lt_of_le h.remaining_pos h.remaining_le
  remaining_le := le_refl _
  address := by simp [Descriptor.wrap]
  received_once hc' := by simp [Descriptor.wrap, hc] at hc'
  received_cyclic _ := by
    have h1 := h.received_cyclic hc
    have h2 := h.remaining_le
    simp only [Descriptor.wrap, Descriptor.advance_received, Descriptor.advance_total, Nat.sub_self]
    rw [Nat.add_mod, h1, Nat.add_mod_mod, hn, Nat.sub_add_cancel h2, Nat.mod_self]

theorem Channel.newTransfer_fresh {c : Channel} (h : c.size ≠ 0#20) : c.newTransfer.Fresh where
  total_pos := by
    have : c.size.toNat ≠ 0 := fun h' => h (BitVec.eq_of_toNat_eq (by simpa using h'))
    simp only [Channel.newTransfer]
    omega
  address := rfl
  remaining := rfl
  received := rfl

/-! ### What the operations can do -/

/-- Everything ARM can do (R120). -/
theorem Channel.arm_cases (c : Channel) :
    c.arm = c ∨
      (c.size ≠ 0#20 ∧ c.used ≠ Config.poolDepth ∧
        ((c.cur = none ∧ c.arm = { c with cur := some c.newTransfer }) ∨
          (c.cur ≠ none ∧ c.arm = { c with pend := c.pend ++ [c.newTransfer] }))) := by
  unfold Channel.arm
  split
  · exact .inl rfl
  · rename_i hs
    split
    · exact .inl rfl
    · rename_i hu
      refine .inr ⟨hs, hu, ?_⟩
      split
      · rename_i hc
        exact .inl ⟨hc, rfl⟩
      · rename_i hc
        exact .inr ⟨by simp [hc], rfl⟩

/-- Everything SERVICE can do (R124): nothing, drop the response, complete a unit within the pass, or complete its
last unit and end the pass. -/
theorem Channel.service_cases (id : ChannelId) (c : Channel) :
    (c.ready = none ∧ c.service id = c) ∨
      (c.ready ≠ none ∧ (c.out = none ∨ c.cur = none ∨ ∃ o, c.out = some o ∧ o.discard = true) ∧
        c.service id = c.release) ∨
      (∃ bytes o d, c.ready = some bytes ∧ c.out = some o ∧ c.cur = some d ∧ o.discard = false ∧
        d.remainingSize - o.n ≠ 0 ∧ c.service id = (c.complete id d o.n bytes).release) ∨
      (∃ bytes o d, c.ready = some bytes ∧ c.out = some o ∧ c.cur = some d ∧ o.discard = false ∧
        d.remainingSize - o.n = 0 ∧
        c.service id = ((c.complete id d o.n bytes).release).endPass id (d.advance o.n)) := by
  unfold Channel.service
  split
  · rename_i h
    exact .inl ⟨h, rfl⟩
  · rename_i bytes h
    split
    · rename_i o d ho hd
      split
      · rename_i hdis
        exact .inr (.inl ⟨by simp [h], .inr (.inr ⟨o, ho, hdis⟩), rfl⟩)
      · rename_i hdis
        dsimp only
        split
        · rename_i hr
          exact .inr (.inr (.inr ⟨bytes, o, d, h, ho, hd, by simpa using hdis, hr, rfl⟩))
        · rename_i hr
          exact .inr (.inr (.inl ⟨bytes, o, d, h, ho, hd, by simpa using hdis, hr, rfl⟩))
    · rename_i hno
      refine .inr (.inl ⟨by simp [h], ?_, rfl⟩)
      cases ho : c.out with
      | none => exact .inl rfl
      | some o =>
        cases hd : c.cur with
        | none => exact .inr (.inl rfl)
        | some d => exact absurd hd (hno o d ho)

/-- Everything END_PASS can do (R127). -/
theorem Channel.endPass_cases (id : ChannelId) (c : Channel) (d : Descriptor) :
    (d.continuous = true ∧ c.endPass id d = { c with evt := true, cur := some d.wrap }) ∨
      (d.continuous = false ∧ ∃ next rest, c.pend = next :: rest ∧
        c.endPass id d = { c with evt := true, cur := some next, pend := rest }) ∨
      (d.continuous = false ∧ c.pend = [] ∧
        c.endPass id d = { c with evt := true, cur := none, stage := (match id with | .tx => c.stage | .rx => []) }) := by
  unfold Channel.endPass
  split
  · rename_i h
    exact .inl ⟨h, rfl⟩
  · rename_i h
    have h : d.continuous = false := by simpa using h
    split
    · rename_i next rest hp
      exact .inr (.inl ⟨h, next, rest, hp, rfl⟩)
    · rename_i hp
      exact .inr (.inr ⟨h, hp, rfl⟩)

/-- Everything PUSH can do (R131). -/
theorem Channel.push_cases (c : Channel) (b : Byte) :
    (c.cur ≠ none ∧ c.stage.length < Config.stageBytes ∧ c.push b = { c with stage := c.stage ++ [b] }) ∨
      ((c.cur = none ∨ Config.stageBytes ≤ c.stage.length) ∧ c.push b = c) := by
  unfold Channel.push
  split
  · rename_i h
    exact .inl ⟨Option.isSome_iff_ne_none.1 h.1, h.2, rfl⟩
  · rename_i h
    refine .inr ⟨?_, rfl⟩
    cases hc : c.cur with
    | none => exact .inl rfl
    | some d => exact .inr (not_lt.1 fun hl => h ⟨by simp [hc], hl⟩)

/-- Everything CAPTURE can do (R123). -/
theorem Channel.capture_cases (id : ChannelId) (c : Channel) (arr : Option (List Byte)) :
    ((arr = none ∨ c.out = none) ∧ c.capture id arr = c) ∨
      (∃ bytes o, arr = some bytes ∧ c.out = some o ∧
        c.capture id arr =
          { c with ready := (match id with | .tx => some (bytes.take o.n) | .rx => some []) }) := by
  cases arr with
  | none => exact .inl ⟨.inl rfl, rfl⟩
  | some bytes =>
    cases ho : c.out with
    | none => exact .inl ⟨.inr rfl, by simp [Channel.capture, ho]⟩
    | some o => exact .inr ⟨bytes, o, rfl, rfl, by cases id <;> simp [Channel.capture, ho]⟩

/-- When the TX channel issues a request, and which (R121). -/
theorem Channel.nextRequest_tx (c : Channel) (r : MemRequest) :
    c.nextRequest .tx = some r ↔
      ∃ d, c.cur = some d ∧ c.out = none ∧ c.stage = [] ∧ r = ⟨.tx, d.currentAddress, d.nextN, .read⟩ := by
  unfold Channel.nextRequest
  cases c.cur <;> cases c.out <;> simp [eq_comm]

/-- When the RX channel issues a request, and which (R122). -/
theorem Channel.nextRequest_rx (c : Channel) (r : MemRequest) :
    c.nextRequest .rx = some r ↔
      ∃ d, c.cur = some d ∧ c.out = none ∧ d.nextN ≤ c.stage.length ∧
        r = ⟨.rx, d.currentAddress, d.nextN, .write (c.stage.take d.nextN)⟩ := by
  unfold Channel.nextRequest
  cases c.cur <;> cases c.out <;> simp [eq_comm]

theorem UnitSize.ofCode_eq_none_iff : ∀ code : BitVec 2, UnitSize.ofCode code = none ↔ code = 3#2 := by decide

theorem UnitSize.code_of_ofCode : ∀ (code : BitVec 2) (u : UnitSize), UnitSize.ofCode code = some u → u.code = code := by
  intro code u
  revert code
  cases u <;> decide

theorem UnitSize.ofCode_code (u : UnitSize) : UnitSize.ofCode u.code = some u := by cases u <;> rfl

theorem ParityMode.ofCode_eq_none_iff : ∀ code : BitVec 2, ParityMode.ofCode code = none ↔ code = 3#2 := by decide

theorem ParityMode.code_of_ofCode :
    ∀ (code : BitVec 2) (m : ParityMode), ParityMode.ofCode code = some m → m.code = code := by
  intro code m
  revert code
  cases m <;> decide

theorem ParityMode.ofCode_code (m : ParityMode) : ParityMode.ofCode m.code = some m := by cases m <;> rfl

/-- Everything a CFG write can do (R105, R111, R92). -/
theorem Channel.writeCfg_cases (c : Channel) (w : Word) :
    (dataSizeField w = 3#2 ∧ c.writeCfg w = none) ∨
      (∃ ds, UnitSize.ofCode (dataSizeField w) = some ds ∧ clrField w = false ∧
        c.writeCfg w = some { c with cont := contField w, ds := ds, en := enField w }) ∨
      (∃ ds, UnitSize.ofCode (dataSizeField w) = some ds ∧ clrField w = true ∧
        c.writeCfg w = some { c with cont := contField w, ds := ds, en := enField w }.clear) := by
  unfold Channel.writeCfg
  split
  · rename_i h
    exact .inl ⟨(UnitSize.ofCode_eq_none_iff _).1 h, rfl⟩
  · rename_i ds h
    cases hc : clrField w with
    | false => exact .inr (.inl ⟨ds, h, rfl, by simp⟩)
    | true => exact .inr (.inr ⟨ds, h, rfl, by simp⟩)

/-! ### What holds of a channel inside a step -/

/-- The stage and the captured response of a channel: TX stages nothing while a request is out, RX nothing while
idle, and a captured response has the bytes asked for. -/
def Channel.StageOk (c : Channel) : ChannelId → Prop
  | .tx => (c.out ≠ none → c.stage = []) ∧
      ∀ o bytes, c.out = some o → c.ready = some bytes → bytes.length = o.n
  | .rx => (c.cur = none → c.stage = []) ∧ ∀ bytes, c.ready = some bytes → bytes = []

/-- A channel, its request in the port, and a response that has arrived for it and is not captured yet, fit
together. -/
structure Channel.Fit (id : ChannelId) (c : Channel) (p : Option PortEntry) (arr : Option (List Byte)) : Prop where
  ok : c.Ok
  staged : c.StageOk id
  holds : p.isSome = (c.out.isSome && c.ready.isNone && arr.isNone)
  arrived : arr ≠ none → c.out ≠ none ∧ c.ready = none
  arrived_bytes : id = .tx → ∀ o bytes, c.out = some o → arr = some bytes → bytes.length = o.n
  entry : ∀ e o, p = some e → c.out = some o →
    e.req.chan = id ∧ e.req.addr = o.addr ∧ e.req.n = o.n ∧ e.Shape id

end Sys2Proof.Machine
end

