-- ==== Sys2Proof/Laws/Decode.lean ====
section
/-! SUPPORT. The request key and its fields, and when a key is one of the sixteen valid ones. -/

namespace Sys2Proof

theorem BitVec.append_fields : ∀ (w : BitVec 1) (sz : BitVec 2) (off : BitVec 7),
    keyWrite (w ++ sz ++ off : BitVec 10) = (w == 1#1) ∧ keySize (w ++ sz ++ off : BitVec 10) = sz ∧
      keyOffset (w ++ sz ++ off : BitVec 10) = off := by
  decide +kernel

/-- The fields of a request's key are the request's own (R86). -/
theorem BusRequest.key_fields (r : BusRequest) :
    keyWrite r.key = (r.dir.writeBit == 1#1) ∧ keySize r.key = sizeCode r.size ∧ keyOffset r.key = r.offset :=
  BitVec.append_fields r.dir.writeBit (sizeCode r.size) r.offset

theorem keyWrite_key_read (off : Offset) (size : Nat) : keyWrite (BusRequest.key ⟨off, size, .read⟩) = false := by
  rw [(BusRequest.key_fields _).1]
  rfl

theorem keyWrite_key_write (off : Offset) (size : Nat) (w : Word) :
    keyWrite (BusRequest.key ⟨off, size, .write w⟩) = true := by
  rw [(BusRequest.key_fields _).1]
  rfl

theorem key_of_fields : ∀ k : Key,
    (BitVec.ofBool (keyWrite k) ++ sizeCode (sizeOfCode (keySize k)) ++ keyOffset k : BitVec 10) = k := by
  decide +kernel

/-- The request made for a key has that key. -/
theorem requestOfKey_key (k : Key) (w : Word) : (requestOfKey k w).key = k := by
  have := key_of_fields k
  unfold requestOfKey BusRequest.key
  cases h : keyWrite k <;> simp only [h] at this ⊢ <;> exact this

theorem sizeCode_eq_word_iff (size : Nat) : sizeCode size = 0b10#2 ↔ size = 4 := by
  unfold sizeCode
  split
  · simp_all
  · split
    · simp_all
    · split
      · simp_all
      · simp_all

theorem offset_low_iff : ∀ k : Key, k.extractLsb' 0 2 = 0#2 ↔ (keyOffset k).toNat % 4 = 0 := by
  decide +kernel

theorem Reg.ofOffset_eq_none_iff : ∀ off : Offset, Reg.ofOffset off = none ↔
    off.toNat ∉ [0x00, 0x04, 0x08, 0x10, 0x14, 0x18, 0x20, 0x24] := by
  decide +kernel

theorem Reg.ofOffset_eq_some : ∀ (off : Offset) (reg : Reg), Reg.ofOffset off = some reg → reg.offset = off := by
  intro off reg
  revert off
  cases reg <;> decide +kernel

/-- A key that is not of word width, not aligned, or at a reserved offset is not valid (R91). -/
theorem not_validKeys : ∀ k : Key,
    (keySize k ≠ 0b10#2 ∨ k.extractLsb' 0 2 ≠ 0#2 ∨ Reg.ofOffset (keyOffset k) = none) ↔ k ∉ validKeys := by
  decide +kernel

/-- Everything decoding a key can give (R87): `invalid` for a key that is not valid, or the read or the write of the
register at its offset. -/
theorem decodeKey_cases (k : Key) (w : Word) :
    (k ∉ validKeys ∧ decodeKey k w = .invalid k w) ∨
      (k ∈ validKeys ∧ ∃ reg, Reg.ofOffset (keyOffset k) = some reg ∧ keySize k = 0b10#2 ∧
        decodeKey k w = if keyWrite k then reg.writeAccess w else reg.readAccess) := by
  by_cases hv : k ∈ validKeys
  · refine .inr ⟨hv, ?_⟩
    have h := mt (not_validKeys k).1 (not_not.2 hv)
    simp only [not_or, not_not] at h
    obtain ⟨reg, hreg⟩ := Option.ne_none_iff_exists'.1 h.2.2
    exact ⟨reg, hreg, h.1, by simp [decodeKey, h.1, h.2.1, hreg]⟩
  · refine .inl ⟨hv, ?_⟩
    have h := (not_validKeys k).2 hv
    unfold decodeKey
    split
    · rfl
    · rename_i h1
      split
      · rfl
      · rename_i h2
        rcases h with h | h | h
        · exact absurd h h1
        · exact absurd h h2
        · simp [h]

/-- Reading a register decodes from its own request (R90). -/
theorem decodeRequest_readRequest (reg : Reg) : decodeRequest (readRequest reg) = reg.readAccess := by
  cases reg <;> rfl

/-- Writing a register decodes from its own request (R90). -/
theorem decodeRequest_writeRequest (reg : Reg) (w : Word) :
    decodeRequest (writeRequest reg w) = reg.writeAccess w := by
  have hk : ∀ reg : Reg, keySize (writeRequest reg 0#32).key = 0b10#2 ∧
      (writeRequest reg 0#32).key.extractLsb' 0 2 = 0#2 ∧
      Reg.ofOffset (keyOffset (writeRequest reg 0#32).key) = some reg ∧
      keyWrite (writeRequest reg 0#32).key = true := by
    intro reg
    cases reg <;> decide
  obtain ⟨h1, h2, h3, h4⟩ := hk reg
  change decodeKey (writeRequest reg 0#32).key w = _
  simp [decodeKey, h1, h2, h3, h4]

end Sys2Proof
end

