-- ==== Sys2Proof/Laws/Fit.lean ====
section
/-! SUPPORT. Each operation on a channel keeps `Channel.Fit`: what holds of a channel, its request in the port and a
response on its way, inside a step. -/

namespace Sys2Proof.Machine

open Sys2Proof

/-- `Fit` reads only the queue, the stage and the request of a channel. -/
theorem Channel.Fit.of_same {id : ChannelId} {c c' : Channel} {p : Option PortEntry} {arr : Option (List Byte)}
    (h : c.Fit id p arr) (hcur : c'.cur = c.cur) (hpend : c'.pend = c.pend) (hstage : c'.stage = c.stage)
    (hout : c'.out = c.out) (hready : c'.ready = c.ready) : c'.Fit id p arr := by
  obtain ⟨saddr, size, cont, ds, en, cur, pend, stage, out, ready, evt⟩ := c
  obtain ⟨saddr', size', cont', ds', en', cur', pend', stage', out', ready', evt'⟩ := c'
  dsimp only at hcur hpend hstage hout hready
  subst hcur hpend hstage hout hready
  obtain ⟨ok, staged, holds, arrived, arrived_bytes, entry⟩ := h
  exact
    { ok := ⟨ok.pool, ok.idle_pend, ok.active, ok.fresh, ok.stage_le, ok.ready_out, ok.out_bytes, ok.out_unit⟩
      staged := by cases id <;> exact staged
      holds := holds
      arrived := arrived
      arrived_bytes := arrived_bytes
      entry := entry }

/-- ARM keeps `Fit` (R120). -/
theorem Channel.Fit.arm {id : ChannelId} {c : Channel} {p : Option PortEntry} {arr : Option (List Byte)}
    (h : c.Fit id p arr) : c.arm.Fit id p arr := by
  have ok := h.ok
  have hst := h.staged
  rcases c.arm_cases with e | ⟨hs, hu, ⟨hc, e⟩ | ⟨hc, e⟩⟩
  · rwa [e]
  · rw [e]
    have hfresh := c.newTransfer_fresh hs
    have hp := ok.idle_pend hc
    refine ⟨⟨?_, ?_, ?_, ok.fresh, ok.stage_le, ok.ready_out, ok.out_bytes, ?_⟩, ?_, h.holds, h.arrived,
      h.arrived_bytes, h.entry⟩
    · simp [Channel.used, hp, Config.poolDepth]
    · simp
    · rintro d hd
      obtain rfl : c.newTransfer = d := by simpa using hd
      exact hfresh.toActive
    · intro o ho hd
      obtain ⟨d, hd', -⟩ := ok.out_unit o ho hd
      exact absurd hd' (by simp [hc])
    · cases id with
      | tx => exact hst
      | rx => exact ⟨fun h' => absurd h' (by simp), hst.2⟩
  · rw [e]
    have hfresh := c.newTransfer_fresh hs
    obtain ⟨d0, hd0⟩ := Option.ne_none_iff_exists'.1 hc
    refine ⟨⟨?_, ?_, ok.active, ?_, ok.stage_le, ok.ready_out, ok.out_bytes, ok.out_unit⟩, ?_, h.holds, h.arrived,
      h.arrived_bytes, h.entry⟩
    · have := ok.pool
      simp only [Channel.used, List.length_append, List.length_cons, List.length_nil] at this hu ⊢
      omega
    · intro h'
      exact absurd h' hc
    · intro d hd
      rcases List.mem_append.1 hd with hd | hd
      · exact ok.fresh d hd
      · obtain rfl : d = c.newTransfer := by simpa using hd
        exact hfresh
    · cases id <;> exact hst

/-- CLEAR keeps `Fit` (R130). -/
theorem Channel.Fit.clear {id : ChannelId} {c : Channel} {p : Option PortEntry} {arr : Option (List Byte)}
    (h : c.Fit id p arr) : c.clear.Fit id p arr := by
  have hst := h.staged
  refine ⟨⟨by simp [Channel.used, Channel.clear], fun _ => rfl, ?_, ?_, by simp [Channel.clear], ?_, ?_, ?_⟩, ?_, ?_, ?_, ?_, ?_⟩
  · simp [Channel.clear]
  · simp [Channel.clear]
  · simpa [Channel.clear] using h.ok.ready_out
  · intro o ho
    obtain ⟨o', ho', rfl⟩ := Option.map_eq_some_iff.1 (show c.out.map _ = some o from ho)
    exact h.ok.out_bytes o' ho'
  · intro o ho hd
    obtain ⟨o', ho', rfl⟩ := Option.map_eq_some_iff.1 (show c.out.map _ = some o from ho)
    simp at hd
  · cases id with
    | rx => exact ⟨fun _ => rfl, hst.2⟩
    | tx =>
      refine ⟨fun _ => rfl, fun o bytes ho hb => ?_⟩
      obtain ⟨o', ho', rfl⟩ := Option.map_eq_some_iff.1 (show c.out.map _ = some o from ho)
      exact hst.2 o' bytes ho' hb
  · simpa [Channel.clear] using h.holds
  · simpa [Channel.clear] using h.arrived
  · intro hid o bytes ho hb
    obtain ⟨o', ho', rfl⟩ := Option.map_eq_some_iff.1 (show c.out.map _ = some o from ho)
    exact h.arrived_bytes hid o' bytes ho' hb
  · intro e o he ho
    obtain ⟨o', ho', rfl⟩ := Option.map_eq_some_iff.1 (show c.out.map _ = some o from ho)
    exact h.entry e o' he ho'

theorem Channel.Fit.writeSize {id : ChannelId} {c : Channel} {p : Option PortEntry} {arr : Option (List Byte)}
    (h : c.Fit id p arr) (w : Word) : (c.writeSize w).Fit id p arr := by
  have h' : Channel.Fit id { c with size := sizeField w } p arr := h.of_same rfl rfl rfl rfl rfl
  unfold Channel.writeSize
  dsimp only
  split
  · exact h'.arm
  · exact h'

theorem Channel.Fit.writeCfg {id : ChannelId} {c c' : Channel} {p : Option PortEntry} {arr : Option (List Byte)}
    (h : c.Fit id p arr) {w : Word} (hw : c.writeCfg w = some c') : c'.Fit id p arr := by
  rcases c.writeCfg_cases w with ⟨-, e⟩ | ⟨ds, -, -, e⟩ | ⟨ds, -, -, e⟩
  · simp [e] at hw
  · rw [e] at hw
    obtain rfl := Option.some.inj hw
    exact h.of_same rfl rfl rfl rfl rfl
  · rw [e] at hw
    obtain rfl := Option.some.inj hw
    exact Channel.Fit.clear (h.of_same rfl rfl rfl rfl rfl)

/-- A pushed byte keeps `Fit` of the RX channel (R131). -/
theorem Channel.Fit.push {c : Channel} {p : Option PortEntry} {arr : Option (List Byte)}
    (h : c.Fit .rx p arr) (b : Byte) : (c.push b).Fit .rx p arr := by
  rcases c.push_cases b with ⟨hc, hl, e⟩ | ⟨-, e⟩
  · rw [e]
    have ok := h.ok
    refine ⟨⟨ok.pool, ok.idle_pend, ok.active, ok.fresh, ?_, ok.ready_out, ok.out_bytes, ok.out_unit⟩, ?_, h.holds,
      h.arrived, h.arrived_bytes, h.entry⟩
    · simp only [List.length_append, List.length_cons, List.length_nil]
      omega
    · exact ⟨fun h' => absurd h' hc, h.staged.2⟩
  · rwa [e]

theorem Channel.Fit.pushed {c : Channel} {p : Option PortEntry} {arr : Option (List Byte)}
    (h : c.Fit .rx p arr) (b : Option Byte) : (c.pushed b).Fit .rx p arr := by
  cases b with
  | none => exact h
  | some b => exact h.push b

/-- A TX channel whose stage loses bytes keeps `Fit` (R132). -/
theorem Channel.Fit.popped {c : Channel} {p : Option PortEntry} {arr : Option (List Byte)}
    (h : c.Fit .tx p arr) {stage : List Byte} (hs : stage <:+ c.stage) :
    Channel.Fit .tx { c with stage := stage } p arr := by
  have ok := h.ok
  refine ⟨⟨ok.pool, ok.idle_pend, ok.active, ok.fresh, hs.length_le.trans ok.stage_le, ok.ready_out, ok.out_bytes,
    ok.out_unit⟩, ?_, h.holds, h.arrived, h.arrived_bytes, h.entry⟩
  refine ⟨fun ho => ?_, h.staged.2⟩
  have : c.stage = [] := h.staged.1 ho
  rw [this] at hs
  exact List.suffix_nil.1 hs

/-- A released channel fits an empty port. -/
theorem Channel.Fit.release {id : ChannelId} {c : Channel} {p : Option PortEntry} {arr : Option (List Byte)}
    (h : c.Fit id p arr) (hr : c.ready ≠ none) : c.release.Fit id p arr := by
  have ok := h.ok
  have harr : arr = none := by
    by_contra ha
    exact hr (h.arrived ha).2
  have hp : p = none := by
    have := h.holds
    cases hc : c.ready with
    | none => exact absurd hc hr
    | some b => simpa [hc] using this
  refine ⟨⟨ok.pool, ok.idle_pend, ok.active, ok.fresh, ok.stage_le, by simp [Channel.release], by simp [Channel.release],
    by simp [Channel.release]⟩, ?_, by simp [Channel.release, hp], by simp [harr], by simp [harr], by simp [hp]⟩
  cases id with
  | tx => exact ⟨fun h' => absurd rfl h', fun o bytes ho => by simp [Channel.release] at ho⟩
  | rx => exact ⟨h.staged.1, fun bytes hb => by simp [Channel.release] at hb⟩

/-- A released channel with nothing in the port or on its way fits whatever its request was. -/
theorem Channel.Fit.complete {id : ChannelId} {c : Channel} {p : Option PortEntry} {arr : Option (List Byte)}
    (h : c.Fit id p arr) {bytes : List Byte} {o : OutRequest} {d : Descriptor} (hr : c.ready = some bytes)
    (ho : c.out = some o) (hd : c.cur = some d) (hne : d.remainingSize - o.n ≠ 0) :
    ((c.complete id d o.n bytes).release).Fit id p arr := by
  have hrel := h.release (by simp [hr])
  have ok := h.ok
  have hact := ok.active d hd
  refine ⟨⟨?_, ?_, ?_, ok.fresh, ?_, by simp [Channel.release], by simp [Channel.release],
    by simp [Channel.release]⟩, ?_, hrel.holds, hrel.arrived, ?_, ?_⟩
  · have := ok.pool
    simpa [Channel.used, Channel.release, Channel.complete, hd] using this
  · simp [Channel.release, Channel.complete]
  · intro d' hd'
    obtain rfl : d.advance o.n = d' := by simpa [Channel.release, Channel.complete] using hd'
    exact hact.advance (by omega)
  · cases id with
    | rx => exact ok.stage_le
    | tx =>
      have h1 := h.staged.1 (by simp [ho])
      have h2 := h.staged.2 o bytes ho hr
      have h3 := (ok.out_bytes o ho).2
      simp only [Channel.release, Channel.complete, h1, List.nil_append, h2]
      exact h3
  · cases id with
    | tx => exact ⟨fun h' => absurd rfl h', fun o bytes ho => by simp [Channel.release] at ho⟩
    | rx => exact ⟨fun h' => by simp [Channel.release, Channel.complete] at h', fun b hb => by simp [Channel.release] at hb⟩
  · simp [Channel.release]
  · simp [Channel.release]

/-- END_PASS keeps `Fit` (R127). -/
theorem Channel.Fit.endPass {id : ChannelId} {c : Channel} {p : Option PortEntry} {arr : Option (List Byte)}
    (h : c.Fit id p arr) {bytes : List Byte} {o : OutRequest} {d : Descriptor} (hr : c.ready = some bytes)
    (ho : c.out = some o) (hd : c.cur = some d) (hdis : o.discard = false) (hz : d.remainingSize - o.n = 0) :
    (((c.complete id d o.n bytes).release).endPass id (d.advance o.n)).Fit id p arr := by
  have hrel := h.release (by simp [hr])
  have ok := h.ok
  have hact := ok.active d hd
  obtain ⟨d', hd', hn, -⟩ := ok.out_unit o ho hdis
  obtain rfl : d = d' := Option.some.inj (hd.symm.trans hd')
  have hn' : o.n = d.remainingSize := by
    have := d.nextN_le_remaining
    omega
  have hstage : ((c.complete id d o.n bytes).release).stage.length ≤ Config.stageBytes := by
    cases id with
    | rx => exact ok.stage_le
    | tx =>
      have h1 := h.staged.1 (by simp [ho])
      have h2 := h.staged.2 o bytes ho hr
      have h3 := (ok.out_bytes o ho).2
      simp only [Channel.release, Channel.complete, h1, List.nil_append, h2]
      exact h3
  rcases ((c.complete id d o.n bytes).release).endPass_cases id (d.advance o.n) with
    ⟨hc, e⟩ | ⟨hc, next, rest, hp, e⟩ | ⟨hc, hp, e⟩ <;> rw [e]
  · refine ⟨⟨?_, ?_, ?_, ok.fresh, hstage, by simp [Channel.release], by simp [Channel.release],
      by simp [Channel.release]⟩, ?_, hrel.holds, hrel.arrived, by simp [Channel.release], by simp [Channel.release]⟩
    · have := ok.pool
      simpa [Channel.used, Channel.release, Channel.complete, hd] using this
    · simp
    · intro d' hd'
      obtain rfl : (d.advance o.n).wrap = d' := by simpa using hd'
      exact hact.wrap hc hn'
    · cases id with
      | tx => exact ⟨fun h' => absurd rfl h', fun o bytes ho => by simp [Channel.release] at ho⟩
      | rx => exact ⟨fun h' => by simp at h', fun b hb => by simp [Channel.release] at hb⟩
  · have hp : c.pend = next :: rest := hp
    have hnext : next.Fresh := ok.fresh next (by simp [hp])
    refine ⟨⟨?_, by simp, ?_, fun d hd => ok.fresh d (by simp [hp, hd]), hstage, by simp [Channel.release],
      by simp [Channel.release], by simp [Channel.release]⟩, ?_, hrel.holds, hrel.arrived, by simp [Channel.release],
      by simp [Channel.release]⟩
    · have := ok.pool
      simp only [Channel.used, hp, hd, Option.isSome_some, if_true, List.length_cons] at this ⊢
      omega
    · intro d' hd'
      obtain rfl : next = d' := by simpa using hd'
      exact hnext.toActive
    · cases id with
      | tx => exact ⟨fun h' => absurd rfl h', fun o bytes ho => by simp [Channel.release] at ho⟩
      | rx => exact ⟨fun h' => by simp at h', fun b hb => by simp [Channel.release] at hb⟩
  · have hp : c.pend = [] := hp
    refine ⟨⟨?_, fun _ => hp, by simp, ok.fresh, ?_, by simp [Channel.release],
      by simp [Channel.release], by simp [Channel.release]⟩, ?_, hrel.holds, hrel.arrived, by simp [Channel.release],
      by simp [Channel.release]⟩
    · simp [Channel.used, Channel.release, Channel.complete, hp]
    · cases id with
      | tx => exact hstage
      | rx => simp
    · cases id with
      | tx => exact ⟨fun h' => absurd rfl h', fun o bytes ho => by simp [Channel.release] at ho⟩
      | rx => exact ⟨fun _ => rfl, fun b hb => by simp [Channel.release] at hb⟩

/-- SERVICE keeps `Fit` (R124). -/
theorem Channel.Fit.service {id : ChannelId} {c : Channel} {p : Option PortEntry} {arr : Option (List Byte)}
    (h : c.Fit id p arr) : (c.service id).Fit id p arr := by
  rcases c.service_cases id with ⟨-, e⟩ | ⟨hr, -, e⟩ | ⟨bytes, o, d, hr, ho, hd, hdis, hne, e⟩ |
    ⟨bytes, o, d, hr, ho, hd, hdis, hz, e⟩ <;> rw [e]
  · exact h
  · exact h.release hr
  · exact h.complete hr ho hd hne
  · exact h.endPass hr ho hd hdis hz

/-- CAPTURE takes the response that arrived (R123). -/
theorem Channel.Fit.capture {id : ChannelId} {c : Channel} {p : Option PortEntry} {arr : Option (List Byte)}
    (h : c.Fit id p arr) : (c.capture id arr).Fit id p none := by
  have ok := h.ok
  rcases c.capture_cases id arr with ⟨hor, e⟩ | ⟨bytes, o, ha, ho, e⟩
  · have ha : arr = none := by
      rcases hor with ha | ho
      · exact ha
      · by_contra ha
        exact (h.arrived ha).1 ho
    rw [e]
    rwa [ha] at h
  · rw [e]
    have hr : c.ready = none := (h.arrived (by simp [ha])).2
    have hp : p = none := by simpa [ha] using h.holds
    refine ⟨⟨ok.pool, ok.idle_pend, ok.active, ok.fresh, ok.stage_le, fun _ => by simp [ho], ok.out_bytes, ok.out_unit⟩,
      ?_, ?_, by simp, by simp, by simp [hp]⟩
    · cases id with
      | tx =>
        refine ⟨h.staged.1, fun o' b ho' hb => ?_⟩
        obtain rfl : o = o' := Option.some.inj (ho.symm.trans ho')
        obtain rfl : bytes.take o.n = b := by simpa using hb
        rw [List.length_take, h.arrived_bytes rfl o bytes ho ha, Nat.min_self]
      | rx => exact ⟨h.staged.1, fun b hb => by simpa [eq_comm] using hb⟩
    · cases id <;> simp [hp]

/-- Phase 0 keeps `Fit`. -/
theorem Channel.Fit.clearEvent {id : ChannelId} {c : Channel} {p : Option PortEntry} {arr : Option (List Byte)}
    (h : c.Fit id p arr) : c.clearEvent.Fit id p arr := h.of_same rfl rfl rfl rfl rfl

/-- The request a channel hands over is the port's new entry (R121, R122). -/
theorem Channel.Fit.requested {id : ChannelId} {c : Channel} {p : Option PortEntry}
    (h : c.Fit id p none) {r : MemRequest} (hr : c.nextRequest id = some r) :
    (c.requested id r).Fit id (some ⟨r, none⟩) none := by
  have ok := h.ok
  cases id with
  | tx =>
    obtain ⟨d, hd, ho, hs, rfl⟩ := (c.nextRequest_tx r).1 hr
    have hready : c.ready = none := by
      by_contra hc
      exact ok.ready_out hc ho
    have hact := ok.active d hd
    refine ⟨⟨ok.pool, ok.idle_pend, ok.active, ok.fresh, ok.stage_le, fun _ => by simp [Channel.requested],
      ?_, ?_⟩, ?_, by simp [Channel.requested, hready], by simp, by simp, ?_⟩
    · rintro o ho'
      obtain rfl : _ = o := Option.some.inj ho'
      exact ⟨d.nextN_pos hact.remaining_pos, d.nextN_le⟩
    · rintro o ho' -
      obtain rfl : _ = o := Option.some.inj ho'
      exact ⟨d, hd, rfl, rfl⟩
    · exact ⟨fun _ => hs, fun o bytes _ hb => by simp [Channel.requested, hready] at hb⟩
    · rintro e o he ho'
      obtain rfl := Option.some.inj he
      obtain rfl : _ = o := Option.some.inj ho'
      exact ⟨rfl, rfl, rfl, rfl, by simp⟩
  | rx =>
    obtain ⟨d, hd, ho, hs, rfl⟩ := (c.nextRequest_rx r).1 hr
    have hready : c.ready = none := by
      by_contra hc
      exact ok.ready_out hc ho
    have hact := ok.active d hd
    refine ⟨⟨ok.pool, ok.idle_pend, ok.active, ok.fresh, ?_, fun _ => by simp [Channel.requested],
      ?_, ?_⟩, ?_, by simp [Channel.requested, hready], by simp, by simp, ?_⟩
    · have := ok.stage_le
      simp only [Channel.requested, List.length_drop]
      omega
    · rintro o ho'
      obtain rfl : _ = o := Option.some.inj ho'
      exact ⟨d.nextN_pos hact.remaining_pos, d.nextN_le⟩
    · rintro o ho' -
      obtain rfl : _ = o := Option.some.inj ho'
      exact ⟨d, hd, rfl, rfl⟩
    · exact ⟨fun h' => by simp [Channel.requested, hd] at h', fun bytes hb => by simp [Channel.requested, hready] at hb⟩
    · rintro e o he ho'
      obtain rfl := Option.some.inj he
      obtain rfl : _ = o := Option.some.inj ho'
      exact ⟨rfl, rfl, rfl, ⟨_, rfl, by simpa using hs⟩, by simp⟩

/-- The channel of a reset step (R48, R190, R191). -/
theorem Channel.Fit.afterReset {id : ChannelId} {c : Channel} {p : Option PortEntry} {arr : Option (List Byte)}
    (h : c.Fit id p arr) : (c.afterReset arr.isSome).Fit id p none := by
  have ok := h.ok
  have hold := h.holds
  have hkept : ∀ o, (c.afterReset arr.isSome).out = some o →
      c.ready = none ∧ arr = none ∧ ∃ o', c.out = some o' ∧ o = { o' with discard := true } := by
    intro o ho
    simp only [Channel.afterReset] at ho
    split at ho
    · simp at ho
    · rename_i hcond
      obtain ⟨o', ho', rfl⟩ := Option.map_eq_some_iff.1 ho
      simp only [Bool.or_eq_true, not_or, Bool.not_eq_true, Option.isSome_eq_false_iff, Option.isNone_iff_eq_none] at hcond
      exact ⟨hcond.1, hcond.2, o', ho', rfl⟩
  refine ⟨⟨?_, fun _ => rfl, ?_, ?_, ?_, ?_, ?_, ?_⟩, ?_, ?_, by simp, by simp, ?_⟩
  · simp [Channel.used, Channel.afterReset, Channel.reset]
  · simp [Channel.afterReset, Channel.reset]
  · simp [Channel.afterReset, Channel.reset]
  · simp [Channel.afterReset, Channel.reset]
  · simp [Channel.afterReset, Channel.reset]
  · intro o ho
    obtain ⟨-, -, o', ho', rfl⟩ := hkept o ho
    exact ok.out_bytes o' ho'
  · intro o ho hdis
    obtain ⟨-, -, o', ho', rfl⟩ := hkept o ho
    simp at hdis
  · cases id with
    | tx => exact ⟨fun _ => rfl, fun o bytes _ hb => by simp [Channel.afterReset, Channel.reset] at hb⟩
    | rx => exact ⟨fun _ => rfl, fun bytes hb => by simp [Channel.afterReset, Channel.reset] at hb⟩
  · rw [hold]
    cases hr : c.ready <;> cases ha : arr <;> cases ho : c.out <;> simp [Channel.afterReset, Channel.reset, hr, ho]
  · intro e o he ho
    obtain ⟨-, -, o', ho', rfl⟩ := hkept o ho
    exact h.entry e o' he ho'

end Sys2Proof.Machine
end

