-- ==== Sys2Proof/Laws/Memory.lean ====
section
/-! SUPPORT. Memory: every operation keeps the canonical form, a read sees the last write, and a write leaves
every other byte alone. -/

namespace Sys2Proof.Machine

open Sys2Proof

theorem Memory.wfFrom_cons_iff (low k : Nat) (v : Byte) (m : Memory) :
    Memory.wfFrom low ((k, v) :: m) = true ↔
      low ≤ k ∧ k < 2 ^ 32 ∧ v ≠ Config.unwrittenByte ∧ Memory.wfFrom (k + 1) m = true := by
  simp only [Memory.wfFrom, Bool.and_eq_true, decide_eq_true_eq, and_assoc]

theorem Memory.wfFrom_mono {low low' : Nat} {m : Memory} (h : Memory.wfFrom low m = true) (hl : low' ≤ low) :
    Memory.wfFrom low' m = true := by
  cases m with
  | nil => rfl
  | cons c m =>
    obtain ⟨k, v⟩ := c
    rw [Memory.wfFrom_cons_iff] at h ⊢
    exact ⟨hl.trans h.1, h.2⟩

/-- An address below everything listed reads as an unlisted one. -/
theorem Memory.read_below {low : Nat} {m : Memory} (h : Memory.wfFrom low m = true) {a : Nat} (ha : a < low) :
    Memory.read m a = Config.unwrittenByte := by
  induction m generalizing low with
  | nil => rfl
  | cons c m ih =>
    obtain ⟨k, v⟩ := c
    rw [Memory.wfFrom_cons_iff] at h
    have hk : k ≠ a := by omega
    simp only [Memory.read, if_neg hk]
    exact ih h.2.2.2 (by omega)

theorem Memory.cons_wfFrom {low a : Nat} {b : Byte} {m : Memory} (hla : low ≤ a) (ha : a < 2 ^ 32)
    (h : Memory.wfFrom (a + 1) m = true) : Memory.wfFrom low (Memory.cons a b m) = true := by
  unfold Memory.cons
  split
  · exact Memory.wfFrom_mono h (by omega)
  · rename_i hb
    exact (Memory.wfFrom_cons_iff _ _ _ _).2 ⟨hla, ha, hb, h⟩

/-- Storing a byte keeps the canonical form. -/
theorem Memory.write_wfFrom {low a : Nat} {b : Byte} {m : Memory} (h : Memory.wfFrom low m = true) (hla : low ≤ a)
    (ha : a < 2 ^ 32) : Memory.wfFrom low (Memory.write m a b) = true := by
  induction m generalizing low with
  | nil => exact Memory.cons_wfFrom hla ha rfl
  | cons c m ih =>
    obtain ⟨k, v⟩ := c
    have h' := (Memory.wfFrom_cons_iff _ _ _ _).1 h
    unfold Memory.write
    split
    · rename_i hak
      exact Memory.cons_wfFrom hla ha ((Memory.wfFrom_cons_iff _ _ _ _).2 ⟨hak, h'.2⟩)
    · split
      · rename_i hak
        subst hak
        exact Memory.cons_wfFrom hla ha h'.2.2.2
      · exact (Memory.wfFrom_cons_iff _ _ _ _).2 ⟨h'.1, h'.2.1, h'.2.2.1, ih h'.2.2.2 (by omega)⟩

theorem Memory.write_wf {m : Memory} (h : Memory.wf m = true) (a : Word) (b : Byte) :
    Memory.wf (Memory.write m a.toNat b) = true :=
  Memory.write_wfFrom h (Nat.zero_le _) a.isLt

theorem Memory.read_cons {a a' : Nat} {b : Byte} {m : Memory} (h : Memory.wfFrom (a + 1) m = true) :
    Memory.read (Memory.cons a b m) a' = if a = a' then b else Memory.read m a' := by
  unfold Memory.cons
  split
  · rename_i hb
    split
    · rename_i ha
      subst ha
      rw [Memory.read_below h (by omega), hb]
    · rfl
  · rfl

/-- A read after a write: the byte written at its address, the byte before everywhere else. -/
theorem Memory.read_write {low : Nat} {m : Memory} (h : Memory.wfFrom low m = true) (a a' : Nat) (b : Byte) :
    Memory.read (Memory.write m a b) a' = if a = a' then b else Memory.read m a' := by
  induction m generalizing low with
  | nil => exact Memory.read_cons rfl
  | cons c m ih =>
    obtain ⟨k, v⟩ := c
    have h' := (Memory.wfFrom_cons_iff _ _ _ _).1 h
    unfold Memory.write
    split
    · rename_i hak
      exact Memory.read_cons ((Memory.wfFrom_cons_iff _ _ _ _).2 ⟨by omega, h'.2⟩)
    · split
      · rename_i hak
        subst hak
        rw [Memory.read_cons h'.2.2.2]
        split
        · rfl
        · rename_i hne
          simp only [Memory.read, if_neg hne]
      · rename_i hlt hne
        simp only [Memory.read]
        split
        · rename_i hk
          subst hk
          simp only [if_neg hne]
        · exact ih h'.2.2.2

theorem Memory.writeBytes_wf {m : Memory} (h : Memory.wf m = true) (a : Word) (bytes : List Byte) :
    Memory.wf (Memory.writeBytes m a bytes) = true := by
  induction bytes generalizing m a with
  | nil => exact h
  | cons b bs ih => exact ih (Memory.write_wf h a b) (a + 1#32)

/-- A multi-byte store leaves every byte outside its addresses alone. -/
theorem Memory.read_writeBytes_outside {m : Memory} (h : Memory.wf m = true) (a : Word) (bytes : List Byte)
    (a' : Nat) (hout : ∀ i < bytes.length, (a + BitVec.ofNat 32 i).toNat ≠ a') :
    Memory.read (Memory.writeBytes m a bytes) a' = Memory.read m a' := by
  induction bytes generalizing m a with
  | nil => rfl
  | cons b bs ih =>
    simp only [Memory.writeBytes]
    rw [ih (Memory.write_wf h a b), Memory.read_write h, if_neg]
    · simpa using hout 0 (by simp)
    · intro i hi
      have := hout (i + 1) (by simp; omega)
      rwa [BitVec.add_assoc, show 1#32 + BitVec.ofNat 32 i = BitVec.ofNat 32 (i + 1) by
        rw [Nat.add_comm, BitVec.ofNat_add]]

theorem Memory.readBytes_length (m : Memory) (a : Word) (n : Nat) : (Memory.readBytes m a n).length = n := by
  induction n generalizing a with
  | zero => rfl
  | succ n ih => simp [Memory.readBytes, ih]

/-- Performing a request keeps the canonical form. -/
theorem MemRequest.perform_wf (r : MemRequest) {m : Memory} (h : Memory.wf m = true) :
    Memory.wf (r.perform m).1 = true := by
  unfold MemRequest.perform
  split
  · exact h
  · exact Memory.writeBytes_wf h _ _

end Sys2Proof.Machine
end

