-- ==== Sys2Proof/Laws/MemPort.lean ====
section
/-! SUPPORT. The memory port: it touches memory and its own entries only, it keeps memory's canonical form, and it
keeps every channel fitting its entry and the response on its way. -/

namespace Sys2Proof.Machine

open Sys2Proof

@[simp] theorem Arrivals.get_empty (c : ChannelId) : Arrivals.empty.get c = none := by cases c <;> rfl

@[simp] theorem Arrivals.add_none (arr : Arrivals) (c : ChannelId) : arr.add c none = arr := rfl

@[simp] theorem Arrivals.get_add_same (arr : Arrivals) (c : ChannelId) (bytes : List Byte) :
    (arr.add c (some bytes)).get c = some bytes := by cases c <;> rfl

theorem Arrivals.get_add_other (arr : Arrivals) (c d : ChannelId) (r : Option (List Byte)) (h : d ≠ c) :
    (arr.add c r).get d = arr.get d := by
  cases r with
  | none => rfl
  | some bytes => cases c <;> cases d <;> first | rfl | exact absurd rfl h

/-- Two states that differ at most in memory and in the port. -/
structure State.SameBlock (s t : State) : Prop where
  rx : t.rx = s.rx
  tx : t.tx = s.tx
  setup : t.setup = s.setup
  txFsm : t.txFsm = s.txFsm
  rxFsm : t.rxFsm = s.rxFsm
  busResp : t.busResp = s.busResp
  issued : t.issued = s.issued
  inputs : t.inputs = s.inputs
  clock : t.clock = s.clock

theorem State.SameBlock.refl (s : State) : s.SameBlock s := ⟨rfl, rfl, rfl, rfl, rfl, rfl, rfl, rfl, rfl⟩

theorem State.SameBlock.trans {s t u : State} (h : s.SameBlock t) (h' : t.SameBlock u) : s.SameBlock u :=
  ⟨h'.rx.trans h.rx, h'.tx.trans h.tx, h'.setup.trans h.setup, h'.txFsm.trans h.txFsm, h'.rxFsm.trans h.rxFsm,
    h'.busResp.trans h.busResp, h'.issued.trans h.issued, h'.inputs.trans h.inputs, h'.clock.trans h.clock⟩

theorem State.SameBlock.chan {s t : State} (h : s.SameBlock t) (c : ChannelId) : t.chan c = s.chan c := by
  cases c
  · exact h.rx
  · exact h.tx

theorem State.setMem_sameBlock (s : State) (m : Memory) : s.SameBlock (s.setMem m) :=
  ⟨rfl, rfl, rfl, rfl, rfl, rfl, rfl, rfl, rfl⟩

theorem State.setPort_sameBlock (s : State) (c : ChannelId) (p : Option PortEntry) : s.SameBlock (s.setPort c p) := by
  cases c <;> exact ⟨rfl, rfl, rfl, rfl, rfl, rfl, rfl, rfl, rfl⟩

theorem State.portRelease_sameBlock (s : State) (c : ChannelId) : s.SameBlock (s.portRelease c) :=
  s.setPort_sameBlock c none

/-- Everything the port can do when it is to perform a request (R77, R78). -/
theorem State.portPerform_cases (s : State) (c : ChannelId) :
    s.portPerform c = s ∨
      ∃ r, s.port c = some ⟨r, none⟩ ∧
        s.portPerform c = (s.setMem (r.perform s.mem).1).setPort c (some ⟨r, some (r.perform s.mem).2⟩) := by
  unfold State.portPerform
  split
  · rename_i r h
    exact .inr ⟨r, h, rfl⟩
  · exact .inl rfl

/-- Everything the port can do when it is to answer a request: nothing when it holds none, else it lets go of the
request, having performed it before or performing it now, or not at all for a discarded write (R76 to R78, R84). -/
theorem State.portAnswer_cases (s : State) (c : ChannelId) :
    (s.port c = none ∧ s.portAnswer c = (s, none)) ∨
      (∃ r bytes, s.port c = some ⟨r, some bytes⟩ ∧ s.portAnswer c = (s.portRelease c, some bytes)) ∨
      (∃ r, s.port c = some ⟨r, none⟩ ∧ s.performsAtAnswer c r = true ∧
        s.portAnswer c = ((s.setMem (r.perform s.mem).1).portRelease c, some (r.perform s.mem).2)) ∨
      (∃ r bytes, s.port c = some ⟨r, none⟩ ∧ r.op = .write bytes ∧ (s.chan c).discarding = true ∧
        s.portAnswer c = (s.portRelease c, some [])) := by
  unfold State.portAnswer
  split
  · rename_i h
    exact .inl ⟨h, rfl⟩
  · rename_i r bytes h
    exact .inr (.inl ⟨r, bytes, h, rfl⟩)
  · rename_i r h
    cases hp : s.performsAtAnswer c r with
    | true => exact .inr (.inr (.inl ⟨r, h, hp, by simp⟩))
    | false =>
      cases hop : r.op with
      | read => simp [State.performsAtAnswer, hop] at hp
      | write bytes =>
        exact .inr (.inr (.inr ⟨r, bytes, h, hop, by simpa [State.performsAtAnswer, hop] using hp, by simp⟩))

theorem State.portAnswer_sameBlock (s : State) (c : ChannelId) : s.SameBlock (s.portAnswer c).1 := by
  rcases s.portAnswer_cases c with ⟨-, e⟩ | ⟨r, b, -, e⟩ | ⟨r, -, -, e⟩ | ⟨r, b, -, -, -, e⟩ <;> rw [e]
  · exact .refl _
  · exact s.portRelease_sameBlock c
  · exact (s.setMem_sameBlock _).trans (State.portRelease_sameBlock _ _)
  · exact s.portRelease_sameBlock c

/-- An event of the port or of another agent leaves the block alone. -/
theorem State.memEvent_sameBlock (p : State × Arrivals) (e : MemEvent) :
    p.1.SameBlock (State.memEvent p e).1 := by
  cases e with
  | store addr b => exact p.1.setMem_sameBlock _
  | perform c =>
    rcases p.1.portPerform_cases c with e | ⟨r, -, e⟩ <;> simp only [State.memEvent, e]
    · exact .refl _
    · exact (p.1.setMem_sameBlock _).trans (State.setPort_sameBlock _ _ _)
  | answer c => exact p.1.portAnswer_sameBlock c
  | answerError c data => exact p.1.portAnswer_sameBlock c

theorem State.foldl_memEvent_sameBlock (events : List MemEvent) (p : State × Arrivals) :
    p.1.SameBlock (events.foldl State.memEvent p).1 := by
  induction events generalizing p with
  | nil => exact .refl _
  | cons e events ih => exact (State.memEvent_sameBlock p e).trans (ih _)

/-- What the environment does in a step leaves the block alone (log entry 5). -/
theorem State.memEvents_sameBlock (s : State) (events : List MemEvent) : s.SameBlock (s.memEvents events).1 :=
  State.foldl_memEvent_sameBlock events (s, Arrivals.empty)

/-! ### The channels keep fitting -/

/-- Memory is canonical and both channels fit their port entries and the responses on their way. -/
structure State.AllFit (s : State) (arr : Arrivals) : Prop where
  mem : Memory.wf s.mem = true
  fit : ∀ c, (s.chan c).Fit c (s.port c) (arr.get c)

theorem MemRequest.perform_shape {r : MemRequest} {c : ChannelId} {m : Memory}
    (h : PortEntry.Shape ⟨r, none⟩ c) : PortEntry.Shape ⟨r, some (r.perform m).2⟩ c := by
  cases c with
  | rx =>
    obtain ⟨⟨bytes, hop, hlen⟩, -⟩ := h
    exact ⟨⟨bytes, hop, hlen⟩, fun b hb => by simpa [MemRequest.perform, show r.op = _ from hop, eq_comm] using hb⟩
  | tx =>
    obtain ⟨hop, -⟩ := h
    refine ⟨hop, fun b hb => ?_⟩
    have hop : r.op = .read := hop
    obtain rfl : Memory.readBytes m r.addr r.n = b := by simpa [MemRequest.perform, hop] using hb
    exact Memory.readBytes_length _ _ _

/-- The port marks a request performed. -/
theorem Channel.Fit.performed {id : ChannelId} {c : Channel} {r : MemRequest} {arr : Option (List Byte)}
    {m : Memory} (h : c.Fit id (some ⟨r, none⟩) arr) : c.Fit id (some ⟨r, some (r.perform m).2⟩) arr := by
  refine ⟨h.ok, h.staged, h.holds, h.arrived, h.arrived_bytes, fun e o he ho => ?_⟩
  obtain rfl := Option.some.inj he
  obtain ⟨h1, h2, h3, h4⟩ := h.entry _ o rfl ho
  exact ⟨h1, h2, h3, MemRequest.perform_shape h4⟩

/-- The port answers a request with bytes of the right number. -/
theorem Channel.Fit.answered {id : ChannelId} {c : Channel} {e : PortEntry} {arr : Option (List Byte)}
    {bytes : List Byte} (h : c.Fit id (some e) arr) (hb : id = .tx → bytes.length = e.req.n) :
    c.Fit id none (some bytes) := by
  have hold := h.holds
  simp only [Option.isSome_some, Bool.true_eq, Bool.and_eq_true] at hold
  obtain ⟨⟨hout, hready⟩, -⟩ := hold
  refine ⟨h.ok, h.staged, by simp, fun _ => ⟨Option.isSome_iff_ne_none.1 hout, Option.isNone_iff_eq_none.1 hready⟩,
    fun hid o b ho hbs => ?_, by simp⟩
  obtain rfl := Option.some.inj hbs
  rw [hb hid]
  exact (h.entry e o rfl ho).2.2.1

/-- Only the channel an update names has to be looked at again. -/
theorem State.AllFit.setPort {s : State} {arr arr' : Arrivals} (h : s.AllFit arr) (c : ChannelId)
    (p : Option PortEntry) (hother : ∀ d, d ≠ c → arr'.get d = arr.get d)
    (hc : (s.chan c).Fit c p (arr'.get c)) : (s.setPort c p).AllFit arr' := by
  refine ⟨by simpa using h.mem, fun d => ?_⟩
  by_cases hd : d = c
  · subst hd
    simpa using hc
  · rw [State.setPort_chan, State.setPort_port_other _ _ _ _ hd, hother d hd]
    exact h.fit d

theorem State.AllFit.setMem {s : State} {arr : Arrivals} (h : s.AllFit arr) {m : Memory}
    (hm : Memory.wf m = true) : (s.setMem m).AllFit arr :=
  ⟨hm, fun c => by simpa using h.fit c⟩

theorem State.AllFit.setChan {s : State} {arr arr' : Arrivals} (h : s.AllFit arr) (c : ChannelId) (ch : Channel)
    (hother : ∀ d, d ≠ c → arr'.get d = arr.get d)
    (hc : ch.Fit c (s.port c) (arr'.get c)) : (s.setChan c ch).AllFit arr' := by
  refine ⟨by simpa using h.mem, fun d => ?_⟩
  by_cases hd : d = c
  · subst hd
    simpa using hc
  · rw [State.setChan_port, State.setChan_chan_other _ _ _ _ hd, hother d hd]
    exact h.fit d

/-- The port answers: the request leaves it and the response is on its way. -/
theorem State.AllFit.answered {s : State} {arr : Arrivals} (h : s.AllFit arr) {c : ChannelId} {e : PortEntry}
    (he : s.port c = some e) {bytes : List Byte} (hb : c = .tx → bytes.length = e.req.n) :
    (s.portRelease c).AllFit (arr.add c (some bytes)) := by
  refine h.setPort c none (fun d hd => Arrivals.get_add_other _ _ _ _ hd) ?_
  rw [Arrivals.get_add_same]
  have := h.fit c
  rw [he] at this
  exact this.answered hb

/-- A request in the port has the shape its channel gives it. -/
theorem State.AllFit.shape {s : State} {arr : Arrivals} (h : s.AllFit arr) {c : ChannelId} {e : PortEntry}
    (he : s.port c = some e) : e.Shape c := by
  have hf := h.fit c
  rw [he] at hf
  have hold := hf.holds
  simp only [Option.isSome_some, Bool.true_eq, Bool.and_eq_true] at hold
  obtain ⟨o, ho⟩ := Option.isSome_iff_exists.1 hold.1.1
  exact (hf.entry e o rfl ho).2.2.2

/-- However the port answers a request, and with whatever bytes of the right number: memory stays canonical and the
channels fit. -/
theorem State.AllFit.portAnswer {s : State} {arr : Arrivals} (h : s.AllFit arr) {c : ChannelId} {e : PortEntry}
    (he : s.port c = some e) {bytes : List Byte} (hb : c = .tx → bytes.length = e.req.n) :
    (s.portAnswer c).1.AllFit (arr.add c (some bytes)) := by
  rcases s.portAnswer_cases c with ⟨hp, -⟩ | ⟨r, b, -, e'⟩ | ⟨r, -, -, e'⟩ | ⟨r, b, -, -, -, e'⟩
  · simp [he] at hp
  · rw [e']
    exact h.answered he hb
  · rw [e']
    exact (h.setMem (r.perform_wf h.mem)).answered (by simpa using he) hb
  · rw [e']
    exact h.answered he hb

/-- The response of an answer that reports no error: none without a request, else a read's has the bytes asked for. -/
theorem State.AllFit.portAnswer_response {s : State} {arr : Arrivals} (h : s.AllFit arr) (c : ChannelId) :
    (s.port c = none ∧ s.portAnswer c = (s, none)) ∨
      ∃ e bytes, s.port c = some e ∧ (s.portAnswer c).2 = some bytes ∧ (c = .tx → bytes.length = e.req.n) := by
  rcases s.portAnswer_cases c with hp | ⟨r, b, hp, e⟩ | ⟨r, hp, -, e⟩ | ⟨r, b, hp, hop, -, e⟩
  · exact .inl hp
  · refine .inr ⟨_, b, hp, by rw [e], fun hc => ?_⟩
    subst hc
    exact (h.shape hp).2 b rfl
  · refine .inr ⟨_, _, hp, by rw [e], fun hc => ?_⟩
    subst hc
    exact (MemRequest.perform_shape (h.shape hp)).2 _ rfl
  · refine .inr ⟨_, [], hp, by rw [e], fun hc => ?_⟩
    subst hc
    have := (h.shape hp).1
    simp [hop] at this

theorem State.AllFit.memEvent {p : State × Arrivals} (h : p.1.AllFit p.2) (e : MemEvent) :
    (State.memEvent p e).1.AllFit (State.memEvent p e).2 := by
  cases e with
  | store addr b => exact h.setMem (Memory.write_wf h.mem addr b)
  | perform c =>
    rcases p.1.portPerform_cases c with e | ⟨r, hp, e⟩ <;> simp only [State.memEvent, e]
    · exact h
    · have h' := h.setMem (r.perform_wf h.mem)
      refine h'.setPort c _ (fun _ _ => rfl) ?_
      have := h.fit c
      rw [hp] at this
      simpa using this.performed
  | answer c =>
    rcases h.portAnswer_response c with ⟨-, e⟩ | ⟨e, bytes, hp, hr, hb⟩
    · simpa [State.memEvent, e] using h
    · simp only [State.memEvent, hr]
      exact h.portAnswer hp hb
  | answerError c data =>
    rcases h.portAnswer_response c with ⟨hp, e⟩ | ⟨e, bytes, hp, -, -⟩
    · simpa [State.memEvent, State.portAnswerError, hp, e] using h
    · simp only [State.memEvent, State.portAnswerError, hp, Option.map_some]
      refine h.portAnswer hp fun hc => ?_
      subst hc
      simp [MemRequest.errorBytes, (h.shape hp).1]

/-- What the environment does in a step keeps memory canonical and the channels fitting. -/
theorem State.AllFit.memEvents {s : State} (h : s.AllFit Arrivals.empty) (events : List MemEvent) :
    (s.memEvents events).1.AllFit (s.memEvents events).2 := by
  unfold State.memEvents
  generalize hp : (s, Arrivals.empty) = p
  have h : p.1.AllFit p.2 := by rw [← hp]; exact h
  clear hp
  induction events generalizing p with
  | nil => exact h
  | cons e events ih => exact ih _ (h.memEvent e)

end Sys2Proof.Machine
end

