-- ==== Sys2Proof/Laws/Step.lean ====
section
/-! SUPPORT. What a register access and a step can do, said once, and what the phases leave alone. -/

namespace Sys2Proof.Machine

open Sys2Proof

/-! ### Register accesses -/

/-- Everything a register access can do to the block: nothing, or store a field, arm or clear in one channel, or set
the UART configuration (R100 to R116, R119). -/
inductive Edit (s : State) : State → Prop where
  | same : Edit s s
  | saddr (c : ChannelId) (w : Word) : Edit s (s.setChan c { s.chan c with saddr := w })
  | size (c : ChannelId) (w : Word) : Edit s (s.setChan c ((s.chan c).writeSize w))
  | cfg (c : ChannelId) (w : Word) (ch : Channel) (h : (s.chan c).writeCfg w = some ch) : Edit s (s.setChan c ch)
  | setup (u : Setup) : Edit s (s.setSetup u)

/-- Every register access completes: it edits the block as `Edit` says and answers the bus. -/
theorem exec_cases (i : Instr) (s : State) : ∃ s' r, Edit s s' ∧ exec i s = .next (s'.respond r) := by
  have hcfg : ∀ c w, ∃ s' r, Edit s s' ∧ s.writeCfg c w = s'.respond r := by
    intro c w
    cases h : (s.chan c).writeCfg w with
    | none => exact ⟨s, .invalid, .same, by simp [State.writeCfg, h]⟩
    | some ch => exact ⟨_, .okWrite, .cfg c w ch h, by simp [State.writeCfg, h]⟩
  cases i with
  | rdRxSaddr => exact ⟨s, _, .same, rfl⟩
  | wrRxSaddr w => exact ⟨_, _, .saddr .rx w, rfl⟩
  | rdRxSize => exact ⟨s, _, .same, rfl⟩
  | wrRxSize w => exact ⟨_, _, .size .rx w, rfl⟩
  | rdRxCfg => exact ⟨s, _, .same, rfl⟩
  | wrRxCfg w =>
    obtain ⟨s', r, he, h⟩ := hcfg .rx w
    exact ⟨s', r, he, congrArg _ h⟩
  | rdTxSaddr => exact ⟨s, _, .same, rfl⟩
  | wrTxSaddr w => exact ⟨_, _, .saddr .tx w, rfl⟩
  | rdTxSize => exact ⟨s, _, .same, rfl⟩
  | wrTxSize w => exact ⟨_, _, .size .tx w, rfl⟩
  | rdTxCfg => exact ⟨s, _, .same, rfl⟩
  | wrTxCfg w =>
    obtain ⟨s', r, he, h⟩ := hcfg .tx w
    exact ⟨s', r, he, congrArg _ h⟩
  | rdStatus => exact ⟨s, _, .same, rfl⟩
  | wrStatus w => exact ⟨s, _, .same, rfl⟩
  | rdSetup => exact ⟨s, _, .same, rfl⟩
  | wrSetup w =>
    cases h : ParityMode.ofCode (parityField w) with
    | none => exact ⟨s, .invalid, .same, by simp [exec, execWrSetup, h]⟩
    | some mode => exact ⟨_, .okWrite, .setup _, by simp only [exec, execWrSetup, h]; rfl⟩
  | invalid k w => exact ⟨s, _, .same, rfl⟩

/-- What an access leaves alone, field by field. -/
structure Edit.Frame (s t : State) : Prop where
  txFsm : t.txFsm = s.txFsm
  rxFsm : t.rxFsm = s.rxFsm
  mem : t.mem = s.mem
  port : ∀ c, t.port c = s.port c
  inputs : t.inputs = s.inputs
  clock : t.clock = s.clock
  issued : t.issued = s.issued
  ready : ∀ c, (t.chan c).ready = (s.chan c).ready
  evt : ∀ c, (t.chan c).evt = (s.chan c).evt
  out : ∀ c, (t.chan c).out.isSome = (s.chan c).out.isSome

theorem Channel.arm_frame (c : Channel) :
    c.arm.ready = c.ready ∧ c.arm.evt = c.evt ∧ c.arm.out = c.out ∧ c.arm.stage = c.stage := by
  rcases c.arm_cases with e | ⟨-, -, ⟨-, e⟩ | ⟨-, e⟩⟩ <;> rw [e] <;> exact ⟨rfl, rfl, rfl, rfl⟩

theorem Channel.writeSize_frame (c : Channel) (w : Word) :
    (c.writeSize w).ready = c.ready ∧ (c.writeSize w).evt = c.evt ∧ (c.writeSize w).out = c.out ∧
      (c.writeSize w).stage = c.stage := by
  unfold Channel.writeSize
  dsimp only
  split
  · exact Channel.arm_frame { c with size := sizeField w }
  · exact ⟨rfl, rfl, rfl, rfl⟩

theorem Channel.writeCfg_frame {c ch : Channel} {w : Word} (h : c.writeCfg w = some ch) :
    ch.ready = c.ready ∧ ch.evt = c.evt ∧ ch.out.isSome = c.out.isSome := by
  rcases c.writeCfg_cases w with ⟨-, e⟩ | ⟨ds, -, -, e⟩ | ⟨ds, -, -, e⟩ <;> rw [e] at h
  · simp at h
  · obtain rfl := Option.some.inj h
    exact ⟨rfl, rfl, rfl⟩
  · obtain rfl := Option.some.inj h
    exact ⟨rfl, rfl, by simp [Channel.clear]⟩

theorem State.setChan_frame {s : State} {c : ChannelId} {ch : Channel}
    (h : ch.ready = (s.chan c).ready ∧ ch.evt = (s.chan c).evt ∧ ch.out.isSome = (s.chan c).out.isSome) :
    Edit.Frame s (s.setChan c ch) := by
  have key : ∀ d, (((s.setChan c ch).chan d).ready = (s.chan d).ready ∧
      ((s.setChan c ch).chan d).evt = (s.chan d).evt ∧
      ((s.setChan c ch).chan d).out.isSome = (s.chan d).out.isSome) := by
    intro d
    by_cases hd : d = c
    · subst hd
      simpa using h
    · rw [State.setChan_chan_other _ _ _ _ hd]
      exact ⟨rfl, rfl, rfl⟩
  exact ⟨by simp, by simp, by simp, by simp, by simp, by simp, by simp, fun d => (key d).1, fun d => (key d).2.1,
    fun d => (key d).2.2⟩

/-- A register access reaches no line, no FSM, no memory, no port, no event and no input (R119). -/
theorem Edit.frame {s t : State} (h : Edit s t) : Edit.Frame s t := by
  cases h with
  | same => exact ⟨rfl, rfl, rfl, fun _ => rfl, rfl, rfl, rfl, fun _ => rfl, fun _ => rfl, fun _ => rfl⟩
  | saddr c w => exact State.setChan_frame ⟨rfl, rfl, rfl⟩
  | size c w =>
    obtain ⟨h1, h2, h3, -⟩ := (s.chan c).writeSize_frame w
    exact State.setChan_frame ⟨h1, h2, by rw [h3]⟩
  | cfg c w ch h => exact State.setChan_frame (Channel.writeCfg_frame h)
  | setup u => exact ⟨rfl, rfl, rfl, by simp, rfl, rfl, rfl, by simp, by simp, by simp⟩

/-! ### The step -/

/-- Everything a step can do: it is a reset step, or the phases around at most one register access (R60). -/
theorem step_cases (s : State) :
    (s.nextInput.rst = true ∧ step s = .next s.resetStep) ∨
      (s.nextInput.rst = false ∧ s.nextInput.req = none ∧
        step s = .next (s.beforeAccess.afterAccess s.nextInput)) ∨
      (s.nextInput.rst = false ∧ ∃ req m r, s.nextInput.req = some req ∧ Edit s.beforeAccess m ∧
        exec (decodeRequest req) s.beforeAccess = .next (m.respond r) ∧
        step s = .next ((m.respond r).afterAccess s.nextInput)) := by
  unfold step
  cases hr : s.nextInput.rst with
  | true => exact .inl ⟨rfl, by simp⟩
  | false =>
    cases hq : s.nextInput.req with
    | none => exact .inr (.inl ⟨rfl, rfl, by simp⟩)
    | some req =>
      obtain ⟨m, r, hm, he⟩ := exec_cases (decodeRequest req) s.beforeAccess
      exact .inr (.inr ⟨rfl, req, m, r, rfl, hm, he, by simp [he]⟩)

/-- A step that is no reset step: some access, or none, has edited what the first phases leave, and the FSMs and the
issue follow. -/
theorem step_edit {s t : State} (h : step s = .next t) (hr : s.nextInput.rst = false) :
    ∃ m m', Edit s.beforeAccess m ∧ (m' = m ∨ ∃ r, m' = m.respond r) ∧ t = m'.afterAccess s.nextInput := by
  rcases step_cases s with ⟨hr', -⟩ | ⟨-, -, e⟩ | ⟨-, req, m, r, -, hm, -, e⟩
  · simp [hr] at hr'
  · rw [e] at h
    exact ⟨_, _, .same, .inl rfl, (Host.Outcome.next.inj h).symm⟩
  · rw [e] at h
    exact ⟨m, _, hm, .inr ⟨r, rfl⟩, (Host.Outcome.next.inj h).symm⟩

/-- A step that is no reset step goes on from what its register access leaves (R60). -/
theorem step_accessed {s : State} (hr : s.nextInput.rst = false) :
    step s = .next (s.accessed.afterAccess s.nextInput) := by
  unfold step State.accessed
  cases hq : s.nextInput.req with
  | none => simp [hr]
  | some req =>
    obtain ⟨m, r, -, he⟩ := exec_cases (decodeRequest req) s.beforeAccess
    simp [hr, he]

/-- What the register access of a step leaves is an edit of what the first phases leave. -/
theorem State.accessed_cases (s : State) :
    ∃ m, Edit s.beforeAccess m ∧ (s.accessed = m ∨ ∃ r, s.accessed = m.respond r) := by
  unfold State.accessed
  cases s.nextInput.req with
  | none => exact ⟨_, .same, .inl rfl⟩
  | some req =>
    obtain ⟨m, r, hm, he⟩ := exec_cases (decodeRequest req) s.beforeAccess
    exact ⟨m, hm, .inr ⟨r, by simp [he]⟩⟩

/-- The register access of a step reaches no line, no FSM, no memory, no port, no event and no input (R119). -/
theorem State.accessed_frame (s : State) : Edit.Frame s.beforeAccess s.accessed := by
  obtain ⟨m, hm, e | ⟨r, e⟩⟩ := s.accessed_cases
  · rw [e]
    exact hm.frame
  · have f := hm.frame
    rw [e]
    exact ⟨f.txFsm, f.rxFsm, f.mem, by simpa using f.port, f.inputs, f.clock, f.issued, by simpa using f.ready,
      by simpa using f.evt, by simpa using f.out⟩

/-! ### The phases -/

@[simp] theorem State.service_chan_same (s : State) (c : ChannelId) :
    (s.service c).chan c = (s.chan c).service c := by simp [State.service]

@[simp] theorem State.capture_chan_same (s : State) (arr : Arrivals) (c : ChannelId) :
    (s.capture arr c).chan c = (s.chan c).capture c (arr.get c) := by simp [State.capture]

/-- Phases 2 and 3 serve each channel on its own (R61). -/
theorem State.serviceAndCapture_eq (s : State) (arr : Arrivals) :
    s.serviceAndCapture arr =
      { s with
        rx := (s.rx.service .rx).capture .rx arr.rx
        tx := (s.tx.service .tx).capture .tx arr.tx } := rfl

/-- What the first phases leave for the register access of a step. -/
theorem State.beforeAccess_chan (s : State) (c : ChannelId) :
    s.beforeAccess.chan c = (((s.chan c).clearEvent).service c).capture c (s.environment.2.get c) := by
  have h := s.begin.memEvents_sameBlock s.nextInput.mem
  unfold State.beforeAccess
  rw [State.serviceAndCapture_eq]
  cases c
  · change ((s.environment.1.rx).service .rx).capture .rx _ = _
    rw [show s.environment.1.rx = s.begin.rx from h.rx]
    rfl
  · change ((s.environment.1.tx).service .tx).capture .tx _ = _
    rw [show s.environment.1.tx = s.begin.tx from h.tx]
    rfl

theorem State.beforeAccess_txFsm (s : State) : s.beforeAccess.txFsm = s.txFsm :=
  (s.begin.memEvents_sameBlock s.nextInput.mem).txFsm

theorem State.beforeAccess_rxFsm (s : State) : s.beforeAccess.rxFsm = s.rxFsm :=
  (s.begin.memEvents_sameBlock s.nextInput.mem).rxFsm

theorem State.beforeAccess_setup (s : State) : s.beforeAccess.setup = s.setup :=
  (s.begin.memEvents_sameBlock s.nextInput.mem).setup

theorem State.beforeAccess_issued (s : State) : s.beforeAccess.issued = [] :=
  (s.begin.memEvents_sameBlock s.nextInput.mem).issued

theorem State.beforeAccess_inputs (s : State) : s.beforeAccess.inputs = s.inputs.tail :=
  (s.begin.memEvents_sameBlock s.nextInput.mem).inputs

theorem State.beforeAccess_clock (s : State) : s.beforeAccess.clock = s.clock + 1 :=
  (s.begin.memEvents_sameBlock s.nextInput.mem).clock

theorem State.beforeAccess_mem (s : State) : s.beforeAccess.mem = s.environment.1.mem := rfl

theorem State.beforeAccess_port (s : State) (c : ChannelId) : s.beforeAccess.port c = s.environment.1.port c := by
  cases c <;> rfl

/-- Everything the issue of a channel can do (R121, R122). -/
theorem State.issue_cases (s : State) (c : ChannelId) :
    ((s.chan c).nextRequest c = none ∧ s.issue c = s) ∨
      ∃ r, (s.chan c).nextRequest c = some r ∧
        s.issue c = ((s.setChan c ((s.chan c).requested c r)).setPort c (some ⟨r, none⟩)).hand r := by
  unfold State.issue
  cases h : (s.chan c).nextRequest c with
  | none => exact .inl ⟨rfl, rfl⟩
  | some r => exact .inr ⟨r, rfl, rfl⟩

/-- What the issue of a channel leaves alone. -/
structure State.IssueFrame (s t : State) (c : ChannelId) : Prop where
  setup : t.setup = s.setup
  txFsm : t.txFsm = s.txFsm
  rxFsm : t.rxFsm = s.rxFsm
  busResp : t.busResp = s.busResp
  mem : t.mem = s.mem
  inputs : t.inputs = s.inputs
  clock : t.clock = s.clock
  other_chan : ∀ d, d ≠ c → t.chan d = s.chan d
  other_port : ∀ d, d ≠ c → t.port d = s.port d
  cur : (t.chan c).cur = (s.chan c).cur
  pend : (t.chan c).pend = (s.chan c).pend
  evt : (t.chan c).evt = (s.chan c).evt
  ready : (t.chan c).ready = (s.chan c).ready

theorem State.issue_frame (s : State) (c : ChannelId) : State.IssueFrame s (s.issue c) c := by
  rcases s.issue_cases c with ⟨-, e⟩ | ⟨r, -, e⟩ <;> rw [e]
  · exact ⟨rfl, rfl, rfl, rfl, rfl, rfl, rfl, fun _ _ => rfl, fun _ _ => rfl, rfl, rfl, rfl, rfl⟩
  · exact
      { setup := by simp
        txFsm := by simp
        rxFsm := by simp
        busResp := by simp
        mem := by simp
        inputs := by simp
        clock := by simp
        other_chan := fun d hd => by simp [State.setChan_chan_other _ _ _ _ hd]
        other_port := fun d hd => by simp [State.setPort_port_other _ _ _ _ hd]
        cur := by simp [Channel.requested]
        pend := by simp [Channel.requested]
        evt := by simp [Channel.requested]
        ready := by simp [Channel.requested] }

theorem State.protocol_gated (s : State) (v : Bool) : s.protocol false v = s := rfl

theorem State.protocol_enabled (s : State) (v : Bool) : s.protocol true v = s.txStep.rxStep v := rfl

/-- Phases 5 and 6 drive the FSMs and no other part of the block but the stages and requests of the channels. -/
theorem State.afterAccess_fsms (s : State) (i : StepInput) :
    (s.afterAccess i).txFsm = (s.protocol i.cg i.rxIn).txFsm ∧
      (s.afterAccess i).rxFsm = (s.protocol i.cg i.rxIn).rxFsm ∧
      (s.afterAccess i).setup = s.setup ∧ (s.afterAccess i).mem = s.mem ∧
      (s.afterAccess i).busResp = s.busResp ∧ (s.afterAccess i).inputs = s.inputs ∧
      (s.afterAccess i).clock = s.clock := by
  have h1 := (s.protocol i.cg i.rxIn).issue_frame .rx
  have h2 := ((s.protocol i.cg i.rxIn).issue .rx).issue_frame .tx
  have hp : (s.protocol i.cg i.rxIn).setup = s.setup ∧ (s.protocol i.cg i.rxIn).mem = s.mem ∧
      (s.protocol i.cg i.rxIn).busResp = s.busResp ∧ (s.protocol i.cg i.rxIn).inputs = s.inputs ∧
      (s.protocol i.cg i.rxIn).clock = s.clock := by
    cases i.cg <;> exact ⟨rfl, rfl, rfl, rfl, rfl⟩
  unfold State.afterAccess
  exact ⟨h2.txFsm.trans h1.txFsm, h2.rxFsm.trans h1.rxFsm, (h2.setup.trans h1.setup).trans hp.1,
    (h2.mem.trans h1.mem).trans hp.2.1, (h2.busResp.trans h1.busResp).trans hp.2.2.1,
    (h2.inputs.trans h1.inputs).trans hp.2.2.2.1, (h2.clock.trans h1.clock).trans hp.2.2.2.2⟩

/-! ### The channels keep fitting through the phases -/

theorem Edit.allFit {s t : State} {arr : Arrivals} (h : Edit s t) (hs : s.AllFit arr) : t.AllFit arr := by
  cases h with
  | same => exact hs
  | saddr c w => exact hs.setChan c _ (fun _ _ => rfl) ((hs.fit c).of_same rfl rfl rfl rfl rfl)
  | size c w => exact hs.setChan c _ (fun _ _ => rfl) ((hs.fit c).writeSize w)
  | cfg c w ch h => exact hs.setChan c _ (fun _ _ => rfl) ((hs.fit c).writeCfg h)
  | setup u => exact ⟨hs.mem, fun c => by simpa using hs.fit c⟩

theorem State.AllFit.respond {s : State} {arr : Arrivals} (h : s.AllFit arr) (r : BusResponse) :
    (s.respond r).AllFit arr := ⟨h.mem, fun c => by simpa using h.fit c⟩

theorem State.AllFit.begin {s : State} {arr : Arrivals} (h : s.AllFit arr) : s.begin.AllFit arr :=
  ⟨h.mem, fun c => by simpa using (h.fit c).clearEvent⟩

theorem State.AllFit.beforeAccess {s : State} (h : s.AllFit Arrivals.empty) :
    s.beforeAccess.AllFit Arrivals.empty := by
  have henv : s.environment.1.AllFit s.environment.2 := h.begin.memEvents _
  refine ⟨henv.mem, fun c => ?_⟩
  rw [s.beforeAccess_port, Arrivals.get_empty]
  have := henv.fit c
  cases c
  · exact this.service.capture
  · exact this.service.capture

/-- The transmitter only takes bytes off the front of the staging buffer (R132). -/
theorem TxFsm.step_suffix (u : Setup) (f : TxFsm) (stage : List Byte) : (f.step u stage).2 <:+ stage := by
  unfold TxFsm.step
  split
  · split
    · exact List.suffix_cons _ _
    · exact List.suffix_refl _
  · split <;> exact List.suffix_refl _
  · split <;> exact List.suffix_refl _
  · split <;> exact List.suffix_refl _
  · split
    · unfold TxFsm.endStop
      split
      · exact List.suffix_refl _
      · split
        · exact List.suffix_cons _ _
        · exact List.suffix_refl _
    · exact List.suffix_refl _

theorem State.AllFit.protocol {s : State} {arr : Arrivals} (h : s.AllFit arr) (cg v : Bool) :
    (s.protocol cg v).AllFit arr := by
  cases cg with
  | false => exact h
  | true =>
    refine ⟨h.mem, fun c => ?_⟩
    cases c with
    | rx => exact (h.fit .rx).pushed _
    | tx => exact (h.fit .tx).popped (TxFsm.step_suffix _ _ _)

theorem State.AllFit.issue {s : State} (h : s.AllFit Arrivals.empty) (c : ChannelId) :
    (s.issue c).AllFit Arrivals.empty := by
  rcases s.issue_cases c with ⟨-, e⟩ | ⟨r, hr, e⟩ <;> rw [e]
  · exact h
  · refine ⟨by simpa using h.mem, fun d => ?_⟩
    by_cases hd : d = c
    · subst hd
      have := h.fit d
      rw [Arrivals.get_empty] at this ⊢
      simpa using this.requested hr
    · rw [State.hand_chan, State.setPort_chan, State.setChan_chan_other _ _ _ _ hd, State.hand_port,
        State.setPort_port_other _ _ _ _ hd, State.setChan_port]
      exact h.fit d

theorem State.AllFit.resetStep {s : State} (h : s.AllFit Arrivals.empty) :
    s.resetStep.AllFit Arrivals.empty := by
  have henv : s.environment.1.AllFit s.environment.2 := h.begin.memEvents _
  refine ⟨henv.mem, fun c => ?_⟩
  rw [Arrivals.get_empty]
  cases c
  · exact (henv.fit .rx).afterReset
  · exact (henv.fit .tx).afterReset

/-- A step keeps memory canonical and both channels fitting their requests. -/
theorem State.AllFit.step {s t : State} (h : s.AllFit Arrivals.empty) (hs : Machine.step s = .next t) :
    t.AllFit Arrivals.empty := by
  cases hr : s.nextInput.rst with
  | true =>
    rcases step_cases s with ⟨-, e⟩ | ⟨hr', -⟩ | ⟨hr', -⟩
    · rw [e] at hs
      rw [← Host.Outcome.next.inj hs]
      exact h.resetStep
    · simp [hr] at hr'
    · simp [hr] at hr'
  | false =>
    obtain ⟨m, m', hm, hm', rfl⟩ := step_edit hs hr
    have h1 : m.AllFit Arrivals.empty := hm.allFit h.beforeAccess
    have h2 : m'.AllFit Arrivals.empty := by
      rcases hm' with rfl | ⟨r, rfl⟩
      · exact h1
      · exact h1.respond r
    exact ((h2.protocol _ _).issue .rx).issue .tx

end Sys2Proof.Machine
end

