-- ==== Sys2Proof/Laws/Fsm.lean ====
section
/-! SUPPORT. The counters and the shift register of the two FSMs, and what a step does to the FSMs, said once. -/

namespace Sys2Proof.Machine

open Sys2Proof

/-! ### Counters and the shift register -/

theorem Setup.bitTime_pos (u : Setup) : 0 < u.bitTime := Nat.succ_pos _

/-- A transmitted bit starts with the counter at `clkdiv`, `B - 1` (R140). -/
@[simp] theorem Setup.txLoad_eq (u : Setup) : u.txLoad = u.clkdiv := by
  simp [Setup.txLoad, Setup.bitTime]

/-- The counter after a sample is `B - 1` (R158 to R160). -/
theorem Setup.rxLoad_toNat (u : Setup) : u.rxLoad.toNat = u.clkdiv.toNat := by
  have := u.clkdiv.isLt
  simp only [Setup.rxLoad, Setup.bitTime, BitVec.toNat_ofNat]
  omega

/-- The counter at a start edge is `B + H - 1` (R157). -/
theorem Setup.rxFirstLoad_toNat (u : Setup) : u.rxFirstLoad.toNat = u.bitTime + u.halfBit - 1 := by
  have := u.clkdiv.isLt
  simp only [Setup.rxFirstLoad, Setup.bitTime, Setup.halfBit, BitVec.toNat_ofNat]
  omega

/-- A counter that is not 0 counts down without wrapping. -/
theorem counter_sub_one {n : Nat} (x : BitVec n) (h : x ≠ 0#n) : (x - 1#n).toNat = x.toNat - 1 := by
  have h0 : x.toNat ≠ 0 := fun h0 => h (BitVec.eq_of_toNat_eq (by simpa using h0))
  have hx := x.isLt
  cases n with
  | zero => omega
  | succ n =>
    have hlt : 1 < 2 ^ (n + 1) := Nat.one_lt_two_pow (by omega)
    rw [BitVec.toNat_sub, BitVec.toNat_ofNat, Nat.mod_eq_of_lt hlt,
      show 2 ^ (n + 1) - 1 + x.toNat = (x.toNat - 1) + 2 ^ (n + 1) by omega, Nat.add_mod_right,
      Nat.mod_eq_of_lt (by omega)]

/-- The bits of a byte after one is replaced. -/
theorem getLsbD_setBit (b : Byte) (i j : Fin 8) (v : Bool) :
    (setBit b i v).getLsbD j.val = if j = i then v else b.getLsbD j.val := by
  have := i.isLt
  have := j.isLt
  unfold setBit
  by_cases h : j = i
  · subst h
    cases v <;> simp
  · have h' : ¬ j.val = i.val := fun e => h (Fin.ext e)
    cases v <;> simp [h, h']

/-- The index of the next data bit. -/
theorem bit_succ (i : Fin 8) (h : i.val < 7) : i + 1 = (⟨i.val + 1, by omega⟩ : Fin 8) := by
  revert i
  decide

/-! ### What a step does to the FSMs -/

/-- A SETUP write is the only access that changes the UART configuration (R115, R119). -/
theorem exec_setup_of_ne {i : Instr} {s t : State} (h : exec i s = .next t) (hi : ∀ w, i ≠ .wrSetup w) :
    t.setup = s.setup := by
  have hcfg : ∀ c w, (s.writeCfg c w).setup = s.setup := by
    intro c w
    unfold State.writeCfg
    split <;> simp
  cases i with
  | wrSetup w => exact absurd rfl (hi w)
  | wrRxCfg w => exact (Host.Outcome.next.inj h) ▸ hcfg _ _
  | wrTxCfg w => exact (Host.Outcome.next.inj h) ▸ hcfg _ _
  | _ => exact (Host.Outcome.next.inj h) ▸ rfl

/-- What a step that resets nothing and writes no SETUP does to the FSMs: nothing with the clock gated; one FSM step
each with it running, the transmitter's over some staging buffer. The inputs of the step are used up. -/
theorem step_fsms {s t : State} (h : step s = .next t) (hk : keepsSetup s.nextInput) :
    t.setup = s.setup ∧ t.inputs = s.inputs.tail ∧
      (s.nextInput.cg = false → t.txFsm = s.txFsm ∧ t.rxFsm = s.rxFsm) ∧
      (s.nextInput.cg = true → (∃ stage, t.txFsm = (s.txFsm.step s.setup stage).1) ∧
        t.rxFsm = (s.rxFsm.step s.setup s.nextInput.rxIn).1) := by
  have key : ∃ m : State, m.setup = s.setup ∧ m.inputs = s.inputs.tail ∧ m.txFsm = s.txFsm ∧ m.rxFsm = s.rxFsm ∧
      t = m.afterAccess s.nextInput := by
    rcases step_cases s with ⟨hr, -⟩ | ⟨-, -, e⟩ | ⟨-, req, m, r, hq, hm, he, e⟩
    · simp [hk.1] at hr
    · rw [e] at h
      exact ⟨_, s.beforeAccess_setup, s.beforeAccess_inputs, s.beforeAccess_txFsm, s.beforeAccess_rxFsm,
        (Host.Outcome.next.inj h).symm⟩
    · rw [e] at h
      exact ⟨_, (exec_setup_of_ne he (hk.2 req hq)).trans s.beforeAccess_setup,
        hm.frame.inputs.trans s.beforeAccess_inputs, hm.frame.txFsm.trans s.beforeAccess_txFsm,
        hm.frame.rxFsm.trans s.beforeAccess_rxFsm, (Host.Outcome.next.inj h).symm⟩
  obtain ⟨m, h1, h2, h3, h4, rfl⟩ := key
  obtain ⟨a1, a2, a3, -, -, a6, -⟩ := m.afterAccess_fsms s.nextInput
  refine ⟨a3.trans h1, a6.trans h2, fun hc => ?_, fun hc => ?_⟩
  · rw [a1, a2, hc]
    exact ⟨h3, h4⟩
  · rw [a1, a2, hc, State.protocol_enabled, ← h1, ← h3, ← h4]
    exact ⟨⟨_, rfl⟩, rfl⟩

/-- Runs compose. -/
theorem runSteps_add {a : Nat} {s t : State} (b : Nat) (h : runSteps a s = .next t) :
    runSteps (a + b) s = runSteps b t := by
  induction a generalizing s with
  | zero =>
    obtain rfl := Host.Outcome.next.inj h
    simp
  | succ a ih =>
    rw [Nat.succ_add]
    change (match step s with
      | .next u => runSteps (a + b) u
      | .fault f => .fault f
      | .refused r => .refused r) = _
    cases hs : step s with
    | next u => exact ih (by simpa [runSteps, hs] using h)
    | fault f => simp [runSteps, hs] at h
    | refused r => simp [runSteps, hs] at h

end Sys2Proof.Machine
end

