-- ==== Sys2Proof/Laws/PerInstr.lean ====
section
/-! SUPPORT. The family of lemmas made per register access: the request a well-formed access is encoded as decodes to
the access (R86, R87, R90). One lemma per constructor of `Instr`. -/

namespace Sys2Proof.Laws.RequestRoundTrip

open Sys2Proof

/-- The request of a well-formed access stands for that access. -/
def Statement (i : Instr) : Prop := i.wellFormed = true → decodeRequest (encodeRequest i) = i

theorem rdRxSaddr : Statement .rdRxSaddr := fun _ => decodeRequest_readRequest .rxSaddr
theorem wrRxSaddr (wdata : Word) : Statement (.wrRxSaddr wdata) := fun _ => decodeRequest_writeRequest .rxSaddr wdata
theorem rdRxSize : Statement .rdRxSize := fun _ => decodeRequest_readRequest .rxSize
theorem wrRxSize (wdata : Word) : Statement (.wrRxSize wdata) := fun _ => decodeRequest_writeRequest .rxSize wdata
theorem rdRxCfg : Statement .rdRxCfg := fun _ => decodeRequest_readRequest .rxCfg
theorem wrRxCfg (wdata : Word) : Statement (.wrRxCfg wdata) := fun _ => decodeRequest_writeRequest .rxCfg wdata
theorem rdTxSaddr : Statement .rdTxSaddr := fun _ => decodeRequest_readRequest .txSaddr
theorem wrTxSaddr (wdata : Word) : Statement (.wrTxSaddr wdata) := fun _ => decodeRequest_writeRequest .txSaddr wdata
theorem rdTxSize : Statement .rdTxSize := fun _ => decodeRequest_readRequest .txSize
theorem wrTxSize (wdata : Word) : Statement (.wrTxSize wdata) := fun _ => decodeRequest_writeRequest .txSize wdata
theorem rdTxCfg : Statement .rdTxCfg := fun _ => decodeRequest_readRequest .txCfg
theorem wrTxCfg (wdata : Word) : Statement (.wrTxCfg wdata) := fun _ => decodeRequest_writeRequest .txCfg wdata
theorem rdStatus : Statement .rdStatus := fun _ => decodeRequest_readRequest .status
theorem wrStatus (wdata : Word) : Statement (.wrStatus wdata) := fun _ => decodeRequest_writeRequest .status wdata
theorem rdSetup : Statement .rdSetup := fun _ => decodeRequest_readRequest .setup
theorem wrSetup (wdata : Word) : Statement (.wrSetup wdata) := fun _ => decodeRequest_writeRequest .setup wdata

/-- A key of R91 and its data, which a read does not have, come back as they were presented. -/
theorem invalid (key : Key) (wdata : Word) : Statement (.invalid key wdata) := by
  intro h
  have h' : key ∉ validKeys ∧ (keyWrite key = true ∨ wdata = 0#32) := by
    simpa [Instr.wellFormed, keyWrite] using h
  have hw : (requestOfKey key wdata).dir.wdata = wdata := by
    unfold requestOfKey
    rcases h'.2 with hk | rfl
    · simp [hk, Direction.wdata]
    · cases keyWrite key <;> rfl
  change decodeKey (requestOfKey key wdata).key (requestOfKey key wdata).dir.wdata = _
  rw [requestOfKey_key, hw]
  rcases decodeKey_cases key wdata with ⟨-, e⟩ | ⟨hv, -⟩
  · exact e
  · exact absurd hv h'.1

end Sys2Proof.Laws.RequestRoundTrip
end

