-- ==== Sys2Proof/Tests/Slice0.lean ====
section
/-! SUPPORT. Tests: the well-formedness check, written-out words, single accesses and single steps with results taken
from the spec's vectors. -/

namespace Sys2Proof.Tests

open Sys2Proof Sys2Proof.Machine

/-! ### Well-formedness: one ill-formed term for each check -/

theorem test_wellFormed_refuses_valid_key : (Instr.invalid 0x100#10 0#32).wellFormed = false := by decide
theorem test_wellFormed_refuses_read_data : (Instr.invalid 0x102#10 1#32).wellFormed = false := by decide
theorem test_wellFormed_admits_write_data : (Instr.invalid 0x30C#10 1#32).wellFormed = true := by decide

/-! ### Decoding: a word for every constructor, written out from the table of R90 (key in bits 9:0, `wdata` from bit
16 on), and the decode vectors V-DEC1 to V-DEC9 -/

theorem test_decode_rdRxSaddr : decodeTableWord 16 0x100 = some .rdRxSaddr := by decide
theorem test_decode_wrRxSaddr : decodeTableWord 48 0x000020010300 = some (.wrRxSaddr 0x2001#32) := by decide
theorem test_decode_rdRxSize : decodeTableWord 16 0x104 = some .rdRxSize := by decide
theorem test_decode_wrRxSize : decodeTableWord 48 0x000000010304 = some (.wrRxSize 1#32) := by decide
theorem test_decode_rdRxCfg : decodeTableWord 16 0x108 = some .rdRxCfg := by decide
theorem test_decode_wrRxCfg : decodeTableWord 48 0x000000130308 = some (.wrRxCfg 0x13#32) := by decide
theorem test_decode_rdTxSaddr : decodeTableWord 16 0x110 = some .rdTxSaddr := by decide
theorem test_decode_wrTxSaddr : decodeTableWord 48 0xFFFFFFFF0310 = some (.wrTxSaddr 0xFFFFFFFF#32) := by decide
theorem test_decode_rdTxSize : decodeTableWord 16 0x114 = some .rdTxSize := by decide
theorem test_decode_wrTxSize : decodeTableWord 48 0x000000040314 = some (.wrTxSize 4#32) := by decide
theorem test_decode_rdTxCfg : decodeTableWord 16 0x118 = some .rdTxCfg := by decide
theorem test_decode_wrTxCfg : decodeTableWord 48 0x000000100318 = some (.wrTxCfg 0x10#32) := by decide
theorem test_decode_rdStatus : decodeTableWord 16 0x120 = some .rdStatus := by decide
theorem test_decode_wrStatus : decodeTableWord 48 0xFFFFFFFF0320 = some (.wrStatus 0xFFFFFFFF#32) := by decide
theorem test_decode_rdSetup : decodeTableWord 16 0x124 = some .rdSetup := by decide
theorem test_decode_wrSetup : decodeTableWord 48 0x000100060324 = some (.wrSetup 0x10006#32) := by decide
theorem test_decode_invalid : decodeTableWord 10 0x000 = some (.invalid 0x000#10 0#32) := by decide

theorem test_decode_byte_write : decodeTableWord 48 0x000000200210 = some (.invalid 0x210#10 0x20#32) := by decide
theorem test_decode_half_read : decodeTableWord 16 0x084 = some (.invalid 0x084#10 0#32) := by decide
theorem test_decode_wide_read : decodeTableWord 16 0x180 = some (.invalid 0x180#10 0#32) := by decide
theorem test_decode_misaligned : decodeTableWord 16 0x102 = some (.invalid 0x102#10 0#32) := by decide
theorem test_decode_reserved_write : decodeTableWord 48 0x00000000030C = some (.invalid 0x30C#10 0#32) := by decide
theorem test_decode_reserved_read : decodeTableWord 16 0x128 = some (.invalid 0x128#10 0#32) := by decide
theorem test_decode_last_offset : decodeTableWord 16 0x17C = some (.invalid 0x17C#10 0#32) := by decide

/-- A bit above bit 9 of the key unit is no request (log entry 3). -/
theorem test_decode_padding : decodeTableWord 16 0x400 = none := by decide

/-- A write with part of its data is no request (log entry 3). -/
theorem test_decode_truncated : decode [0x14#8, 0x03#8, 0#8] = .error .truncated := by decide

/-- 1008 of the 1024 keys are invalid (R91). -/
theorem test_invalid_keys : ((List.range 1024).countP fun k => !validKeys.contains (BitVec.ofNat 10 k)) = 1008 := by
  decide +kernel

/-- A request of 3 bytes has size code 11 (R86). -/
theorem test_decode_other_size : decodeRequest ⟨0x10#7, 3, .read⟩ = .invalid 0x190#10 0#32 := by decide

/-- The causes of R171, in the order of R87. -/
theorem test_causes :
    (BusRequest.invalidCause ⟨0x02#7, 2, .read⟩ = some .invSize) ∧
    (BusRequest.invalidCause ⟨0x02#7, 4, .read⟩ = some .invAlign) ∧
    (BusRequest.invalidCause ⟨0x0C#7, 4, .read⟩ = some .invOffset) ∧
    (BusRequest.invalidCause ⟨0x08#7, 4, .write 6#32⟩ = some .invValue) ∧
    (BusRequest.invalidCause ⟨0x24#7, 4, .write 6#32⟩ = none) := by decide

/-! ### Single accesses -/

/-- The answer of an access. -/
def answer (i : Instr) (s : State) : Option BusResponse :=
  match exec i s with
  | .next t => t.busResp
  | .fault _ => none
  | .refused _ => none

/-- The state after an access. -/
def after (i : Instr) (s : State) : State :=
  match exec i s with
  | .next t => t
  | .fault _ => s
  | .refused _ => s

/-- V-REG1. -/
theorem test_rxSaddr_read_back :
    answer .rdRxSaddr (after (.wrRxSaddr 0x2001#32) .reset) = some (.okRead 0x2001#32) := by decide

/-- V-REG2. -/
theorem test_txSaddr_read_back :
    answer .rdTxSaddr (after (.wrTxSaddr 0xFFFFFFFF#32) .reset) = some (.okRead 0xFFFFFFFF#32) := by decide

/-- V-REG3: with EN = 0 nothing is armed. -/
theorem test_txSize_not_enabled :
    answer .rdTxSize (after (.wrTxSize 4#32) .reset) = some (.okRead 0#32) ∧
    answer .rdTxCfg (after (.wrTxSize 4#32) .reset) = some (.okRead 0#32) := by decide

/-- V-REG4, V-REG5: a size of 0 arms nothing, bits 31:20 ignored. -/
theorem test_txSize_zero :
    answer .rdTxCfg (after (.wrTxSize 0#32) (after (.wrTxCfg 0x10#32) .reset)) = some (.okRead 0x10#32) ∧
    answer .rdTxCfg (after (.wrTxSize 0x100000#32) (after (.wrTxCfg 0x10#32) .reset)) = some (.okRead 0x10#32) := by
  decide

/-- V-REG6: the reserved DATASIZE code rejects the whole write. -/
theorem test_txCfg_reserved :
    answer (.wrTxCfg 0x16#32) (after (.wrTxCfg 0x10#32) .reset) = some .invalid ∧
    answer .rdTxCfg (after (.wrTxCfg 0x16#32) (after (.wrTxCfg 0x10#32) .reset)) = some (.okRead 0x10#32) := by decide

/-- V-REG7: the reserved PARITY code rejects the whole write. -/
theorem test_setup_reserved :
    answer (.wrSetup 3#32) .reset = some .invalid ∧
    answer .rdSetup (after (.wrSetup 3#32) .reset) = some (.okRead 0#32) := by decide

/-- V-REG8, V-REG9. -/
theorem test_setup_read_back :
    answer .rdSetup (after (.wrSetup 0x10006#32) .reset) = some (.okRead 0x10006#32) ∧
    answer .rdSetup (after (.wrSetup 0xFFFFFFFC#32) .reset) = some (.okRead 0xFFFF0004#32) := by decide

/-- V-REG10, V-REG12. -/
theorem test_rxCfg_read_back :
    answer .rdRxCfg (after (.wrRxCfg 0x13#32) .reset) = some (.okRead 0x13#32) ∧
    answer .rdRxCfg (after (.wrRxCfg 0xFFFFFFB9#32) .reset) = some (.okRead 0x11#32) := by decide

/-- V-REG11: an armed transfer shows as PENDING, and its size reads as what remains. -/
theorem test_rxSize_arms :
    answer .rdRxCfg (after (.wrRxSize 1#32) (after (.wrRxCfg 0x11#32) .reset)) = some (.okRead 0x31#32) ∧
    answer .rdRxSize (after (.wrRxSize 5#32) (after (.wrRxCfg 0x11#32) .reset)) = some (.okRead 5#32) := by decide

/-- V-REG13, V-DEC10. -/
theorem test_status :
    answer .rdStatus .reset = some (.okRead 0#32) ∧
    exec (.wrStatus 0xFFFFFFFF#32) .reset = .next (State.reset.respond .okWrite) := ⟨by decide, rfl⟩

/-- V-REG14: a byte write arms nothing. -/
theorem test_invalid_access :
    answer (decodeRequest ⟨0x14#7, 1, .write 4#32⟩) (after (.wrTxCfg 0x10#32) .reset) = some .invalid ∧
    (after (decodeRequest ⟨0x14#7, 1, .write 4#32⟩) (after (.wrTxCfg 0x10#32) .reset)).tx.cur = none := by decide

/-! ### Single steps -/

/-- The state after a step. -/
def afterStep (s : State) : State :=
  match step s with
  | .next t => t
  | .fault _ => s
  | .refused _ => s

/-- Inputs with the clock running and the line idle. -/
def runInput (req : Option BusRequest) (mem : List MemEvent) : StepInput := ⟨false, true, true, req, mem⟩

/-- A TX transfer of 4 bytes in units of 4 at 0x1000, not begun. -/
def transfer : Descriptor := ⟨0x1000#32, 4#20, .four, false, 0x1000#32, 4, 0⟩

/-- The TX channel enabled and idle. -/
def txEnabled : State := { State.reset with tx := { Channel.reset with saddr := 0x1000#32, ds := .four, en := true } }

/-- A TX read of the whole transfer is out. -/
def txReading : State :=
  { State.reset with
    tx := { Channel.reset with
      saddr := 0x1000#32, size := 4#20, ds := .four, en := true
      cur := some transfer, out := some ⟨0x1000#32, 4, false⟩ }
    mem := [(0x1000, 0x48#8), (0x1001, 0x49#8)]
    portTx := some ⟨⟨.tx, 0x1000#32, 4, .read⟩, none⟩
    inputs := [runInput none [.answer .tx]] }

/-- The response to that read is captured. -/
def txCaptured : State :=
  { txReading with
    tx := { txReading.tx with ready := some [0x48#8, 0x49#8, 0x00#8, 0x00#8] }
    portTx := none
    inputs := [runInput none []] }

/-- An RX write of four bytes is out. -/
def rxWriting : State :=
  { State.reset with
    rx := { Channel.reset with
      saddr := 0x1000#32, size := 4#20, ds := .four, en := true
      cur := some transfer, out := some ⟨0x1000#32, 4, false⟩ }
    portRx := some ⟨⟨.rx, 0x1000#32, 4, .write [1#8, 2#8, 3#8, 4#8]⟩, none⟩
    inputs := [runInput none [.answer .rx]] }

/-- The last byte of an RX transfer is about to be sampled: bits 6:0 of 0x5A are in, bit 7 comes. -/
def rxSampling : State :=
  { State.reset with
    rx := { Channel.reset with
      saddr := 0x2000#32, size := 1#20, en := true
      cur := some ⟨0x2000#32, 1#20, .one, false, 0x2000#32, 1, 0⟩ }
    rxFsm := ⟨.data, 0x5A#8, 7, 0#17, true⟩ }

/-- P1, step 2: the arming write hands the first read over in the same step (R121). -/
theorem test_arming_issues :
    (afterStep { txEnabled with inputs := [runInput (some (writeRequest .txSize 4#32)) []] }).issued =
      [⟨.tx, 0x1000#32, 4, .read⟩] := by decide +kernel

/-- R77, R123: the answer brings memory's bytes, an unwritten byte 0 (log entry 4). -/
theorem test_answer_captured :
    (afterStep txReading).tx.ready = some [0x48#8, 0x49#8, 0x00#8, 0x00#8] := by decide +kernel

/-- R127, R142: the pass ends, the event pulses, and the first byte goes on the line in the same step. -/
theorem test_pass_end :
    (afterStep txCaptured).tx.evt = true ∧ (afterStep txCaptured).tx.cur = none ∧
    (afterStep txCaptured).tx.stage = [0x49#8, 0x00#8, 0x00#8] ∧ (afterStep txCaptured).txFsm.shift = 0x48#8 ∧
    (afterStep txCaptured).txOut = false := by decide +kernel

/-- R78: the answer to a write leaves its bytes in memory. -/
theorem test_write_lands :
    (afterStep rxWriting).mem = [(0x1000, 1#8), (0x1001, 2#8), (0x1002, 3#8), (0x1003, 4#8)] := by decide +kernel

/-- R83, R78: a write answered with an error status leaves its bytes in memory too. -/
theorem test_failed_write_lands :
    (afterStep { rxWriting with inputs := [runInput none [.answerError .rx []]] }).mem = (afterStep rxWriting).mem := by
  decide +kernel

/-- R159, R131, R122: the eighth data sample pushes the byte, which is written in the same step; 0x5A with bit 7 set
is 0xDA. -/
theorem test_push_issues :
    (afterStep { rxSampling with inputs := [runInput none []] }).issued =
      [⟨.rx, 0x2000#32, 1, .write [0xDA#8]⟩] := by decide +kernel

/-- P6, step 4 (V-RS2, V-RS3): a reset step answers INVALID and keeps the outstanding request to be discarded. -/
theorem test_reset_step :
    (afterStep { txReading with inputs := [⟨true, true, true, some (readRequest .txCfg), []⟩] }).busResp =
      some .invalid ∧
    (afterStep { txReading with inputs := [⟨true, true, true, some (readRequest .txCfg), []⟩] }).tx.out =
      some ⟨0x1000#32, 4, true⟩ := by decide +kernel

/-- The access placed is the one the next step runs, from reset. -/
theorem test_withFetchWord : (afterStep (State.reset.withFetchWord 48 0xFFFF00040324)).setup =
    ⟨.noParity, true, 0xFFFF#16⟩ := by decide +kernel

/-- R147: parity of 0x55 (four ones) and of 0x80 (one). -/
theorem test_parity : parityBit 0x55#8 .even = false ∧ parityBit 0x80#8 .even = true ∧ parityBit 0x80#8 .odd = false := by
  decide

end Sys2Proof.Tests
end

