-- ==== Sys2Proof/Tests/Witnesses.lean ====
section
/-! SUPPORT. For every statement with hypotheses, values that meet them, clause by clause: a statement's hypotheses can
be met together. -/

namespace Sys2Proof.Tests

open Sys2Proof Sys2Proof.Machine

theorem witness_EncodedAccessDecodesBack :
    (Instr.wrTxSize 4#32).wellFormed = true ∧ (Instr.invalid 0x3FF#10 0xFFFFFFFF#32).wellFormed = true := by decide

/-- Each way to be rejected, and an access next to it that is not. -/
theorem witness_InvalidAccessOutcome :
    (3 ≠ 4 ∧ (0x02#7).toNat % 4 ≠ 0 ∧ (0x28#7).toNat ∉ [0x00, 0x04, 0x08, 0x10, 0x14, 0x18, 0x20, 0x24]) ∧
    ((0x24#7).toNat ∈ [0x00, 0x04, 0x08, 0x10, 0x14, 0x18, 0x20, 0x24] ∧ (0x24#7).toNat % 4 = 0) ∧
    ((6#32).toNat / 2 % 4 = 3 ∧ (5#32).toNat / 2 % 4 ≠ 3 ∧ (7#32).toNat % 4 = 3 ∧ (6#32).toNat % 4 ≠ 3) := by decide

theorem witness_DecodedAccessRuns :
    ∃ s i later r, s.inputs = i :: later ∧ i.rst = false ∧ i.req = some r ∧ s = { txEnabled with inputs := [i] } :=
  ⟨_, runInput (some (writeRequest .txSize 4#32)) [], [], writeRequest .txSize 4#32, rfl, rfl, rfl, rfl⟩

theorem witness_PlacedWordRuns : decodeTableWord 48 0x000000040314 = some (.wrTxSize 4#32) := by decide

/-- A channel with all its descriptors in use, and one with one left. -/
def fullChannel : Channel :=
  { Channel.reset with en := true, cur := some transfer, pend := [transfer, transfer, transfer] }
def nearlyFullChannel : Channel := { Channel.reset with en := true, cur := some transfer, pend := [transfer, transfer] }

theorem witness_SizeReadAnswersRemaining : State.reset.tx.cur = none ∧ txReading.tx.cur = some transfer := by decide

theorem witness_SizeWriteStoresAndArms :
    (Channel.reset.en = false ∧ (0x100000#32).toNat % 2 ^ 20 = 0 ∧ fullChannel.used = 4) ∧
    (txEnabled.tx.en = true ∧ (1#32).toNat % 2 ^ 20 ≠ 0 ∧ txEnabled.tx.used ≠ 4 ∧ txEnabled.tx.cur = none) ∧
    (nearlyFullChannel.en = true ∧ (0xFFFFF#32).toNat % 2 ^ 20 ≠ 0 ∧ nearlyFullChannel.used ≠ 4 ∧
      nearlyFullChannel.cur ≠ none) := by decide

theorem witness_CfgWriteStoresAndClears :
    (6#32).toNat / 2 % 4 = 3 ∧ ((0x15#32).toNat / 2 % 4 ≠ 3 ∧ (0x15#32).getLsbD 6 = false) ∧
    ((0x55#32).toNat / 2 % 4 ≠ 3 ∧ (0x55#32).getLsbD 6 = true) := by decide

theorem witness_SetupWriteStoresFields : (3#32).toNat % 4 = 3 ∧ (0x10006#32).toNat % 4 ≠ 3 := by decide

theorem witness_InvalidChangesNothing :
    0x30C#10 ∉ validKeys ∧ BusRequest.key ⟨0x0C#7, 4, .write 5#32⟩ = 0x30C#10 := by decide

/-- Every read of the reserved-bits statement answers with data. -/
theorem witness_ReservedBitsIgnored :
    answer (rdSize .tx) txReading = some (.okRead 4#32) ∧ answer (rdCfg .tx) txReading = some (.okRead 0x34#32) ∧
    answer .rdStatus txReading = some (.okRead 0#32) ∧ answer .rdSetup txReading = some (.okRead 0#32) := by decide

/-- A unit of one byte of a transfer of four. -/
def unitCaptured : State :=
  { txCaptured with tx := { txCaptured.tx with out := some ⟨0x1000#32, 1, false⟩, ready := some [0x48#8] } }

/-- A discarded response, a unit within a pass, and the end of a pass: continuous, one pending, nothing pending. -/
theorem witness_ServiceMovesUnitAndEndsPass :
    (({ txCaptured.tx with out := some ⟨0x1000#32, 4, true⟩ } : Channel).ready = some [0x48#8, 0x49#8, 0#8, 0#8] ∧
      ({ txCaptured.tx with out := some ⟨0x1000#32, 4, true⟩ } : Channel).out = some ⟨0x1000#32, 4, true⟩) ∧
    ((unitCaptured.chan .tx).ready = some [0x48#8] ∧ (unitCaptured.chan .tx).out = some ⟨0x1000#32, 1, false⟩ ∧
      (unitCaptured.chan .tx).cur = some transfer ∧ 1 < transfer.remainingSize) ∧
    ((txCaptured.chan .tx).ready = some [0x48#8, 0x49#8, 0#8, 0#8] ∧
      (txCaptured.chan .tx).out = some ⟨0x1000#32, 4, false⟩ ∧ (txCaptured.chan .tx).cur = some transfer ∧
      transfer.remainingSize = 4 ∧ transfer.continuous = false ∧ (txCaptured.chan .tx).pend = []) ∧
    ({ txCaptured.tx with pend := [transfer] } : Channel).pend = transfer :: [] ∧
    ({ transfer with continuous := true } : Descriptor).continuous = true := by decide

/-- A step in which the event pulses and one in which it does not. -/
theorem witness_EventExactlyAtPassEnd :
    step txCaptured = .next (afterStep txCaptured) ∧ (afterStep txCaptured).tx.evt = true ∧
    step unitCaptured = .next (afterStep unitCaptured) ∧ (afterStep unitCaptured).tx.evt = false :=
  ⟨rfl, by decide +kernel, rfl, by decide +kernel⟩

/-! #### States that meet the invariant -/

theorem transfer_active : transfer.Active := ⟨by decide, by decide, by decide, by decide, by decide⟩

/-- A channel whose only transfer is current and whose request, if one is out, is for its next unit. -/
theorem channel_ok {c : Channel} {d : Descriptor} (hc : c.cur = some d) (hd : d.Active) (hp : c.pend = [])
    (hs : c.stage = []) (ho : c.ready = none ∧ c.out = none ∨ c.out = some ⟨d.currentAddress, d.nextN, false⟩) :
    c.Ok where
  pool := by simp [Channel.used, hc, hp, Config.poolDepth]
  idle_pend := fun _ => hp
  active := fun d' h => by
    rw [hc] at h
    cases h
    exact hd
  fresh := fun d' h => by simp [hp] at h
  stage_le := by simp [hs]
  ready_out := fun h => by
    rcases ho with ho | ho
    · exact absurd ho.1 h
    · simp [ho]
  out_bytes := fun o h => by
    rcases ho with ho | ho
    · simp [ho.2] at h
    · rw [ho] at h
      cases h
      exact ⟨Descriptor.nextN_pos hd.remaining_pos, d.nextN_le⟩
  out_unit := fun o h _ => by
    rcases ho with ho | ho
    · simp [ho.2] at h
    · rw [ho] at h
      cases h
      exact ⟨d, hc, rfl, rfl⟩

/-- A channel at rest. -/
theorem idle_ok {c : Channel} (hc : c.cur = none) (hp : c.pend = []) (hs : c.stage = []) (ho : c.out = none)
    (hr : c.ready = none) : c.Ok ∧ c.TxOk ∧ c.RxOk :=
  ⟨⟨by simp [Channel.used, hc, hp], fun _ => hp, fun d h => by simp [hc] at h, fun d h => by simp [hp] at h,
      by simp [hs], fun h => absurd hr h, fun o h => by simp [ho] at h, fun o h => by simp [ho] at h⟩,
    ⟨fun _ => hs, fun h => absurd hc h, fun o b h => by simp [ho] at h⟩,
    ⟨fun _ => hs, fun d h => by simp [hc] at h, fun b h => by simp [hr] at h⟩⟩

/-- The port holds nothing for a channel at rest. -/
theorem idle_port {s : State} {id : ChannelId} (hp : s.port id = none) (ho : (s.chan id).out = none) : s.PortOk id :=
  ⟨by simp [hp, ho], fun e o h => by simp [hp] at h⟩

theorem txReading_inv : txReading.Inv where
  mem := by decide
  rx := (idle_ok rfl rfl rfl rfl rfl).1
  tx := channel_ok (d := transfer) rfl transfer_active rfl rfl (.inr rfl)
  rx_own := (idle_ok rfl rfl rfl rfl rfl).2.2
  tx_own := ⟨fun _ => rfl, fun _ _ => by decide, fun o b _ h => by cases h⟩
  port_rx := idle_port rfl rfl
  port_tx := ⟨rfl, fun e o he ho => by
    cases he
    cases ho
    exact ⟨rfl, rfl, rfl, rfl, fun b h => by cases h⟩⟩
  line := rfl
  rx_count := Nat.zero_le _

theorem txCaptured_inv : txCaptured.Inv where
  mem := by decide
  rx := (idle_ok rfl rfl rfl rfl rfl).1
  tx := channel_ok (d := transfer) rfl transfer_active rfl rfl (.inr rfl)
  rx_own := (idle_ok rfl rfl rfl rfl rfl).2.2
  tx_own := ⟨fun _ => rfl, fun _ _ => by decide, fun o b ho h => by
    cases ho
    cases h
    rfl⟩
  port_rx := idle_port rfl rfl
  port_tx := ⟨rfl, fun e o he => by cases he⟩
  line := rfl
  rx_count := Nat.zero_le _

/-- Inputs are no part of the invariant. -/
theorem inv_inputs {s : State} (h : s.Inv) (inputs : List StepInput) : ({ s with inputs := inputs } : State).Inv :=
  ⟨h.mem, h.rx, h.tx, h.rx_own, h.tx_own, ⟨h.port_rx.holds, h.port_rx.entry⟩, ⟨h.port_tx.holds, h.port_tx.entry⟩,
    h.line, h.rx_count⟩

/-- The read of `txReading`, which the port may have performed, and what the port does next. -/
def txReadingWith (performed : Option (List Byte)) (mem : List MemEvent) : State :=
  { txReading with portTx := some ⟨⟨.tx, 0x1000#32, 4, .read⟩, performed⟩, inputs := [runInput none mem] }

theorem txReadingWith_inv {performed : Option (List Byte)} (h : ∀ b, performed = some b → b.length = 4)
    (mem : List MemEvent) : (txReadingWith performed mem).Inv :=
  { txReading_inv with
    port_rx := idle_port rfl rfl
    port_tx := ⟨rfl, fun e o he ho => by
      cases he
      cases ho
      exact ⟨rfl, rfl, rfl, rfl, h⟩⟩ }

/-- The write of `rxWriting`, which the port may have performed, and what the port does next. -/
def rxWritingWith (performed : Option (List Byte)) (mem : List MemEvent) : State :=
  { rxWriting with
    portRx := some ⟨⟨.rx, 0x1000#32, 4, .write [1#8, 2#8, 3#8, 4#8]⟩, performed⟩, inputs := [runInput none mem] }

theorem rxWritingWith_inv {performed : Option (List Byte)} (h : ∀ b, performed = some b → b = [])
    (mem : List MemEvent) : (rxWritingWith performed mem).Inv where
  mem := rfl
  rx := channel_ok (d := transfer) rfl transfer_active rfl rfl (.inr rfl)
  tx := (idle_ok rfl rfl rfl rfl rfl).1
  rx_own := ⟨fun _ => rfl, fun _ _ _ h => Option.some_ne_none _ h, fun b h => by cases h⟩
  tx_own := (idle_ok rfl rfl rfl rfl rfl).2.1
  port_rx := ⟨rfl, fun e o he ho => by
    cases he
    cases ho
    exact ⟨rfl, rfl, rfl, ⟨_, rfl, rfl⟩, h⟩⟩
  port_tx := idle_port rfl rfl
  line := rfl
  rx_count := Nat.zero_le _

/-- The same write after CLR: it is to be discarded (R130). -/
def rxDiscarding : State :=
  { rxWriting with rx := { rxWriting.rx with cur := none, out := some ⟨0x1000#32, 4, true⟩ } }

theorem rxDiscarding_inv : rxDiscarding.Inv where
  mem := by decide
  rx :=
    { pool := by decide
      idle_pend := fun _ => rfl
      active := fun d h => by cases h
      fresh := fun d h => by cases h
      stage_le := by decide
      ready_out := fun h => absurd rfl h
      out_bytes := fun o h => by
        cases h
        decide
      out_unit := fun o h hd => by
        cases h
        cases hd }
  tx := (idle_ok rfl rfl rfl rfl rfl).1
  rx_own := ⟨fun _ => rfl, fun d h => (by cases h), fun b h => by cases h⟩
  tx_own := (idle_ok rfl rfl rfl rfl rfl).2.1
  port_rx := ⟨rfl, fun e o he ho => by
    cases he
    cases ho
    exact ⟨rfl, rfl, rfl, ⟨_, rfl, rfl⟩, fun b h => by cases h⟩⟩
  port_tx := idle_port rfl rfl
  line := rfl
  rx_count := Nat.zero_le _

theorem rxSampling_inv : rxSampling.Inv where
  mem := by decide
  rx := channel_ok (d := ⟨0x2000#32, 1#20, .one, false, 0x2000#32, 1, 0⟩) rfl
    ⟨by decide, by decide, by decide, by decide, by decide⟩ rfl rfl (.inl ⟨rfl, rfl⟩)
  tx := (idle_ok rfl rfl rfl rfl rfl).1
  rx_own := ⟨fun _ => rfl, fun d hd h => by
    cases hd
    exact absurd h (by decide), fun b h => by cases h⟩
  tx_own := (idle_ok rfl rfl rfl rfl rfl).2.1
  port_rx := idle_port rfl rfl
  port_tx := idle_port rfl rfl
  line := rfl
  rx_count := Nat.zero_le _

/-- A state at rest, enabled, keeps the invariant whatever its inputs. -/
theorem txEnabled_inv (inputs : List StepInput) : ({ txEnabled with inputs := inputs } : State).Inv where
  mem := rfl
  rx := (idle_ok rfl rfl rfl rfl rfl).1
  tx := (idle_ok rfl rfl rfl rfl rfl).1
  rx_own := (idle_ok rfl rfl rfl rfl rfl).2.2
  tx_own := (idle_ok rfl rfl rfl rfl rfl).2.1
  port_rx := idle_port rfl rfl
  port_tx := idle_port rfl rfl
  line := rfl
  rx_count := Nat.zero_le _

theorem witness_RetiredTransferIsWhole :
    txCaptured.Inv ∧ step txCaptured = .next (afterStep txCaptured) ∧ ((afterStep txCaptured).chan .tx).evt = true ∧
    (txCaptured.chan .tx).cur = some transfer ∧ transfer.continuous = false ∧ (txCaptured.chan .tx).pend = [] ∧
    txCaptured.nextInput.req = none :=
  ⟨txCaptured_inv, rfl, by decide +kernel, rfl, rfl, rfl, rfl⟩

/-- A pass of whole units, and one whose last unit is short. -/
theorem witness_PassRequestsCoverTheBuffer :
    transfer.Fresh ∧ transfer.totalSize.toNat ≤ 4 ∧ transfer.units 4 = [(0x1000#32, 4)] ∧
    (⟨0x100#32, 6#20, .four, false, 0x100#32, 6, 0⟩ : Descriptor).Fresh ∧
    (⟨0x100#32, 6#20, .four, false, 0x100#32, 6, 0⟩ : Descriptor).units 6 = [(0x100#32, 4), (0x104#32, 2)] :=
  ⟨⟨by decide, rfl, rfl, rfl⟩, by decide, by decide, ⟨by decide, rfl, rfl, rfl⟩, by decide⟩

theorem witness_WrappedPassRepeats :
    transfer.currentAddress = transfer.startAddress ∧ transfer.remainingSize = transfer.totalSize.toNat ∧
    transfer.totalSize.toNat ≤ 4 ∧ transfer.units 4 ≠ [] := by decide

theorem witness_TxIssuesWhenStageEmpty :
    (State.reset.tx.cur = none ∧ txReading.tx.out ≠ none ∧
      ({ Channel.reset with stage := [1#8] } : Channel).stage ≠ []) ∧
    ({ txReading.tx with out := none } : Channel).cur = some transfer ∧
    ({ txReading.tx with out := none } : Channel).stage = [] := by decide

theorem witness_RxIssuesWhenUnitStaged :
    (rxWriting.rx.cur = some transfer ∧ rxWriting.rx.out ≠ none ∧
      [1#8, 2#8, 3#8].length < min transfer.unitSize.bytes transfer.remainingSize) ∧
    ({ rxWriting.rx with out := none } : Channel).cur = some transfer ∧
    [1#8, 2#8, 3#8, 4#8].length = min transfer.unitSize.bytes transfer.remainingSize := by decide

/-- A step that hands a request over. -/
theorem witness_RequestsAreSequential :
    step { rxSampling with inputs := [runInput none []] } =
      .next (afterStep { rxSampling with inputs := [runInput none []] }) ∧
    (afterStep { rxSampling with inputs := [runInput none []] }).issued ≠ [] := ⟨rfl, by decide +kernel⟩

/-- Room for one more byte, no room, and no transfer. -/
theorem witness_PushStagesOrDrops :
    (rxWriting.rx.cur ≠ none ∧ [1#8, 2#8, 3#8].length < 4) ∧ Channel.reset.cur = none ∧
    4 ≤ [1#8, 2#8, 3#8, 4#8].length := by decide

/-- A read performed by its answer, one performed before, and one answered with an error status. -/
theorem witness_ReadAnswerBringsMemory :
    ((txReadingWith none [.answer .tx]).Inv ∧
      (txReadingWith none [.answer .tx]).portTx = some ⟨⟨.tx, 0x1000#32, 4, .read⟩, none⟩ ∧
      (txReadingWith none [.answer .tx]).nextInput.mem = [.answer .tx]) ∧
    ((txReadingWith (some [1#8, 2#8, 3#8, 4#8]) [.answer .tx]).Inv ∧
      (txReadingWith (some [1#8, 2#8, 3#8, 4#8]) [.answer .tx]).portTx =
        some ⟨⟨.tx, 0x1000#32, 4, .read⟩, some [1#8, 2#8, 3#8, 4#8]⟩) ∧
    ((txReadingWith none [.answerError .tx [5#8, 6#8, 7#8, 8#8]]).Inv ∧
      (txReadingWith none [.answerError .tx [5#8, 6#8, 7#8, 8#8]]).nextInput.mem =
        [.answerError .tx [5#8, 6#8, 7#8, 8#8]] ∧
      (txReadingWith none [.answerError .tx [5#8, 6#8, 7#8, 8#8]]).nextInput.rst = false ∧
      (txReadingWith none [.answerError .tx [5#8, 6#8, 7#8, 8#8]]).tx.out = some ⟨0x1000#32, 4, false⟩) := by
  refine ⟨⟨txReadingWith_inv ?_ _, rfl, rfl⟩, ⟨txReadingWith_inv ?_ _, rfl⟩, txReadingWith_inv ?_ _, rfl, rfl, rfl⟩ <;>
    rintro b ⟨⟩
  rfl

/-- A write performed by its answer and by an answer with an error status, one performed before, one discarded. -/
theorem witness_WriteAnswerLandsInMemory :
    ((rxWritingWith none [.answer .rx]).Inv ∧ (rxWritingWith none [.answer .rx]).nextInput.mem = [.answer .rx] ∧
      (rxWritingWith none [.answer .rx]).portRx =
        some ⟨⟨.rx, 0x1000#32, 4, .write [1#8, 2#8, 3#8, 4#8]⟩, none⟩ ∧
      (rxWritingWith none [.answer .rx]).rx.out = some ⟨0x1000#32, 4, false⟩) ∧
    ((rxWritingWith none [.answerError .rx []]).Inv ∧
      (rxWritingWith none [.answerError .rx []]).nextInput.mem = [.answerError .rx []]) ∧
    ((rxWritingWith (some []) [.answer .rx]).Inv ∧
      (rxWritingWith (some []) [.answer .rx]).portRx =
        some ⟨⟨.rx, 0x1000#32, 4, .write [1#8, 2#8, 3#8, 4#8]⟩, some []⟩) ∧
    (rxDiscarding.Inv ∧ rxDiscarding.nextInput.mem = [.answer .rx] ∧
      rxDiscarding.rx.out = some ⟨0x1000#32, 4, true⟩) := by
  refine ⟨⟨rxWritingWith_inv ?_ _, rfl, rfl, rfl⟩, ⟨rxWritingWith_inv ?_ _, rfl⟩, ⟨rxWritingWith_inv ?_ _, rfl⟩,
    rxDiscarding_inv, rfl, rfl⟩ <;> rintro b ⟨⟩
  rfl

/-- A read and a write the port performs, and a read it has performed before. -/
theorem witness_RequestPerformedOnce :
    ((txReadingWith none [.perform .tx]).Inv ∧ (txReadingWith none [.perform .tx]).nextInput.mem = [.perform .tx] ∧
      (txReadingWith none [.perform .tx]).port .tx = some ⟨⟨.tx, 0x1000#32, 4, .read⟩, none⟩ ∧
      ((txReadingWith none [.perform .tx]).chan .tx).out = some ⟨0x1000#32, 4, false⟩) ∧
    ((rxWritingWith none [.perform .rx]).Inv ∧ (rxWritingWith none [.perform .rx]).nextInput.mem = [.perform .rx] ∧
      (rxWritingWith none [.perform .rx]).port .rx =
        some ⟨⟨.rx, 0x1000#32, 4, .write [1#8, 2#8, 3#8, 4#8]⟩, none⟩ ∧
      ((rxWritingWith none [.perform .rx]).chan .rx).out = some ⟨0x1000#32, 4, false⟩) ∧
    ((txReadingWith (some [1#8, 2#8, 3#8, 4#8]) [.perform .tx]).Inv ∧
      (txReadingWith (some [1#8, 2#8, 3#8, 4#8]) [.perform .tx]).port .tx =
        some ⟨⟨.tx, 0x1000#32, 4, .read⟩, some [1#8, 2#8, 3#8, 4#8]⟩) := by
  refine ⟨⟨txReadingWith_inv ?_ _, rfl, rfl, rfl⟩, ⟨rxWritingWith_inv ?_ _, rfl, rfl, rfl⟩, txReadingWith_inv ?_ _,
    rfl⟩ <;> rintro b ⟨⟩
  rfl

/-- A write performed by an error answer after another agent's store. -/
theorem witness_AnsweredWriteIsPerformed :
    (rxWritingWith none [.store 0x1000#32 9#8, .answerError .rx []]).portRx =
      some ⟨⟨.rx, 0x1000#32, 4, .write [1#8, 2#8, 3#8, 4#8]⟩, none⟩ ∧
    (rxWritingWith none [.store 0x1000#32 9#8, .answerError .rx []]).rx.out = some ⟨0x1000#32, 4, false⟩ ∧
    (rxWritingWith none [.store 0x1000#32 9#8, .answerError .rx []]).responseArrives .rx = true := by decide +kernel

theorem witness_MemoryChangesOnlyThroughPort :
    step txCaptured = .next (afterStep txCaptured) ∧ txCaptured.nextInput.mem = [] ∧
    Memory.read txCaptured.mem 0x1000 = 0x48#8 := ⟨rfl, rfl, by decide⟩

theorem witness_CanonicalMemoriesAreEqual :
    Memory.wf [(0x1000, 1#8), (0x1001, 2#8)] = true ∧
    Memory.write (Memory.write [] 0x1001 2#8) 0x1000 1#8 = [(0x1000, 1#8), (0x1001, 2#8)] := by decide

/-- A gated step in the middle of a start bit. -/
def txGated : State :=
  { State.reset with
    txFsm := ⟨.start, 0x41#8, 0, 0, 1#16, false⟩
    inputs := [⟨false, false, true, none, []⟩] }

/-- A gated step, a step within a bit, and every bit boundary of the transmitter: data bits 6 and 7, with and without parity, one and two stop bits. -/
theorem witness_TransmitterSteps :
    (step txGated = .next (afterStep txGated) ∧ txGated.nextInput.rst = false ∧ txGated.nextInput.cg = false) ∧
    (txGated.txFsm.state ≠ .idle ∧ txGated.txFsm.cnt ≠ 0#16) ∧
    TxFsm.reset.state = .idle ∧
    ((⟨.start, 0x41#8, 0, 0, 0#16, false⟩ : TxFsm).state = .start ∧
      (⟨.data, 0x41#8, 6, 0, 0#16, true⟩ : TxFsm).bit.val < 7 ∧ (⟨.data, 0x41#8, 7, 0, 0#16, true⟩ : TxFsm).bit.val = 7 ∧
      (⟨.parity, 0x41#8, 7, 0, 0#16, true⟩ : TxFsm).cnt = 0#16) ∧
    (Setup.reset.parity = .noParity ∧ (⟨.odd, true, 0#16⟩ : Setup).parity ≠ .noParity ∧
      (⟨.odd, true, 0#16⟩ : Setup).stop2 = true) ∧
    ((⟨.stop, 0x41#8, 7, 0, 0#16, true⟩ : TxFsm).stop = 0 ∧ (⟨.stop, 0x41#8, 7, 1, 0#16, true⟩ : TxFsm).stop = 1) :=
  ⟨⟨rfl, rfl, rfl⟩, by decide⟩

/-- A frame of 0x41 with one step per bit, its start bit on the line. -/
def sending (inputs : List StepInput) : State :=
  { State.reset with txFsm := ⟨.start, 0x41#8, 0, 0, 0#16, false⟩, inputs := inputs }

theorem keepsSetup_runInput (mem : List MemEvent) : keepsSetup (runInput none mem) := ⟨rfl, fun r h => by cases h⟩

/-- The last step of the frame. -/
theorem witness_FrameOnTheLine :
    (sending (List.replicate 9 (runInput none []))).txFsm.state = .start ∧
    (sending (List.replicate 9 (runInput none []))).txFsm.cnt = Setup.reset.clkdiv ∧
    (∀ i ∈ List.replicate 9 (runInput none []), keepsSetup i) ∧
    (List.replicate 9 (runInput none [])).countP (fun i => i.cg) + 1 = frameLength Setup.reset 0x41#8 :=
  ⟨rfl, rfl, fun i h => (List.eq_of_mem_replicate h) ▸ keepsSetup_runInput [], by decide⟩

theorem witness_FrameLastsItsLength :
    (∀ i ∈ List.replicate 9 (runInput none []) ++ [runInput none []], keepsSetup i) ∧
    (runInput none []).cg = true ∧
    (List.replicate 9 (runInput none [])).countP (fun i => i.cg) + 1 = frameLength Setup.reset 0x41#8 := by
  refine ⟨fun i h => ?_, rfl, by decide⟩
  rw [← List.replicate_succ'] at h
  exact (List.eq_of_mem_replicate h) ▸ keepsSetup_runInput []

/-- The first step of a frame of 0x41, and its last one, with nothing staged and with a byte staged. -/
theorem witness_TransmitterKeepsItsPlace :
    (keepsSetup (runInput none []) ∧ (⟨.start, 0x41#8, 0, 0, 0#16, false⟩ : TxFsm).AtFrame Setup.reset 0x41#8 0 ∧
      0 + 1 < frameLength Setup.reset 0x41#8) ∧
    ((⟨.stop, 0x41#8, 7, 0, 0#16, true⟩ : TxFsm).AtFrame Setup.reset 0x41#8 9 ∧
      9 + 1 = frameLength Setup.reset 0x41#8) ∧
    (sending [runInput none []]).accessed.tx.stage = [] ∧
    ({ sending [runInput none []] with tx := { Channel.reset with stage := [0x42#8] } } : State).accessed.tx.stage =
      [0x42#8] :=
  ⟨⟨keepsSetup_runInput [], ⟨by decide, rfl, by decide, by decide, by decide, by decide, by decide⟩, by decide⟩,
    ⟨⟨by decide, rfl, by decide, by decide, by decide, by decide, by decide⟩, by decide⟩, rfl, rfl⟩

/-- An edge, and the three other pairs of levels. -/
theorem witness_FallingEdgeStartsReception :
    RxFsm.reset.state = .waitStart ∧ (RxFsm.reset.prev = true ∧ false = false) ∧
    ¬(RxFsm.reset.prev = true ∧ true = false) := by decide

/-- The sample of bit 7 of 0xDA, of bit 6, the parity sample and the stop sample, at the shortest bit time. -/
theorem witness_ReceiverSamples :
    (∀ j < 8, (0xDA#8).getLsbD j = if j = rxSampling.rxFsm.bit.val then true else rxSampling.rxFsm.shift.getLsbD j) ∧
    (0#17).toNat = Setup.reset.clkdiv.toNat ∧ rxSampling.rxFsm.state = .data ∧ rxSampling.rxFsm.cnt = 0#17 ∧
    rxSampling.rxFsm.bit.val = 7 ∧ Setup.reset.parity = .noParity ∧ (⟨.even, false, 0#16⟩ : Setup).parity ≠ .noParity ∧
    (∀ j < 8, (0x5A#8).getLsbD j = if j = (6 : Fin 8).val then true else (0x1A#8).getLsbD j) ∧
    (⟨.data, 0x1A#8, 6, 0#17, true⟩ : RxFsm).bit.val < 7 ∧ (⟨.parity, 0xDA#8, 7, 0#17, true⟩ : RxFsm).state = .parity ∧
    (⟨.waitStop, 0xDA#8, 7, 0#17, true⟩ : RxFsm).state = .waitStop ∧ (1#17) ≠ 0#17 := by decide

/-- The levels of a frame of 0x41 with even parity, one step per bit (P2's byte). -/
theorem witness_FrameReceivedAtMidBit :
    RxFsm.reset.state = .waitStart ∧ RxFsm.reset.prev = true ∧
    [false, true, false, false, false, false, false, true, false, false, true].length =
      receptionLength ⟨.even, false, 0#16⟩ 0x41#8 ∧
    (∀ i < 8, [false, true, false, false, false, false, false, true, false, false, true][1 + 0 + i * 1]? =
      some ((0x41#8).getLsbD i)) := by decide

theorem witness_FrameRoundTrip :
    TxFsm.reset.state = .idle ∧ RxFsm.reset.state = .waitStart ∧ RxFsm.reset.prev = true ∧
    receptionLength Setup.reset 0x41#8 ≤ 10 := by decide

theorem witness_ReceiverFollowsEnabledSteps :
    (sending [runInput none []]).inputs = [runInput none []] ++ [] ∧ ∀ i ∈ [runInput none []], keepsSetup i :=
  ⟨rfl, fun i h => by
    rw [List.mem_singleton.1 h]
    exact keepsSetup_runInput []⟩

/-- The last bytes of an RX unit of three are about to come: two are staged, and the even parity bit of 0x5A is due. -/
def rxParity : State :=
  { State.reset with
    rx := { Channel.reset with
      saddr := 0xFFFFFFFE#32, size := 3#20, en := true, ds := .four
      cur := some ⟨0xFFFFFFFE#32, 3#20, .four, false, 0xFFFFFFFE#32, 3, 0⟩
      stage := [1#8, 2#8] }
    setup := ⟨.even, false, 0#16⟩
    rxFsm := ⟨.parity, 0x5A#8, 7, 0#17, true⟩ }

/-- A byte delivered by a data sample, one delivered by a parity sample, and a step that delivers none. -/
theorem witness_ReceivedByteIsStaged :
    (∃ s : State, s = { rxSampling with inputs := [runInput none []] } ∧ s.nextInput.rst = false ∧
      step s = .next (afterStep s) ∧ s.nextInput.cg = true ∧
      (s.rxFsm.step s.accessed.setup s.nextInput.rxIn).2 = some 0xDA#8 ∧ s.accessed.rx.cur ≠ none ∧
      s.accessed.rx.stage.length < 4) ∧
    (∃ s : State, s = { rxParity with inputs := [⟨false, true, false, none, []⟩] } ∧ step s = .next (afterStep s) ∧
      s.rxFsm.state = .parity ∧ s.rxFsm.cnt = 0#17 ∧
      s.nextInput.rxIn = parityBit s.rxFsm.shift s.accessed.setup.parity ∧ s.accessed.rx.cur ≠ none ∧
      s.accessed.rx.stage.length < 4) ∧
    ({ rxParity with inputs := [quietInput] } : State).nextInput.cg = false :=
  ⟨⟨_, rfl, rfl, rfl, rfl, by decide +kernel, by decide +kernel, by decide +kernel⟩,
    ⟨_, rfl, rfl, rfl, rfl, by decide +kernel, by decide +kernel, by decide +kernel⟩, rfl⟩

theorem witness_GateStopsOnlyTheFsms : (runInput (some (writeRequest .txSize 4#32)) []).rst = false := rfl

/-- A reset step with a response captured, one with a response arriving, and one with a response still to come. -/
theorem witness_ResetStepState :
    ({ txCaptured with inputs := [⟨true, true, true, none, []⟩] } : State).nextInput.rst = true ∧
    (txCaptured.chan .tx).ready ≠ none ∧
    ({ txReading with inputs := [⟨true, true, true, none, [.answer .tx]⟩] } : State).responseArrives .tx = true ∧
    ({ txReading with inputs := [⟨true, true, true, none, []⟩] } : State).responseArrives .tx = false ∧
    (txReading.chan .tx).ready = none ∧ (txReading.chan .tx).out ≠ none := by decide +kernel

theorem witness_RegistersReadZeroAfterReset :
    ({ txReading with inputs := [⟨true, true, true, none, []⟩] } : State).nextInput.rst = true ∧
    step { txReading with inputs := [⟨true, true, true, none, []⟩] } =
      .next (afterStep { txReading with inputs := [⟨true, true, true, none, []⟩] }) := ⟨rfl, rfl⟩

/-- Two reset steps with a request outstanding. -/
theorem witness_ResetTwiceLeavesTheSame :
    ∃ s t : State, ∃ i j : StepInput, s.inputs = [i, j] ∧ i.rst = true ∧ j.rst = true ∧ j.mem = [] ∧ j.req = none ∧
      runSteps 1 s = .next t ∧ t.tx.out = some ⟨0x1000#32, 4, true⟩ :=
  ⟨{ txReading with inputs := [⟨true, true, true, none, []⟩, ⟨true, true, true, none, []⟩] }, _, _, _, rfl, rfl, rfl,
    rfl, rfl, rfl, by decide +kernel⟩

theorem witness_StepKeepsInvariant : txReading.Inv ∧ step txReading = .next (afterStep txReading) :=
  ⟨txReading_inv, rfl⟩

theorem witness_QuiescentBlockStays :
    ({ txEnabled with inputs := [runInput none []] } : State).Inv ∧
    ({ txEnabled with inputs := [runInput none []] } : State).Quiescent ∧
    (runInput none []).rst = false ∧ (runInput none []).req = none ∧ (runInput none []).rxIn = true :=
  ⟨txEnabled_inv _, ⟨rfl, rfl, rfl, rfl, rfl, rfl, rfl⟩, rfl, rfl, rfl⟩

/-- Two states with the same transmit side in the middle of a read, one of them receiving. -/
theorem witness_TransmitSideIgnoresReceiveSide :
    ∃ s s' : State, s.nextInput = s'.nextInput ∧ s.tx = s'.tx ∧ s.txFsm = s'.txFsm ∧ s.setup = s'.setup ∧
      s.portTx = s'.portTx ∧ s.mem = s'.mem ∧ (∀ e ∈ s.nextInput.mem, e ≠ .perform .rx ∧ e ≠ .answer .rx ∧ ∀ data, e ≠ .answerError .rx data) ∧
      step s = .next (afterStep s) ∧ step s' = .next (afterStep s') ∧ s.rx ≠ s'.rx :=
  ⟨txReading, { txReading with rx := rxSampling.rx, rxFsm := rxSampling.rxFsm }, rfl, rfl, rfl, rfl, rfl, rfl,
    fun e h => by
      rw [List.mem_singleton.1 h]
      simp,
    rfl, rfl, by decide⟩

/-- Two states with the same receive side in the middle of a write, one of them sending from another memory. -/
theorem witness_ReceiveSideIgnoresTransmitSide :
    ∃ s s' : State, s.nextInput = s'.nextInput ∧ s.rx = s'.rx ∧ s.rxFsm = s'.rxFsm ∧ s.setup = s'.setup ∧
      s.portRx = s'.portRx ∧ (∀ e, s.portRx = some e → ∃ bytes, e.req.op = .write bytes) ∧
      step s = .next (afterStep s) ∧ step s' = .next (afterStep s') ∧ s.tx ≠ s'.tx ∧ s.mem ≠ s'.mem :=
  ⟨rxWriting, { rxWriting with tx := txReading.tx, portTx := txReading.portTx, mem := txReading.mem }, rfl, rfl, rfl,
    rfl, rfl, fun e h => by
      cases h
      exact ⟨_, rfl⟩, rfl, rfl, by decide, by decide⟩

/-- One waiting step between the arming write and the answer. -/
theorem witness_ArmedTransferStartsSending :
    ∃ s : State, ∃ arm ans last : StepInput, ∃ waits : List StepInput, ∃ r w,
      s.Inv ∧ s.tx.cur = none ∧ s.tx.out = none ∧ s.tx.stage = [] ∧ s.tx.en = true ∧ s.txFsm.state = .idle ∧
      s.inputs = arm :: (waits ++ ans :: last :: []) ∧ arm.rst = false ∧ arm.mem = [] ∧ arm.req = some r ∧
      decodeRequest r = .wrTxSize w ∧ w.toNat % 2 ^ 20 ≠ 0 ∧ (∀ i ∈ waits, calm [] i) ∧ calm [.answer .tx] ans ∧
      calm [] last ∧ last.cg = true :=
  ⟨{ txEnabled with inputs := [runInput (some (writeRequest .txSize 4#32)) [], runInput none [],
      runInput none [.answer .tx], runInput none []] }, _, _, _, [runInput none []], _, 4#32, txEnabled_inv _, rfl, rfl,
    rfl, rfl, rfl, rfl, rfl, rfl, rfl, rfl, by decide, fun i h => by
      rw [List.mem_singleton.1 h]
      exact ⟨rfl, rfl, rfl⟩, ⟨rfl, rfl, rfl⟩, ⟨rfl, rfl, rfl⟩, rfl⟩

theorem rxParity_inv : rxParity.Inv where
  mem := by decide
  rx :=
    { pool := by decide
      idle_pend := fun _ => rfl
      active := fun d h => by
        cases h
        exact ⟨by decide, by decide, by decide, by decide, by decide⟩
      fresh := fun d h => by cases h
      stage_le := by decide
      ready_out := fun h => absurd rfl h
      out_bytes := fun o h => by cases h
      out_unit := fun o h => by cases h }
  tx := (idle_ok rfl rfl rfl rfl rfl).1
  rx_own := ⟨fun h => (by cases h), fun d hd h => by
    cases hd
    exact absurd h (by decide), fun b h => by cases h⟩
  tx_own := (idle_ok rfl rfl rfl rfl rfl).2.1
  port_rx := idle_port rfl rfl
  port_tx := idle_port rfl rfl
  line := rfl
  rx_count := Nat.zero_le _

/-- A unit of one byte pushed by a data sample, and a unit of three that wraps over address 0 pushed by a parity sample;
one waiting step before the answer. -/
theorem witness_ReceivedByteReachesMemory :
    (∃ s : State, ∃ d : Descriptor, ∃ push ans last : StepInput, ∃ waits : List StepInput,
      s.Inv ∧ s.rx.cur = some d ∧ s.rx.out = none ∧ s.rx.stage.length + 1 = d.remainingSize ∧
      d.remainingSize ≤ d.unitSize.bytes ∧ s.rxFsm.cnt = 0#17 ∧
      (s.rxFsm.state = .data ∧ s.rxFsm.bit.val = 7 ∧ s.setup.parity = .noParity ∧
        (∀ j < 8, (0xDA#8).getLsbD j = if j = 7 then push.rxIn else s.rxFsm.shift.getLsbD j)) ∧
      s.inputs = push :: (waits ++ ans :: last :: []) ∧ calm [] push ∧ push.cg = true ∧
      (∀ i ∈ waits, calm [] i) ∧ calm [.answer .rx] ans ∧ calm [] last) ∧
    (∃ s : State, ∃ d : Descriptor, ∃ push ans last : StepInput, ∃ waits : List StepInput,
      s.Inv ∧ s.rx.cur = some d ∧ s.rx.out = none ∧ s.rx.stage.length + 1 = d.remainingSize ∧
      d.remainingSize ≤ d.unitSize.bytes ∧ s.rxFsm.cnt = 0#17 ∧
      (s.rxFsm.state = .parity ∧ s.rxFsm.shift = 0x5A#8 ∧ push.rxIn = parityBit 0x5A#8 s.setup.parity) ∧
      s.inputs = push :: (waits ++ ans :: last :: []) ∧ calm [] push ∧ push.cg = true ∧
      (∀ i ∈ waits, calm [] i) ∧ calm [.answer .rx] ans ∧ calm [] last) := by
  refine ⟨⟨{ rxSampling with
      inputs := [runInput none [], runInput none [], runInput none [.answer .rx], runInput none []] }, _, _, _, _,
      [runInput none []], inv_inputs rxSampling_inv _, rfl, rfl, rfl, by decide, rfl, ⟨rfl, rfl, rfl, by decide⟩, rfl,
      ⟨rfl, rfl, rfl⟩, rfl, fun i h => ?_, ⟨rfl, rfl, rfl⟩, ⟨rfl, rfl, rfl⟩⟩,
    ⟨{ rxParity with
      inputs := [⟨false, true, false, none, []⟩, runInput none [], runInput none [.answer .rx], runInput none []] }, _, _,
      _, _, [runInput none []], inv_inputs rxParity_inv _, rfl, rfl, rfl, by decide, rfl, ⟨rfl, rfl, by decide⟩, rfl,
      ⟨rfl, rfl, rfl⟩, rfl, fun i h => ?_, ⟨rfl, rfl, rfl⟩, ⟨rfl, rfl, rfl⟩⟩⟩ <;>
    rw [List.mem_singleton.1 h] <;> exact ⟨rfl, rfl, rfl⟩
end Sys2Proof.Tests
end

