-- ==== Sys2Proof/Proofs/Invariant.lean ====
section
/-! PROOF. The invariant of the block: it holds right after reset, and every step keeps it. The queues, the stages, the
requests and memory are `State.AllFit`'s, which the laws carry through the phases; what it leaves open is that a
channel with something to request has requested it, and the two FSMs' own clauses. -/

namespace Sys2Proof.Machine

open Sys2Proof

/-! ### The invariant between steps is `AllFit` with nothing on its way -/

/-- Between steps, the invariant says of memory, the channels and the port what `AllFit` says. -/
theorem State.Inv.allFit {s : State} (h : s.Inv) : s.AllFit Arrivals.empty where
  mem := h.mem
  fit
    | .rx => ⟨h.rx, ⟨h.rx_own.idle_stage, h.rx_own.ready_bytes⟩, by simpa using h.port_rx.holds, by simp, by simp,
        h.port_rx.entry⟩
    | .tx => ⟨h.tx, ⟨h.tx_own.out_stage, h.tx_own.ready_bytes⟩, by simpa using h.port_tx.holds, by simp, by simp,
        h.port_tx.entry⟩

theorem State.AllFit.portOk {s : State} (h : s.AllFit Arrivals.empty) (c : ChannelId) : s.PortOk c :=
  ⟨by simpa using (h.fit c).holds, (h.fit c).entry⟩

/-- A TX channel with nothing left to request has a request out whenever it is busy with an empty stage (R121). -/
theorem Channel.tx_busy_of_nextRequest {c : Channel} (h : c.nextRequest .tx = none) (hc : c.cur ≠ none)
    (hs : c.stage = []) : c.out ≠ none := by
  intro ho
  obtain ⟨d, hd⟩ := Option.ne_none_iff_exists'.1 hc
  have := (c.nextRequest_tx _).2 ⟨d, hd, ho, hs, rfl⟩
  simp [h] at this

/-- An RX channel with nothing left to request has a request out whenever a unit is staged (R122). -/
theorem Channel.rx_busy_of_nextRequest {c : Channel} {d : Descriptor} (h : c.nextRequest .rx = none)
    (hd : c.cur = some d) (hs : d.nextN ≤ c.stage.length) : c.out ≠ none := by
  intro ho
  have := (c.nextRequest_rx _).2 ⟨d, hd, ho, hs, rfl⟩
  simp [h] at this

/-- What the invariant adds to `AllFit`: no channel has a request left to issue, and the FSMs' own clauses. -/
theorem State.AllFit.inv {s : State} (h : s.AllFit Arrivals.empty) (hleft : ∀ c, (s.chan c).nextRequest c = none)
    (hline : s.txFsm.lineOk) (hcount : s.rxFsm.cnt.toNat ≤ 98303) : s.Inv where
  mem := h.mem
  rx := (h.fit .rx).ok
  tx := (h.fit .tx).ok
  rx_own :=
    { idle_stage := (h.fit .rx).staged.1
      busy := fun _ => Channel.rx_busy_of_nextRequest (hleft .rx)
      ready_bytes := (h.fit .rx).staged.2 }
  tx_own :=
    { out_stage := (h.fit .tx).staged.1
      busy := Channel.tx_busy_of_nextRequest (hleft .tx)
      ready_bytes := (h.fit .tx).staged.2 }
  port_rx := h.portOk .rx
  port_tx := h.portOk .tx
  line := hline
  rx_count := hcount

/-! ### The state a step leaves -/

/-- The state a step leaves is the reset step's, or what phases 5 and 6 make of the register access's (R60). -/
theorem step_next_cases {s t : State} (h : step s = .next t) :
    (s.nextInput.rst = true ∧ t = s.resetStep) ∨
      (s.nextInput.rst = false ∧ t = s.accessed.afterAccess s.nextInput) := by
  cases hr : s.nextInput.rst with
  | true => exact .inl ⟨rfl, by simpa [step, hr, eq_comm] using h⟩
  | false => exact .inr ⟨rfl, Host.Outcome.next.inj (h.symm.trans (step_accessed hr))⟩

/-! ### Phase 6 leaves nothing to request -/

/-- After its issue a channel has no request left to issue: one is out, or there was none (R121, R122). -/
theorem State.issue_nextRequest (s : State) (c : ChannelId) : ((s.issue c).chan c).nextRequest c = none := by
  rcases s.issue_cases c with ⟨hn, e⟩ | ⟨r, -, e⟩ <;> rw [e]
  · exact hn
  · simp only [State.hand_chan, State.setPort_chan, State.setChan_chan_same]
    cases hcur : (s.chan c).cur <;> simp [Channel.nextRequest, Channel.requested, hcur]

theorem Channel.afterReset_nextRequest (c : Channel) (arrived : Bool) (id : ChannelId) :
    (c.afterReset arrived).nextRequest id = none := rfl

/-- After a step no channel has a request left to issue. -/
theorem step_nextRequest {s t : State} (h : step s = .next t) (c : ChannelId) : (t.chan c).nextRequest c = none := by
  obtain ⟨-, rfl⟩ | ⟨-, rfl⟩ := step_next_cases h
  · cases c <;> exact Channel.afterReset_nextRequest _ _ _
  · unfold State.afterAccess
    cases c with
    | tx => exact State.issue_nextRequest _ .tx
    | rx =>
      rw [(State.issue_frame _ .tx).other_chan .rx (by decide)]
      exact State.issue_nextRequest _ .rx

/-! ### The two FSMs -/

/-- Everything a step can do to the FSMs: reset both, leave both, or step both (R48, R60, R184). -/
theorem step_fsms_cases {s t : State} (h : step s = .next t) :
    (t.txFsm = TxFsm.reset ∧ t.rxFsm = RxFsm.reset) ∨ (t.txFsm = s.txFsm ∧ t.rxFsm = s.rxFsm) ∨
      ∃ u stage v, t.txFsm = (s.txFsm.step u stage).1 ∧ t.rxFsm = (s.rxFsm.step u v).1 := by
  obtain ⟨-, rfl⟩ | ⟨-, rfl⟩ := step_next_cases h
  · exact .inl ⟨rfl, rfl⟩
  · obtain ⟨htx, hrx, -⟩ := s.accessed.afterAccess_fsms s.nextInput
    have ktx : s.accessed.txFsm = s.txFsm := s.accessed_frame.txFsm.trans s.beforeAccess_txFsm
    have krx : s.accessed.rxFsm = s.rxFsm := s.accessed_frame.rxFsm.trans s.beforeAccess_rxFsm
    rw [htx, hrx, ← ktx, ← krx]
    cases s.nextInput.cg with
    | false => exact .inr (.inl ⟨rfl, rfl⟩)
    | true => exact .inr (.inr ⟨_, _, _, rfl, rfl⟩)

theorem TxFsm.endData_lineOk (u : Setup) (f : TxFsm) (hs : f.state = .data) : (f.endData u).lineOk := by
  unfold TxFsm.endData
  split
  · rename_i hbit
    simp [TxFsm.lineOk, hs, bit_succ f.bit hbit]
  · split
    · rfl
    · trivial

theorem TxFsm.endStop_lineOk (u : Setup) (f : TxFsm) (stage : List Byte) (hs : f.state = .stop) :
    (f.endStop u stage).1.lineOk := by
  unfold TxFsm.endStop
  split
  · simp [TxFsm.lineOk, hs]
  · split <;> rfl

/-- An enabled step leaves on the line the level of the state it leaves (R142 to R146). -/
theorem TxFsm.step_lineOk {f : TxFsm} (h : f.lineOk) (u : Setup) (stage : List Byte) :
    (f.step u stage).1.lineOk := by
  unfold TxFsm.step
  cases hs : f.state with
  | idle =>
    cases stage with
    | nil => exact h
    | cons b rest => rfl
  | start =>
    dsimp only
    split
    · rfl
    · simpa [TxFsm.lineOk, hs] using h
  | data =>
    dsimp only
    split
    · exact f.endData_lineOk u hs
    · simpa [TxFsm.lineOk, hs] using h
  | parity =>
    dsimp only
    split
    · rfl
    · simp [TxFsm.lineOk]
  | stop =>
    dsimp only
    split
    · exact f.endStop_lineOk u stage hs
    · simpa [TxFsm.lineOk, hs] using h

/-- The greatest counter value of the receiver is that of a start edge with the greatest divider (R157, R181). -/
theorem Setup.rx_loads_le (u : Setup) : u.rxLoad.toNat ≤ 98303 ∧ u.rxFirstLoad.toNat ≤ 98303 := by
  have := u.clkdiv.isLt
  rw [u.rxLoad_toNat, u.rxFirstLoad_toNat]
  simp only [Setup.halfBit, Setup.bitTime]
  omega

/-- Everything an enabled step can do to the sample counter: keep it, load it for a sample or for a start edge, or
count down from a value other than 0 (R157 to R161). -/
theorem RxFsm.step_cnt_cases (u : Setup) (f : RxFsm) (v : Bool) :
    (f.step u v).1.cnt = f.cnt ∨ (f.step u v).1.cnt = u.rxLoad ∨ (f.step u v).1.cnt = u.rxFirstLoad ∨
      (f.cnt ≠ 0#17 ∧ (f.step u v).1.cnt = f.cnt - 1#17) := by
  change (f.react u v).1.cnt = _ ∨ (f.react u v).1.cnt = _ ∨ (f.react u v).1.cnt = _ ∨
    (_ ∧ (f.react u v).1.cnt = _)
  unfold RxFsm.react
  cases f.state with
  | waitStart =>
    dsimp only [RxFsm.inWaitStart]
    split
    · exact .inr (.inr (.inl rfl))
    · exact .inl rfl
  | data =>
    dsimp only [RxFsm.sampleData]
    split
    · refine .inr (.inl ?_)
      split
      · rfl
      · split <;> rfl
    · rename_i hcnt
      exact .inr (.inr (.inr ⟨hcnt, rfl⟩))
  | parity =>
    dsimp only
    split
    · exact .inr (.inl rfl)
    · rename_i hcnt
      exact .inr (.inr (.inr ⟨hcnt, rfl⟩))
  | waitStop =>
    dsimp only
    split
    · exact .inl rfl
    · rename_i hcnt
      exact .inr (.inr (.inr ⟨hcnt, rfl⟩))

theorem RxFsm.step_cnt_le {f : RxFsm} (h : f.cnt.toNat ≤ 98303) (u : Setup) (v : Bool) :
    (f.step u v).1.cnt.toNat ≤ 98303 := by
  rcases f.step_cnt_cases u v with e | e | e | ⟨hne, e⟩ <;> rw [e]
  · exact h
  · exact u.rx_loads_le.1
  · exact u.rx_loads_le.2
  · rw [counter_sub_one _ hne]
    omega

/-- A step keeps the FSMs' own clauses of the invariant. -/
theorem step_keeps_fsm_clauses {s t : State} (h : step s = .next t) (hline : s.txFsm.lineOk)
    (hcount : s.rxFsm.cnt.toNat ≤ 98303) : t.txFsm.lineOk ∧ t.rxFsm.cnt.toNat ≤ 98303 := by
  rcases step_fsms_cases h with ⟨e, e'⟩ | ⟨e, e'⟩ | ⟨u, stage, v, e, e'⟩ <;> rw [e, e']
  · exact ⟨rfl, Nat.zero_le _⟩
  · exact ⟨hline, hcount⟩
  · exact ⟨TxFsm.step_lineOk hline u stage, RxFsm.step_cnt_le hcount u v⟩

/-- Settles O50: `AllFit` is carried by the laws, phase 6 leaves nothing to request, and the FSMs keep their clauses. -/
theorem stepKeepsInvariant : Obligations.StepKeepsInvariant := by
  intro s t hinv hstep
  obtain ⟨hline, hcount⟩ := step_keeps_fsm_clauses hstep hinv.line hinv.rx_count
  exact (hinv.allFit.step hstep).inv (step_nextRequest hstep) hline hcount

/-! ### Right after reset -/

/-- The channel's value after reset fits an empty port. -/
theorem Channel.Fit.reset (id : ChannelId) : Channel.reset.Fit id none none where
  ok :=
    { pool := by decide
      idle_pend := fun _ => rfl
      active := by simp [Channel.reset]
      fresh := by simp [Channel.reset]
      stage_le := by decide
      ready_out := fun h => absurd rfl h
      out_bytes := by simp [Channel.reset]
      out_unit := by simp [Channel.reset] }
  staged := by cases id <;> simp [Channel.StageOk, Channel.reset]
  holds := rfl
  arrived := fun h => absurd rfl h
  arrived_bytes := by simp
  entry := by simp

/-- Settles O51: the channels are at rest, memory lists nothing, and both FSMs idle. -/
theorem resetMeetsInvariant : Obligations.ResetMeetsInvariant := by
  have hfit : State.reset.AllFit Arrivals.empty :=
    ⟨rfl, fun | .rx => Channel.Fit.reset .rx | .tx => Channel.Fit.reset .tx⟩
  exact hfit.inv (fun | .rx => rfl | .tx => rfl) rfl (Nat.zero_le _)

end Sys2Proof.Machine
end

