-- ==== Sys2Proof/Proofs/Independence.lean ====
section
/-! PROOF. The two sides of the block meet only in the configuration and in memory (R61): two states that agree on one
side agree on it after a step, whatever the other side holds. The agreement of two states on a channel's side is
carried through each phase, once for both channels; the two statements differ only in how they know that the port
answers both states alike. -/

namespace Sys2Proof.Machine

open Sys2Proof

/-! ### Agreement on one side -/

/-- Two states have the same FSM on a channel's side: the receiver for RX, the transmitter for TX. -/
def State.FsmAgree (s s' : State) : ChannelId → Prop
  | .rx => s.rxFsm = s'.rxFsm
  | .tx => s.txFsm = s'.txFsm

/-- Two states agree on a channel's side and on the configuration. -/
structure State.Agree (c : ChannelId) (s s' : State) : Prop where
  chan : s.chan c = s'.chan c
  port : s.port c = s'.port c
  setup : s.setup = s'.setup
  fsm : s.FsmAgree s' c

theorem State.FsmAgree.of_eq {s s' t t' : State} {c : ChannelId} (h : s.FsmAgree s' c) (htx : t.txFsm = s.txFsm)
    (hrx : t.rxFsm = s.rxFsm) (htx' : t'.txFsm = s'.txFsm) (hrx' : t'.rxFsm = s'.rxFsm) : t.FsmAgree t' c := by
  cases c
  · exact hrx.trans (Eq.trans h hrx'.symm)
  · exact htx.trans (Eq.trans h htx'.symm)

/-- Updates outside the block but for the port keep the agreement if they keep it of the port's entry. -/
theorem State.Agree.of_sameBlock {c : ChannelId} {s s' t t' : State} (h : s.Agree c s') (hs : s.SameBlock t)
    (hs' : s'.SameBlock t') (hp : t.port c = t'.port c) : t.Agree c t' where
  chan := by rw [hs.chan, hs'.chan, h.chan]
  port := hp
  setup := by rw [hs.setup, hs'.setup, h.setup]
  fsm := h.fsm.of_eq hs.txFsm hs.rxFsm hs'.txFsm hs'.rxFsm

/-- An update of channel `d` matters to the side of `c` only if `d` is `c`. -/
theorem State.Agree.setChan {c : ChannelId} {s s' : State} (h : s.Agree c s') (d : ChannelId) {ch ch' : Channel}
    (hd : d = c → ch = ch') : (s.setChan d ch).Agree c (s'.setChan d ch') where
  chan := by
    by_cases hdc : c = d
    · subst hdc
      simpa using hd rfl
    · rw [State.setChan_chan_other _ _ _ _ hdc, State.setChan_chan_other _ _ _ _ hdc, h.chan]
  port := by simpa using h.port
  setup := by simpa using h.setup
  fsm := h.fsm.of_eq (by simp) (by simp) (by simp) (by simp)

/-- An update of channel `d` made from its own value keeps the agreement. -/
theorem State.Agree.mapChan {c : ChannelId} {s s' : State} (h : s.Agree c s') (d : ChannelId)
    (f : Channel → Channel) : (s.setChan d (f (s.chan d))).Agree c (s'.setChan d (f (s'.chan d))) :=
  h.setChan d fun hd => by rw [hd, h.chan]

theorem State.Agree.setPort {c : ChannelId} {s s' : State} (h : s.Agree c s') (d : ChannelId)
    {p p' : Option PortEntry} (hd : d = c → p = p') : (s.setPort d p).Agree c (s'.setPort d p') := by
  refine h.of_sameBlock (s.setPort_sameBlock d p) (s'.setPort_sameBlock d p') ?_
  by_cases hdc : c = d
  · subst hdc
    simpa using hd rfl
  · rw [State.setPort_port_other _ _ _ _ hdc, State.setPort_port_other _ _ _ _ hdc, h.port]

theorem State.Agree.respond {c : ChannelId} {s s' : State} (h : s.Agree c s') (r r' : BusResponse) :
    (s.respond r).Agree c (s'.respond r') :=
  ⟨by simpa using h.chan, by simpa using h.port, h.setup, h.fsm.of_eq rfl rfl rfl rfl⟩

theorem State.Agree.setSetup {c : ChannelId} {s s' : State} (h : s.Agree c s') (u : Setup) :
    (s.setSetup u).Agree c (s'.setSetup u) :=
  ⟨by simpa using h.chan, by simpa using h.port, rfl, h.fsm.of_eq rfl rfl rfl rfl⟩

theorem State.Agree.hand {c : ChannelId} {s s' : State} (h : s.Agree c s') (r r' : MemRequest) :
    (s.hand r).Agree c (s'.hand r') :=
  ⟨by simpa using h.chan, by simpa using h.port, h.setup, h.fsm.of_eq rfl rfl rfl rfl⟩

/-! ### Phases 0, 2 and 3 -/

theorem State.Agree.begin {c : ChannelId} {s s' : State} (h : s.Agree c s') : s.begin.Agree c s'.begin :=
  ⟨by simp [h.chan], by simpa using h.port, h.setup, h.fsm.of_eq rfl rfl rfl rfl⟩

theorem State.Agree.capture {c : ChannelId} {s s' : State} (h : s.Agree c s') {arr arr' : Arrivals}
    (harr : arr.get c = arr'.get c) (d : ChannelId) : (s.capture arr d).Agree c (s'.capture arr' d) :=
  h.setChan d fun hd => by rw [hd, h.chan, harr]

theorem State.Agree.serviceAndCapture {c : ChannelId} {s s' : State} (h : s.Agree c s') {arr arr' : Arrivals}
    (harr : arr.get c = arr'.get c) : (s.serviceAndCapture arr).Agree c (s'.serviceAndCapture arr') :=
  (((h.mapChan .rx (Channel.service .rx)).mapChan .tx (Channel.service .tx)).capture harr .rx).capture harr .tx

/-! ### Phase 4 -/

/-- A CFG write stores what `Channel.writeCfg` makes of the channel, or the channel itself if it is rejected. -/
theorem State.writeCfg_eq (s : State) (c : ChannelId) (w : Word) :
    ∃ r, s.writeCfg c w = (s.setChan c (((s.chan c).writeCfg w).getD (s.chan c))).respond r := by
  cases h : (s.chan c).writeCfg w with
  | none => exact ⟨.invalid, by simp [State.writeCfg, h]⟩
  | some ch => exact ⟨.okWrite, by simp [State.writeCfg, h]⟩

theorem State.Agree.writeCfg {c : ChannelId} {s s' : State} (h : s.Agree c s') (d : ChannelId) (w : Word) :
    (s.writeCfg d w).Agree c (s'.writeCfg d w) := by
  obtain ⟨r, e⟩ := s.writeCfg_eq d w
  obtain ⟨r', e'⟩ := s'.writeCfg_eq d w
  rw [e, e']
  exact (h.mapChan d fun ch => (ch.writeCfg w).getD ch).respond r r'

/-- A register access keeps the agreement on a side of the block (R61, R119). -/
theorem exec_agree {c : ChannelId} {s s' : State} (h : s.Agree c s') (i : Instr) :
    ∃ t t', exec i s = .next t ∧ exec i s' = .next t' ∧ t.Agree c t' := by
  cases i with
  | wrRxSaddr w => exact ⟨_, _, rfl, rfl, (h.mapChan .rx fun ch => { ch with saddr := w }).respond _ _⟩
  | wrTxSaddr w => exact ⟨_, _, rfl, rfl, (h.mapChan .tx fun ch => { ch with saddr := w }).respond _ _⟩
  | wrRxSize w => exact ⟨_, _, rfl, rfl, (h.mapChan .rx fun ch => ch.writeSize w).respond _ _⟩
  | wrTxSize w => exact ⟨_, _, rfl, rfl, (h.mapChan .tx fun ch => ch.writeSize w).respond _ _⟩
  | wrRxCfg w => exact ⟨_, _, rfl, rfl, h.writeCfg .rx w⟩
  | wrTxCfg w => exact ⟨_, _, rfl, rfl, h.writeCfg .tx w⟩
  | wrSetup w =>
    simp only [exec, execWrSetup]
    cases ParityMode.ofCode (parityField w) with
    | none => exact ⟨_, _, rfl, rfl, h.respond _ _⟩
    | some mode => exact ⟨_, _, rfl, rfl, (h.setSetup _).respond _ _⟩
  | _ => exact ⟨_, _, rfl, rfl, h.respond _ _⟩

theorem State.Agree.accessed {c : ChannelId} {s s' : State} (hi : s.nextInput = s'.nextInput)
    (h : s.beforeAccess.Agree c s'.beforeAccess) : s.accessed.Agree c s'.accessed := by
  unfold State.accessed
  rw [← hi]
  cases s.nextInput.req with
  | none => exact h
  | some r =>
    obtain ⟨t, t', e, e', ht⟩ := exec_agree h (decodeRequest r)
    simpa only [e, e'] using ht

/-! ### Phases 5 and 6 -/

/-- Each FSM steps over its own state, its own stage and the configuration (R61). -/
theorem State.Agree.protocol {c : ChannelId} {s s' : State} (h : s.Agree c s') (cg v : Bool) :
    (s.protocol cg v).Agree c (s'.protocol cg v) := by
  cases cg with
  | false => exact h
  | true =>
    obtain ⟨hchan, hport, hsetup, hfsm⟩ := h
    cases c with
    | rx =>
      have hchan : s.rx = s'.rx := hchan
      have hfsm : s.rxFsm = s'.rxFsm := hfsm
      refine ⟨?_, hport, hsetup, ?_⟩
      · simp [State.protocol_enabled, hchan, hfsm, hsetup]
      · change (s.rxFsm.step s.setup v).1 = (s'.rxFsm.step s'.setup v).1
        rw [hfsm, hsetup]
    | tx =>
      have hchan : s.tx = s'.tx := hchan
      have hfsm : s.txFsm = s'.txFsm := hfsm
      refine ⟨?_, hport, hsetup, ?_⟩
      · simp [State.protocol_enabled, hchan, hfsm, hsetup]
      · change (s.txFsm.step s.setup s.tx.stage).1 = (s'.txFsm.step s'.setup s'.tx.stage).1
        rw [hchan, hfsm, hsetup]

/-- What a channel requests depends on the channel alone. -/
theorem State.Agree.issue {c : ChannelId} {s s' : State} (h : s.Agree c s') (d : ChannelId) :
    (s.issue d).Agree c (s'.issue d) := by
  by_cases hd : c = d
  · subst hd
    unfold State.issue
    rw [← h.chan]
    cases (s.chan c).nextRequest c with
    | none => exact h
    | some r => exact ((h.setChan c fun _ => rfl).setPort c fun _ => rfl).hand r r
  · have f := s.issue_frame d
    have f' := s'.issue_frame d
    exact
      { chan := by rw [f.other_chan c hd, f'.other_chan c hd, h.chan]
        port := by rw [f.other_port c hd, f'.other_port c hd, h.port]
        setup := by rw [f.setup, f'.setup, h.setup]
        fsm := h.fsm.of_eq f.txFsm f.rxFsm f'.txFsm f'.rxFsm }

/-! ### The environment's part of a step -/

/-- Two moments of the environment's part of a step agree on a channel's side and on its response. -/
structure EnvAgree (c : ChannelId) (p p' : State × Arrivals) : Prop where
  side : p.1.Agree c p'.1
  arrived : p.2.get c = p'.2.get c

/-- Performing the request the port holds for a channel answers the same in both states. -/
def State.SameResponse (c : ChannelId) (s s' : State) : Prop :=
  ∀ e, s.port c = some e → (e.req.perform s.mem).2 = (e.req.perform s'.mem).2

/-- The port's entries after it was told to perform the request of channel `d`. -/
theorem State.portPerform_port (s : State) (d c : ChannelId) :
    (s.portPerform d).port c =
      if c = d then (s.port c).map fun e => ⟨e.req, some (e.performed.getD (e.req.perform s.mem).2)⟩
      else s.port c := by
  split
  · rename_i hcd
    subst hcd
    unfold State.portPerform
    rcases hp : s.port c with _ | ⟨r, _ | bytes⟩ <;> simp [hp]
  · rename_i hcd
    rcases s.portPerform_cases d with e | ⟨r, -, e⟩ <;> rw [e]
    simp [State.setPort_port_other _ _ _ _ hcd]

/-- The port's entries after it answered the request of channel `d`. -/
theorem State.portAnswer_port (s : State) (d c : ChannelId) :
    (s.portAnswer d).1.port c = if c = d then none else s.port c := by
  have hrelease (s : State) : (s.portRelease d).port c = if c = d then none else s.port c := by
    split
    · rename_i hcd
      subst hcd
      exact s.setPort_port_same c none
    · rename_i hcd
      exact s.setPort_port_other d c none hcd
  rcases s.portAnswer_cases d with ⟨hp, e⟩ | ⟨r, b, -, e⟩ | ⟨r, -, -, e⟩ | ⟨r, b, -, -, -, e⟩ <;> rw [e]
  · split
    · rename_i hcd
      exact hcd ▸ hp
    · rfl
  · exact hrelease s
  · simpa using hrelease (s.setMem (r.perform s.mem).1)
  · exact hrelease s

/-- The response of an answer that reports no error. -/
theorem State.portAnswer_response (s : State) (c : ChannelId) :
    (s.portAnswer c).2 = (s.port c).map fun e =>
      e.performed.getD (if s.performsAtAnswer c e.req then (e.req.perform s.mem).2 else []) := by
  unfold State.portAnswer
  rcases hp : s.port c with _ | ⟨r, _ | bytes⟩
  · rfl
  · cases hperf : s.performsAtAnswer c r <;> simp [hperf]
  · rfl

theorem State.performsAtAnswer_congr {s s' : State} {c : ChannelId} (h : s.chan c = s'.chan c) (r : MemRequest) :
    s.performsAtAnswer c r = s'.performsAtAnswer c r := by
  unfold State.performsAtAnswer
  rw [h]

theorem State.Agree.portAnswer_response {c : ChannelId} {s s' : State} (h : s.Agree c s')
    (hr : s.SameResponse c s') : (s.portAnswer c).2 = (s'.portAnswer c).2 := by
  rw [s.portAnswer_response, s'.portAnswer_response, ← h.port]
  refine Option.map_congr fun e he => ?_
  rw [s.performsAtAnswer_congr h.chan, hr e he]

theorem Arrivals.get_add_congr {arr arr' : Arrivals} {c d : ChannelId} {r r' : Option (List Byte)}
    (h : arr.get c = arr'.get c) (hr : d = c → r = r') : (arr.add d r).get c = (arr'.add d r').get c := by
  by_cases hcd : c = d
  · subst hcd
    rw [← hr rfl]
    cases r with
    | none => exact h
    | some bytes => simp
  · rw [Arrivals.get_add_other _ _ _ _ hcd, Arrivals.get_add_other _ _ _ _ hcd, h]

/-- An event keeps the agreement on a channel's side if the channel's request is answered alike. -/
theorem EnvAgree.memEvent {c : ChannelId} {p p' : State × Arrivals} (h : EnvAgree c p p')
    (hr : p.1.SameResponse c p'.1) (e : MemEvent) : EnvAgree c (State.memEvent p e) (State.memEvent p' e) := by
  obtain ⟨hside, harr⟩ := h
  have hanswer (d : ChannelId) : (p.1.portAnswer d).1.port c = (p'.1.portAnswer d).1.port c := by
    rw [State.portAnswer_port, State.portAnswer_port, hside.port]
  have hblock := hside.of_sameBlock (State.memEvent_sameBlock p e) (State.memEvent_sameBlock p' e)
  cases e with
  | store addr b => exact ⟨hblock (by simpa [State.memEvent] using hside.port), harr⟩
  | perform d =>
    refine ⟨hblock ?_, harr⟩
    simp only [State.memEvent, State.portPerform_port, ← hside.port]
    split
    · exact Option.map_congr fun e he => by rw [hr e he]
    · rfl
  | answer d =>
    refine ⟨hblock (hanswer d), Arrivals.get_add_congr harr ?_⟩
    rintro rfl
    exact hside.portAnswer_response hr
  | answerError d data =>
    refine ⟨hblock (hanswer d), Arrivals.get_add_congr harr ?_⟩
    rintro rfl
    simp only [State.portAnswerError, hside.port]

/-! ### The step -/

/-- A reset step keeps of a channel only whether its request is still to be answered (R48, R190). -/
theorem State.Agree.resetStep {c : ChannelId} {s s' : State} (h : s.environment.1.Agree c s'.environment.1)
    (harr : s.environment.2.get c = s'.environment.2.get c) : s.resetStep.Agree c s'.resetStep where
  chan := by
    have hchan (s : State) :
        s.resetStep.chan c = (s.environment.1.chan c).afterReset (s.environment.2.get c).isSome := by
      cases c <;> rfl
    rw [hchan, hchan, h.chan, harr]
  port := by
    have hport (s : State) : s.resetStep.port c = s.environment.1.port c := by cases c <;> rfl
    rw [hport, hport, h.port]
  setup := rfl
  fsm := by cases c <;> rfl

/-- A step keeps the agreement on a channel's side when the environment's part of it does. -/
theorem step_agree {c : ChannelId} {s s' t t' : State} (hi : s.nextInput = s'.nextInput)
    (henv : EnvAgree c s.environment s'.environment) (h : step s = .next t) (h' : step s' = .next t') :
    t.Agree c t' := by
  obtain ⟨hside, harr⟩ := henv
  obtain ⟨hr, rfl⟩ | ⟨hr, rfl⟩ := step_next_cases h <;> obtain ⟨hr', rfl⟩ | ⟨hr', rfl⟩ := step_next_cases h'
  · exact State.Agree.resetStep hside harr
  · simp [← hi, hr] at hr'
  · simp [← hi, hr] at hr'
  · have hbefore : s.beforeAccess.Agree c s'.beforeAccess := hside.serviceAndCapture harr
    rw [← hi]
    exact (((State.Agree.accessed hi hbefore).protocol _ _).issue .rx).issue .tx

/-- Only the environment's part of a step touches memory (R77, R78). -/
theorem step_mem {s t : State} (h : step s = .next t) : t.mem = s.environment.1.mem := by
  obtain ⟨-, rfl⟩ | ⟨-, rfl⟩ := step_next_cases h
  · rfl
  · obtain ⟨-, -, -, hmem, -⟩ := s.accessed.afterAccess_fsms s.nextInput
    rw [hmem, s.accessed_frame.mem, s.beforeAccess_mem]

/-! ### The transmit side -/

theorem State.SameResponse.of_mem {c : ChannelId} {s s' : State} (h : s.mem = s'.mem) : s.SameResponse c s' :=
  fun e _ => by rw [h]

theorem State.portPerform_mem_congr {s s' : State} {c : ChannelId} (hp : s.port c = s'.port c)
    (hm : s.mem = s'.mem) : (s.portPerform c).mem = (s'.portPerform c).mem := by
  unfold State.portPerform
  rw [← hp]
  split <;> simp [hm]

theorem State.portAnswer_mem_congr {s s' : State} {c : ChannelId} (h : s.Agree c s') (hm : s.mem = s'.mem) :
    (s.portAnswer c).1.mem = (s'.portAnswer c).1.mem := by
  unfold State.portAnswer
  rw [← h.port]
  split
  · exact hm
  · simpa [State.portRelease] using hm
  · rw [s.performsAtAnswer_congr h.chan]
    split <;> simp [State.portRelease, hm]

/-- An event that neither performs nor answers an RX request does the same to memory in two states that agree on the
transmit side and on memory. -/
theorem memEvent_mem_congr {p p' : State × Arrivals} (h : p.1.Agree .tx p'.1) (hm : p.1.mem = p'.1.mem)
    {e : MemEvent} (he : e ≠ .perform .rx ∧ e ≠ .answer .rx ∧ ∀ data, e ≠ .answerError .rx data) :
    (State.memEvent p e).1.mem = (State.memEvent p' e).1.mem := by
  obtain ⟨hperform, hanswer, herror⟩ := he
  cases e with
  | store addr b => simp [State.memEvent, hm]
  | perform d =>
    cases d with
    | rx => exact absurd rfl hperform
    | tx => exact State.portPerform_mem_congr h.port hm
  | answer d =>
    cases d with
    | rx => exact absurd rfl hanswer
    | tx => exact State.portAnswer_mem_congr h hm
  | answerError d data =>
    cases d with
    | rx => exact absurd rfl (herror data)
    | tx => exact State.portAnswer_mem_congr h hm

/-- The environment's part of a step keeps the agreement on the transmit side and on memory. -/
theorem foldl_memEvent_tx_agree {events : List MemEvent}
    (he : ∀ e ∈ events, e ≠ .perform .rx ∧ e ≠ .answer .rx ∧ ∀ data, e ≠ .answerError .rx data)
    {p p' : State × Arrivals} (h : EnvAgree .tx p p') (hm : p.1.mem = p'.1.mem) :
    EnvAgree .tx (events.foldl State.memEvent p) (events.foldl State.memEvent p') ∧
      (events.foldl State.memEvent p).1.mem = (events.foldl State.memEvent p').1.mem := by
  induction events generalizing p p' with
  | nil => exact ⟨h, hm⟩
  | cons e events ih =>
    obtain ⟨hhead, htail⟩ := List.forall_mem_cons.1 he
    exact ih htail (h.memEvent (.of_mem hm) e) (memEvent_mem_congr h.side hm hhead)

/-- Settles O53: memory is the same in both states, so the port answers the TX request alike. -/
theorem transmitSideIgnoresReceiveSide : Obligations.TransmitSideIgnoresReceiveSide := by
  intro s s' t t' hi htx hfsm hsetup hport hmem hevents h h'
  have hside : s.Agree .tx s' := ⟨htx, hport, hsetup, hfsm⟩
  obtain ⟨henv, hmem'⟩ : EnvAgree .tx s.environment s'.environment ∧
      s.environment.1.mem = s'.environment.1.mem := by
    unfold State.environment
    rw [← hi]
    exact foldl_memEvent_tx_agree hevents ⟨hside.begin, rfl⟩ hmem
  obtain ⟨kchan, kport, ksetup, kfsm⟩ := step_agree hi henv h h'
  exact ⟨kchan, kfsm, ksetup, kport, by rw [step_mem h, step_mem h', hmem']⟩

/-! ### The receive side -/

/-- The request the port holds for RX, if it holds one, is a write (R24, R122). -/
def State.RxWrites (s : State) : Prop := ∀ e, s.port .rx = some e → ∃ bytes, e.req.op = .write bytes

/-- A write's response has no bytes, whatever memory holds (R78). -/
theorem State.RxWrites.sameResponse {s : State} (h : s.RxWrites) (s' : State) : s.SameResponse .rx s' := by
  intro e he
  obtain ⟨bytes, hop⟩ := h e he
  simp [MemRequest.perform, hop]

/-- The port only marks the requests it holds as performed, and lets go of them. -/
theorem memEvent_port_req {p : State × Arrivals} {ev : MemEvent} {c : ChannelId} {e : PortEntry}
    (h : (State.memEvent p ev).1.port c = some e) : ∃ e₀, p.1.port c = some e₀ ∧ e₀.req = e.req := by
  have hanswer (d : ChannelId) (h : (p.1.portAnswer d).1.port c = some e) :
      ∃ e₀, p.1.port c = some e₀ ∧ e₀.req = e.req := by
    rw [State.portAnswer_port] at h
    split at h
    · simp at h
    · exact ⟨e, h, rfl⟩
  cases ev with
  | store addr b => exact ⟨e, by simpa [State.memEvent] using h, rfl⟩
  | perform d =>
    simp only [State.memEvent, State.portPerform_port] at h
    split at h
    · obtain ⟨e₀, he₀, rfl⟩ := Option.map_eq_some_iff.1 h
      exact ⟨e₀, he₀, rfl⟩
    · exact ⟨e, h, rfl⟩
  | answer d => exact hanswer d h
  | answerError d data => exact hanswer d h

theorem State.RxWrites.memEvent {p : State × Arrivals} (h : p.1.RxWrites) (ev : MemEvent) :
    (State.memEvent p ev).1.RxWrites := by
  intro e he
  obtain ⟨e₀, he₀, hreq⟩ := memEvent_port_req he
  exact hreq ▸ h e₀ he₀

/-- The environment's part of a step keeps the agreement on the receive side. -/
theorem foldl_memEvent_rx_agree (events : List MemEvent) {p p' : State × Arrivals} (h : EnvAgree .rx p p')
    (hw : p.1.RxWrites) : EnvAgree .rx (events.foldl State.memEvent p) (events.foldl State.memEvent p') := by
  induction events generalizing p p' with
  | nil => exact h
  | cons e events ih => exact ih (h.memEvent (hw.sameResponse _) e) (hw.memEvent e)

/-- Settles O54: a write's response has no bytes, so the port answers the RX request alike whatever memory holds. -/
theorem receiveSideIgnoresTransmitSide : Obligations.ReceiveSideIgnoresTransmitSide := by
  intro s s' t t' hi hrx hfsm hsetup hport hwrites h h'
  have hside : s.Agree .rx s' := ⟨hrx, hport, hsetup, hfsm⟩
  have henv : EnvAgree .rx s.environment s'.environment := by
    unfold State.environment
    rw [← hi]
    exact foldl_memEvent_rx_agree _ ⟨hside.begin, rfl⟩ hwrites
  obtain ⟨kchan, kport, ksetup, kfsm⟩ := step_agree hi henv h h'
  exact ⟨kchan, kfsm, ksetup, kport⟩

end Sys2Proof.Machine
end

