-- ==== Sys2Proof/Proofs/StateFacts.lean ====
section
/-! PROOF. The other statements about the state: when an event pulses, the form of memory, what every register reads
after reset, and the place of the register access in a step. -/

namespace Sys2Proof.Machine

open Sys2Proof

/-! ### Events (R26) -/

theorem Channel.capture_evt (id : ChannelId) (c : Channel) (arr : Option (List Byte)) :
    (c.capture id arr).evt = c.evt := by
  rcases c.capture_cases id arr with ⟨-, e⟩ | ⟨bytes, o, -, -, e⟩ <;> rw [e]

theorem Channel.endPass_evt (id : ChannelId) (c : Channel) (d : Descriptor) : (c.endPass id d).evt = true := by
  rcases c.endPass_cases id d with ⟨-, e⟩ | ⟨-, next, rest, -, e⟩ | ⟨-, -, e⟩ <;> rw [e]

/-- The response a channel has captured ends the pass of its current transfer when it is served: it is not discarded
and leaves nothing of the pass (R124, R127). -/
def Channel.EndsPass (c : Channel) : Prop :=
  ∃ bytes o d, c.ready = some bytes ∧ c.out = some o ∧ o.discard = false ∧ c.cur = some d ∧ d.remainingSize ≤ o.n

/-- SERVICE raises the event exactly when it ends a pass (R124, R127). -/
theorem Channel.service_evt_iff (id : ChannelId) {c : Channel} (hevt : c.evt = false) :
    (c.service id).evt = true ↔ c.EndsPass := by
  rcases c.service_cases id with ⟨hr, e⟩ | ⟨-, hdrop, e⟩ | ⟨bytes, o, d, -, ho, hd, -, hne, e⟩ |
    ⟨bytes, o, d, hr, ho, hd, hdis, hz, e⟩ <;> rw [e]
  · simp [Channel.EndsPass, hevt, hr]
  · refine iff_of_false (by simp [Channel.release, hevt]) ?_
    rintro ⟨bytes, o, d, -, ho, hdis, hd, -⟩
    rcases hdrop with ho' | hd' | ⟨o', ho', hdis'⟩
    · simp [ho] at ho'
    · simp [hd] at hd'
    · obtain rfl := Option.some.inj (ho.symm.trans ho')
      simp [hdis] at hdis'
  · refine iff_of_false (by simp [Channel.release, Channel.complete, hevt]) ?_
    rintro ⟨bytes', o', d', -, ho', -, hd', hle⟩
    obtain rfl := Option.some.inj (ho.symm.trans ho')
    obtain rfl := Option.some.inj (hd.symm.trans hd')
    omega
  · exact iff_of_true (Channel.endPass_evt _ _ _) ⟨bytes, o, d, hr, ho, hdis, hd, by omega⟩

/-- Phases 5 and 6 pulse no event. -/
theorem State.afterAccess_evt (s : State) (i : StepInput) (c : ChannelId) :
    ((s.afterAccess i).chan c).evt = (s.chan c).evt := by
  have hissue (s : State) (d : ChannelId) : ((s.issue d).chan c).evt = (s.chan c).evt := by
    by_cases hcd : c = d
    · subst hcd
      exact (s.issue_frame c).evt
    · rw [(s.issue_frame d).other_chan c hcd]
  have hpushed (ch : Channel) (b : Option Byte) : (ch.pushed b).evt = ch.evt := by
    cases b with
    | none => rfl
    | some b => rcases ch.push_cases b with ⟨-, -, e⟩ | ⟨-, e⟩ <;> rw [Channel.pushed, e]
  have hprotocol : ((s.protocol i.cg i.rxIn).chan c).evt = (s.chan c).evt := by
    cases i.cg with
    | false => rfl
    | true =>
      cases c with
      | rx => exact hpushed _ _
      | tx => rfl
  unfold State.afterAccess
  rw [hissue, hissue, hprotocol]

/-- Settles O21: of the phases only SERVICE raises an event, and phase 0 has cleared the last one. -/
theorem eventExactlyAtPassEnd : Obligations.EventExactlyAtPassEnd := by
  intro c s t h
  change _ ↔ _ ∧ (s.chan c).EndsPass
  obtain ⟨hr, rfl⟩ | ⟨hr, rfl⟩ := step_next_cases h
  · have : (s.resetStep.chan c).evt = false := by cases c <;> rfl
    simp [hr, this]
  · have hserved : ((s.accessed.afterAccess s.nextInput).chan c).evt = ((s.chan c).clearEvent.service c).evt := by
      rw [State.afterAccess_evt, s.accessed_frame.evt, s.beforeAccess_chan, Channel.capture_evt]
    rw [hserved, Channel.service_evt_iff c (c := (s.chan c).clearEvent) rfl, hr]
    exact ⟨fun hends => ⟨rfl, hends⟩, And.right⟩

/-! ### The form of memory -/

/-- The address a canonical memory lists first does not read as an unlisted one. -/
theorem Memory.read_head {low k : Nat} {v : Byte} {m : Memory} (h : Memory.wfFrom low ((k, v) :: m) = true) :
    Memory.read ((k, v) :: m) k = v ∧ v ≠ Config.unwrittenByte :=
  ⟨by simp [Memory.read], ((Memory.wfFrom_cons_iff _ _ _ _).1 h).2.2.1⟩

/-- Two canonical memories that read the same do not begin at different addresses. -/
theorem Memory.head_le_of_read_eq {low low' k k' : Nat} {v v' : Byte} {m m' : Memory}
    (h : Memory.wfFrom low ((k, v) :: m) = true) (h' : Memory.wfFrom low' ((k', v') :: m') = true)
    (hread : ∀ a, Memory.read ((k, v) :: m) a = Memory.read ((k', v') :: m') a) : k' ≤ k := by
  by_contra hlt
  obtain ⟨hv, hne⟩ := Memory.read_head h
  obtain ⟨-, hk, hv', hm'⟩ := (Memory.wfFrom_cons_iff _ _ _ _).1 h'
  have hbelow : Memory.read ((k', v') :: m') k = Config.unwrittenByte :=
    Memory.read_below (low := k') ((Memory.wfFrom_cons_iff _ _ _ _).2 ⟨le_rfl, hk, hv', hm'⟩) (by omega)
  exact hne (by rw [← hv, hread, hbelow])

theorem Memory.eq_of_read_eq {low : Nat} {m m' : Memory} (h : Memory.wfFrom low m = true)
    (h' : Memory.wfFrom low m' = true) (hread : ∀ a, Memory.read m a = Memory.read m' a) : m = m' := by
  induction m generalizing low m' with
  | nil =>
    cases m' with
    | nil => rfl
    | cons cell' m' =>
      obtain ⟨hv', hne'⟩ := Memory.read_head h'
      exact absurd (hv'.symm.trans (hread _).symm) hne'
  | cons cell m ih =>
    obtain ⟨k, v⟩ := cell
    cases m' with
    | nil =>
      obtain ⟨hv, hne⟩ := Memory.read_head h
      exact absurd (hv.symm.trans (hread _)) hne
    | cons cell' m' =>
      obtain ⟨k', v'⟩ := cell'
      obtain rfl : k = k' :=
        le_antisymm (Memory.head_le_of_read_eq h' h fun a => (hread a).symm) (Memory.head_le_of_read_eq h h' hread)
      obtain rfl : v = v' := (Memory.read_head h).1.symm.trans ((hread k).trans (Memory.read_head h').1)
      obtain ⟨-, -, -, hm⟩ := (Memory.wfFrom_cons_iff _ _ _ _).1 h
      obtain ⟨-, -, -, hm'⟩ := (Memory.wfFrom_cons_iff _ _ _ _).1 h'
      rw [ih hm hm' fun a => ?_]
      by_cases ha : k = a
      · rw [Memory.read_below hm (by omega), Memory.read_below hm' (by omega)]
      · simpa [Memory.read, ha] using hread a

/-- Settles O34, by induction on the cells of both memories. -/
theorem canonicalMemoriesAreEqual : Obligations.CanonicalMemoriesAreEqual :=
  fun _ _ => Memory.eq_of_read_eq

/-! ### Reading the registers (R37) -/

/-- The word a read of a register answers with (R100, R102, R104, R106, R108, R110, R112, R114). -/
def State.readWord (s : State) : Reg → Word
  | .rxSaddr => s.rx.saddr
  | .rxSize => s.rx.sizeWord
  | .rxCfg => s.rx.cfgWord
  | .txSaddr => s.tx.saddr
  | .txSize => s.tx.sizeWord
  | .txCfg => s.tx.cfgWord
  | .status => s.statusWord
  | .setup => s.setup.word

/-- The read of a register answers with its word and changes nothing else. -/
theorem exec_readAccess (reg : Reg) (s : State) :
    exec reg.readAccess s = .next (s.respond (.okRead (s.readWord reg))) := by
  cases reg <;> rfl

/-- A reset step leaves in every register what the machine's reset does (R48, R192). -/
theorem State.resetStep_readWord (s : State) (reg : Reg) : s.resetStep.readWord reg = State.reset.readWord reg := by
  cases reg <;> rfl

theorem State.reset_readWord (reg : Reg) : State.reset.readWord reg = 0#32 := by cases reg <;> decide

/-- Settles O48: a read answers with the register's word, which a reset step makes 0. -/
theorem registersReadZeroAfterReset : Obligations.RegistersReadZeroAfterReset := by
  intro s t hrst h reg
  obtain ⟨-, rfl⟩ | ⟨hr, -⟩ := step_next_cases h
  · rw [exec_readAccess, State.resetStep_readWord, State.reset_readWord]
    rfl
  · simp [hrst] at hr

end Sys2Proof.Machine

namespace Sys2Proof

/-! ### What a bus request stands for (R87) -/

theorem Reg.readAccess_wellFormed (reg : Reg) : reg.readAccess.wellFormed = true := by cases reg <;> rfl

theorem Reg.writeAccess_wellFormed (w : Word) (reg : Reg) : (reg.writeAccess w).wellFormed = true := by
  cases reg <;> rfl

/-- A read has no data (R23). -/
theorem BusRequest.keyWrite_or_wdata (r : BusRequest) : keyWrite r.key = true ∨ r.dir.wdata = 0#32 := by
  obtain ⟨off, size, dir⟩ := r
  cases dir with
  | read => exact .inr rfl
  | write w => exact .inl (keyWrite_key_write off size w)

/-- A bus request stands for a well-formed access (R87, R90, R91). -/
theorem decodeRequest_wellFormed (r : BusRequest) : (decodeRequest r).wellFormed = true := by
  unfold decodeRequest
  rcases decodeKey_cases r.key r.dir.wdata with ⟨hv, e⟩ | ⟨-, reg, -, -, e⟩ <;> rw [e]
  · simpa [Instr.wellFormed, keyWrite, hv] using r.keyWrite_or_wdata
  · split
    · exact reg.writeAccess_wellFormed _
    · exact reg.readAccess_wellFormed

end Sys2Proof

namespace Sys2Proof.Machine

open Sys2Proof

/-! ### The register access in a step (R60, R117) -/

/-- Settles O5: every access completes, so the step goes on from the state it leaves. -/
theorem decodedAccessRuns : Obligations.DecodedAccessRuns := by
  intro s i later r hinputs hrst hreq
  have hi : s.nextInput = i := by simp [State.nextInput, hinputs]
  obtain ⟨m, b, -, he⟩ := exec_cases (decodeRequest r) s.beforeAccess
  refine ⟨decodeRequest_wellFormed r, _, he, ?_⟩
  simp [step, hi, hrst, hreq, he]

end Sys2Proof.Machine
end

