-- ==== Sys2Proof/Proofs/MemoryPort.lean ====
section
/-! PROOF. The memory port (spec/20_memory.md): what a request it performs or answers does to memory, what the response
leaves in the channel, and when a channel hands over its next request. -/

namespace Sys2Proof.Machine

open Sys2Proof

/-! ### Runs of bytes in memory (R66) -/

/-- The address `i + 1` bytes on is `i` bytes on from the next address. -/
theorem word_add_one_add (a : Word) (i : Nat) : a + 1#32 + BitVec.ofNat 32 i = a + BitVec.ofNat 32 (i + 1) := by
  rw [BitVec.add_assoc, Nat.add_comm, BitVec.ofNat_add]

/-- The addresses of a run of at most 2^32 bytes differ from its first. -/
theorem word_add_ne {a : Word} {i : Nat} (hi : i + 1 < 2 ^ 32) : (a + BitVec.ofNat 32 (i + 1)).toNat ≠ a.toNat := by
  bv_omega

/-- The bytes a multi-byte load gives, in the order of their addresses. -/
theorem Memory.readBytes_getElem? (m : Memory) (a : Word) {n i : Nat} (hi : i < n) :
    (Memory.readBytes m a n)[i]? = some (Memory.read m (a + BitVec.ofNat 32 i).toNat) := by
  induction n generalizing a i with
  | zero => omega
  | succ n ih =>
    cases i with
    | zero => simp [Memory.readBytes]
    | succ i =>
      rw [Memory.readBytes, List.getElem?_cons_succ, ih (a + 1#32) (Nat.lt_of_succ_lt_succ hi), word_add_one_add]

/-- A multi-byte store puts its bytes at its addresses, in order. -/
theorem Memory.read_writeBytes_inside {m : Memory} (h : Memory.wf m = true) (a : Word) {bytes : List Byte}
    (hlen : bytes.length ≤ 2 ^ 32) {i : Nat} (hi : i < bytes.length) :
    Memory.read (Memory.writeBytes m a bytes) (a + BitVec.ofNat 32 i).toNat = bytes[i] := by
  induction bytes generalizing m a i with
  | nil => simp at hi
  | cons b bs ih =>
    rw [List.length_cons] at hlen hi
    have hwf := Memory.write_wf h a b
    cases i with
    | zero =>
      have hlater : ∀ j < bs.length, (a + 1#32 + BitVec.ofNat 32 j).toNat ≠ a.toNat := fun j hj => by
        rw [word_add_one_add]
        exact word_add_ne (by omega)
      simp [Memory.writeBytes, Memory.read_writeBytes_outside hwf _ _ _ hlater, Memory.read_write h]
    | succ i =>
      rw [← word_add_one_add]
      exact ih hwf (a + 1#32) (by omega) (by omega)

/-! ### Performing a request (R77, R78) -/

theorem MemRequest.perform_read {r : MemRequest} (h : r.op = .read) (m : Memory) :
    r.perform m = (m, Memory.readBytes m r.addr r.n) := by
  simp [MemRequest.perform, h]

theorem MemRequest.perform_write {r : MemRequest} {bytes : List Byte} (h : r.op = .write bytes) (m : Memory) :
    r.perform m = (Memory.writeBytes m r.addr bytes, []) := by
  simp [MemRequest.perform, h]

/-- Memory after the port was told to perform a channel's request. -/
theorem State.portPerform_mem {s : State} {c : ChannelId} {e : PortEntry} (he : s.port c = some e) :
    (s.portPerform c).mem = if e.performed = none then (e.req.perform s.mem).1 else s.mem := by
  obtain ⟨r, _ | bytes⟩ := e <;> simp [State.portPerform, he]

/-- Memory after the port answered a channel's request. -/
theorem State.portAnswer_mem {s : State} {c : ChannelId} {e : PortEntry} (he : s.port c = some e) :
    (s.portAnswer c).1.mem =
      if e.performed = none ∧ s.performsAtAnswer c e.req = true then (e.req.perform s.mem).1 else s.mem := by
  obtain ⟨r, _ | bytes⟩ := e
  · cases hp : s.performsAtAnswer c r <;> simp [State.portAnswer, State.portRelease, he, hp]
  · simp [State.portAnswer, State.portRelease, he]

theorem State.performsAtAnswer_read {r : MemRequest} (h : r.op = .read) (s : State) (c : ChannelId) :
    s.performsAtAnswer c r = true := by
  simp [State.performsAtAnswer, h]

/-- A write is performed at its answer unless it is discarded (R84; log entry 7). -/
theorem State.performsAtAnswer_write {s : State} {c : ChannelId} {r : MemRequest} {bytes : List Byte}
    {o : OutRequest} (h : r.op = .write bytes) (ho : (s.chan c).out = some o) :
    s.performsAtAnswer c r = !o.discard := by
  simp [State.performsAtAnswer, h, Channel.discarding, ho]

/-! ### What a channel's request is, between steps (R24, R32) -/

/-- The channel, its request and the port's entry for it agree as long as the port holds the request. -/
theorem State.Inv.portEntry {s : State} (h : s.Inv) {c : ChannelId} {e : PortEntry} {o : OutRequest}
    (he : s.port c = some e) (ho : (s.chan c).out = some o) :
    (s.chan c).ready = none ∧ e.req.addr = o.addr ∧ e.req.n = o.n ∧ e.req.n ≤ 4 ∧ e.Shape c := by
  have hfit := h.allFit.fit c
  obtain ⟨-, haddr, hn, hshape⟩ := hfit.entry e o he ho
  refine ⟨?_, haddr, hn, hn ▸ (hfit.ok.out_bytes o ho).2, hshape⟩
  simpa [he, ho] using hfit.holds

/-- A write has as many bytes as its request says. -/
theorem PortEntry.Shape.write_length {e : PortEntry} {c : ChannelId} {bytes : List Byte} (h : e.Shape c)
    (hop : e.req.op = .write bytes) : bytes.length = e.req.n := by
  cases c with
  | rx =>
    obtain ⟨⟨bytes', hop', hlen⟩, -⟩ := h
    obtain rfl : bytes = bytes' := by simpa [hop] using hop'
    exact hlen
  | tx => exact absurd (hop.symm.trans h.1) (by simp)

/-- The memory `m'` is `m` with the bytes stored from the address `a` on, modulo 2^32, and every other byte kept. -/
def Memory.Stored (m m' : Memory) (a : Word) (bytes : List Byte) : Prop :=
  (∀ i, ∀ h : i < bytes.length, Memory.read m' (a + BitVec.ofNat 32 i).toNat = bytes[i]) ∧
    ∀ a', (∀ i < bytes.length, (a + BitVec.ofNat 32 i).toNat ≠ a') → Memory.read m' a' = Memory.read m a'

/-- A channel's write stores its bytes at the channel's request when the port performs it. -/
theorem State.Inv.perform_stored {s : State} (h : s.Inv) {c : ChannelId} {e : PortEntry} {o : OutRequest}
    {bytes : List Byte} (he : s.port c = some e) (ho : (s.chan c).out = some o) (hop : e.req.op = .write bytes) :
    Memory.Stored s.mem (e.req.perform s.mem).1 o.addr bytes := by
  obtain ⟨-, haddr, -, hle, hshape⟩ := h.portEntry he ho
  have hlen := hshape.write_length hop
  rw [MemRequest.perform_write hop, haddr]
  exact ⟨fun _ => Memory.read_writeBytes_inside h.mem _ (by omega),
    fun a' => Memory.read_writeBytes_outside h.mem _ _ a'⟩

/-! ### Phases 0 to 4 -/

theorem Channel.service_of_not_ready {c : Channel} (h : c.ready = none) (id : ChannelId) : c.service id = c := by
  simp [Channel.service, h]

theorem Channel.capture_out (id : ChannelId) (c : Channel) (arr : Option (List Byte)) :
    (c.capture id arr).out = c.out := by
  rcases c.capture_cases id arr with ⟨-, e⟩ | ⟨bytes, o, -, -, e⟩ <;> rw [e]

theorem Channel.capture_clearEvent_ready (id : ChannelId) (c : Channel) (arr : Option (List Byte)) :
    (c.clearEvent.capture id arr).ready = (c.capture id arr).ready := by
  cases arr with
  | none => rfl
  | some bytes => cases ho : c.out <;> simp [Channel.capture, Channel.clearEvent, ho]

theorem Channel.capture_tx_ready {c : Channel} {o : OutRequest} (ho : c.out = some o) (bytes : List Byte) :
    (c.capture .tx (some bytes)).ready = some (bytes.take o.n) := by
  simp [Channel.capture, ho]

theorem Channel.capture_rx_ready {c : Channel} {o : OutRequest} (ho : c.out = some o) (bytes : List Byte) :
    (c.capture .rx (some bytes)).ready = some [] := by
  simp [Channel.capture, ho]

/-- SERVICE leaves no request out only if none was out or its response was captured (R124). -/
theorem Channel.free_of_service_out {id : ChannelId} {c : Channel} (h : (c.service id).out = none) :
    c.out = none ∨ c.ready ≠ none := by
  by_cases hr : c.ready = none
  · exact .inl (by rwa [c.service_of_not_ready hr] at h)
  · exact .inr hr

/-- Before the register access, a channel without a captured response has only captured the one that arrives. -/
theorem State.beforeAccess_chan_of_not_ready {s : State} {c : ChannelId} (h : (s.chan c).ready = none) :
    s.beforeAccess.chan c = (s.chan c).clearEvent.capture c (s.environment.2.get c) := by
  rw [s.beforeAccess_chan, Channel.service_of_not_ready (c := (s.chan c).clearEvent) h]

/-! ### Phases 5 and 6 -/

theorem State.protocol_port (s : State) (cg v : Bool) (c : ChannelId) : (s.protocol cg v).port c = s.port c := by
  cases cg <;> cases c <;> rfl

theorem State.protocol_issued (s : State) (cg v : Bool) : (s.protocol cg v).issued = s.issued := by
  cases cg <;> rfl

theorem Channel.pushed_out_ready (c : Channel) (b : Option Byte) :
    (c.pushed b).out = c.out ∧ (c.pushed b).ready = c.ready := by
  cases b with
  | none => exact ⟨rfl, rfl⟩
  | some b => rcases c.push_cases b with ⟨-, -, e⟩ | ⟨-, e⟩ <;> rw [Channel.pushed, e] <;> exact ⟨rfl, rfl⟩

/-- The FSMs touch no request and no captured response. -/
theorem State.protocol_out_ready (s : State) (cg v : Bool) (c : ChannelId) :
    ((s.protocol cg v).chan c).out = (s.chan c).out ∧ ((s.protocol cg v).chan c).ready = (s.chan c).ready := by
  cases cg with
  | false => exact ⟨rfl, rfl⟩
  | true =>
    cases c with
    | rx => exact s.rx.pushed_out_ready _
    | tx => exact ⟨rfl, rfl⟩

/-- What phase 6 makes of a channel `c` and the port's entry `p` for it: it leaves both, or it hands over the
channel's next request (R121, R122). -/
def Channel.Issues (id : ChannelId) (c c' : Channel) (p p' : Option PortEntry) : Prop :=
  (c.nextRequest id = none ∧ c' = c ∧ p' = p) ∨
    ∃ r, c.nextRequest id = some r ∧ c' = c.requested id r ∧ p' = some ⟨r, none⟩

theorem State.issue_issues (s : State) (c : ChannelId) :
    Channel.Issues c (s.chan c) ((s.issue c).chan c) (s.port c) ((s.issue c).port c) := by
  rcases s.issue_cases c with ⟨hn, e⟩ | ⟨r, hr, e⟩ <;> rw [e]
  · exact .inl ⟨hn, rfl, rfl⟩
  · exact .inr ⟨r, hr, by simp, by simp⟩

/-- In phases 5 and 6 a channel meets the FSMs and its own issue only (R61). -/
theorem State.afterAccess_issues (s : State) (i : StepInput) (c : ChannelId) :
    Channel.Issues c ((s.protocol i.cg i.rxIn).chan c) ((s.afterAccess i).chan c) (s.port c)
      ((s.afterAccess i).port c) := by
  rw [← s.protocol_port i.cg i.rxIn c]
  unfold State.afterAccess
  generalize s.protocol i.cg i.rxIn = p
  cases c with
  | rx =>
    have f := (p.issue .rx).issue_frame .tx
    rw [f.other_chan .rx (by decide), f.other_port .rx (by decide)]
    exact p.issue_issues .rx
  | tx =>
    have f := p.issue_frame .rx
    rw [← f.other_chan .tx (by decide), ← f.other_port .tx (by decide)]
    exact (p.issue .rx).issue_issues .tx

/-- A channel with a request out hands over no other (R75). -/
theorem Channel.out_of_nextRequest {id : ChannelId} {c : Channel} {r : MemRequest}
    (h : c.nextRequest id = some r) : c.out = none ∧ r.chan = id := by
  cases id with
  | rx =>
    obtain ⟨d, -, ho, -, rfl⟩ := (c.nextRequest_rx r).1 h
    exact ⟨ho, rfl⟩
  | tx =>
    obtain ⟨d, -, ho, -, rfl⟩ := (c.nextRequest_tx r).1 h
    exact ⟨ho, rfl⟩

theorem Channel.Issues.ready {id : ChannelId} {c c' : Channel} {p p' : Option PortEntry}
    (h : Channel.Issues id c c' p p') : c'.ready = c.ready := by
  obtain ⟨-, rfl, -⟩ | ⟨r, -, rfl, -⟩ := h <;> rfl

theorem State.issue_issued (s : State) (c : ChannelId) :
    (s.issue c).issued = s.issued ++ ((s.chan c).nextRequest c).toList := by
  rcases s.issue_cases c with ⟨hn, e⟩ | ⟨r, hr, e⟩ <;> rw [e]
  · simp [hn]
  · simp [hr]

/-- Phase 6 hands over the next request of RX, then that of TX (R60). -/
theorem State.afterAccess_issued (s : State) (i : StepInput) :
    (s.afterAccess i).issued = s.issued ++ ((s.protocol i.cg i.rxIn).rx.nextRequest .rx).toList ++
      ((s.protocol i.cg i.rxIn).tx.nextRequest .tx).toList := by
  have hother : ((s.protocol i.cg i.rxIn).issue .rx).chan .tx = (s.protocol i.cg i.rxIn).chan .tx :=
    (State.issue_frame _ .rx).other_chan .tx (by decide)
  rw [State.afterAccess, State.issue_issued, hother, State.issue_issued, State.protocol_issued]
  rfl

/-- The requests a step hands over for a channel: its next one after phase 5, if there is one. -/
theorem State.afterAccess_issued_chan {s : State} (hs : s.issued = []) (i : StepInput) (c : ChannelId) :
    (s.afterAccess i).issued.filter (fun r => r.chan = c) =
      (((s.protocol i.cg i.rxIn).chan c).nextRequest c).toList := by
  have hchan (id : ChannelId) (ch : Channel) :
      (ch.nextRequest id).toList.filter (fun r => r.chan = c) = if id = c then (ch.nextRequest id).toList else [] := by
    cases h : ch.nextRequest id with
    | none => simp
    | some r =>
      obtain ⟨-, rfl⟩ := Channel.out_of_nextRequest h
      by_cases hc : r.chan = c <;> simp [hc]
  rw [State.afterAccess_issued, hs, List.nil_append, List.filter_append, hchan, hchan]
  cases c <;> simp

/-! ### The step -/

theorem step_completes (s : State) : ∃ t, step s = .next t := by
  rcases step_cases s with ⟨-, e⟩ | ⟨-, -, e⟩ | ⟨-, req, m, r, -, -, -, e⟩ <;> exact ⟨_, e⟩

/-- A channel hands over a request only if it began the step with none out or with its response captured (R75). -/
theorem State.free_of_nextRequest {s : State} {cg v : Bool} {c : ChannelId} {r : MemRequest}
    (h : ((s.accessed.protocol cg v).chan c).nextRequest c = some r) :
    (s.chan c).out = none ∨ (s.chan c).ready ≠ none := by
  obtain ⟨hout, -⟩ := Channel.out_of_nextRequest h
  have hbefore : (s.beforeAccess.chan c).out = none := by
    rw [(s.accessed.protocol_out_ready cg v c).1] at hout
    simpa [hout] using s.accessed_frame.out c
  rw [s.beforeAccess_chan, Channel.capture_out] at hbefore
  exact Channel.free_of_service_out (c := (s.chan c).clearEvent) hbefore

/-- While a channel waits for a response, only the environment moves its request in the port. -/
theorem step_port_of_waiting {s t : State} (h : step s = .next t) {c : ChannelId} (hout : (s.chan c).out ≠ none)
    (hready : (s.chan c).ready = none) : t.port c = s.environment.1.port c := by
  obtain ⟨-, rfl⟩ | ⟨-, rfl⟩ := step_next_cases h
  · cases c <;> rfl
  · rcases s.accessed.afterAccess_issues s.nextInput c with ⟨-, -, hport⟩ | ⟨r, hr, -, -⟩
    · rw [hport, s.accessed_frame.port, s.beforeAccess_port]
    · exact ((State.free_of_nextRequest hr).elim hout fun h => h hready).elim

/-- A step that is no reset step leaves a channel the response it captures in it (R123). -/
theorem step_ready_of_not_ready {s t : State} (h : step s = .next t) (hrst : s.nextInput.rst = false)
    {c : ChannelId} (hready : (s.chan c).ready = none) :
    (t.chan c).ready = ((s.chan c).capture c (s.environment.2.get c)).ready ∧ (t.chan c).evt = false := by
  obtain ⟨hr, -⟩ | ⟨-, rfl⟩ := step_next_cases h
  · simp [hrst] at hr
  have hbefore := State.beforeAccess_chan_of_not_ready hready
  constructor
  · rw [(s.accessed.afterAccess_issues s.nextInput c).ready, (s.accessed.protocol_out_ready _ _ c).2,
      s.accessed_frame.ready, hbefore, Channel.capture_clearEvent_ready]
  · rw [State.afterAccess_evt, s.accessed_frame.evt, hbefore, Channel.capture_evt]
    rfl

theorem State.resetStep_ready (s : State) (c : ChannelId) : (s.resetStep.chan c).ready = none := by
  cases c <;> rfl

theorem State.resetStep_issued (s : State) : s.resetStep.issued = [] :=
  (s.begin.memEvents_sameBlock s.nextInput.mem).issued

/-- Settles O27: phase 6 gives a channel at most one request, and one only after SERVICE has freed it. -/
theorem requestsAreSequential : Obligations.RequestsAreSequential := by
  intro c s t h
  obtain ⟨-, rfl⟩ | ⟨-, rfl⟩ := step_next_cases h
  · simp [State.resetStep_issued]
  · have hissued := State.afterAccess_issued_chan (s.accessed_frame.issued.trans s.beforeAccess_issued) s.nextInput c
    refine ⟨?_, fun r hr hc => ?_⟩
    · rw [hissued]
      exact Option.length_toList_le
    · have hnext : ((s.accessed.protocol s.nextInput.cg s.nextInput.rxIn).chan c).nextRequest c = some r := by
        rw [← Option.mem_toList, ← hissued]
        simpa [hc] using hr
      rcases s.accessed.afterAccess_issues s.nextInput c with ⟨hnone, -, -⟩ | ⟨r', hr', hchan, hport⟩
      · simp [hnone] at hnext
      · obtain rfl : r = r' := Option.some.inj (hnext.symm.trans hr')
        exact ⟨State.free_of_nextRequest hnext, hport, by rw [hchan]; rfl⟩

/-- Settles O33: only the environment's part of a step touches memory, and here it does nothing. -/
theorem memoryChangesOnlyThroughPort : Obligations.MemoryChangesOnlyThroughPort := by
  intro s t h hmem a
  have henv : s.environment = (s.begin, Arrivals.empty) := by
    rw [State.environment, hmem]
    rfl
  rw [step_mem h, henv, State.begin_mem]

/-! ### A step in which the port does one thing -/

theorem State.environment_of_single {s : State} {ev : MemEvent} (h : s.nextInput.mem = [ev]) :
    s.environment = State.memEvent (s.begin, Arrivals.empty) ev := by
  rw [State.environment, h]
  rfl

/-- In the next step the port answers a channel's request, with or without an error status, and nothing else acts. -/
def State.OnlyAnswers (s : State) (c : ChannelId) : Prop :=
  s.nextInput.mem = [.answer c] ∨ ∃ data, s.nextInput.mem = [.answerError c data]

/-- An answer does the same to memory and to the port whatever its status (R83). -/
theorem State.OnlyAnswers.environment {s : State} {c : ChannelId} (h : s.OnlyAnswers c) :
    s.environment.1 = (s.begin.portAnswer c).1 := by
  obtain hmem | ⟨data, hmem⟩ := h <;> rw [State.environment_of_single hmem] <;> rfl

theorem State.performsAtAnswer_begin (s : State) (c : ChannelId) (r : MemRequest) :
    s.begin.performsAtAnswer c r = s.performsAtAnswer c r := by
  simp [State.performsAtAnswer, Channel.discarding, Channel.clearEvent]

/-- The response of an answer that reports no error. -/
theorem State.environment_answer {s : State} {c : ChannelId} (hmem : s.nextInput.mem = [.answer c]) {e : PortEntry}
    (he : s.port c = some e) :
    s.environment.2.get c =
      some (e.performed.getD (if s.performsAtAnswer c e.req then (e.req.perform s.mem).2 else [])) := by
  rw [State.environment_of_single hmem]
  simp [State.memEvent, State.portAnswer_response, he, State.performsAtAnswer_begin]

/-- The response of an answer with an error status (R83). -/
theorem State.environment_answerError {s : State} {c : ChannelId} {data : List Byte}
    (hmem : s.nextInput.mem = [.answerError c data]) {e : PortEntry} (he : s.port c = some e) :
    s.environment.2.get c = some (e.req.errorBytes data) := by
  rw [State.environment_of_single hmem]
  simp [State.memEvent, State.portAnswerError, he]

/-- A response arrives with every answer to a request the port holds. -/
theorem State.OnlyAnswers.arrives {s : State} {c : ChannelId} (h : s.OnlyAnswers c) {e : PortEntry}
    (he : s.port c = some e) : ∃ bytes, s.environment.2.get c = some bytes := by
  obtain hmem | ⟨data, hmem⟩ := h
  · exact ⟨_, s.environment_answer hmem he⟩
  · exact ⟨_, s.environment_answerError hmem he⟩

/-- Memory after a step in which the port answers one request. -/
theorem State.OnlyAnswers.step_mem {s t : State} {c : ChannelId} (hans : s.OnlyAnswers c) (h : step s = .next t)
    {e : PortEntry} (he : s.port c = some e) :
    t.mem =
      if e.performed = none ∧ s.performsAtAnswer c e.req = true then (e.req.perform s.mem).1 else s.mem := by
  rw [Machine.step_mem h, hans.environment, State.portAnswer_mem (s := s.begin) (by simpa using he),
    s.performsAtAnswer_begin, s.begin_mem]

/-- The port lets go of the request it answers. -/
theorem State.OnlyAnswers.step_port {s t : State} {c : ChannelId} (hans : s.OnlyAnswers c) (h : step s = .next t)
    (hout : (s.chan c).out ≠ none) (hready : (s.chan c).ready = none) : t.port c = none := by
  rw [step_port_of_waiting h hout hready, hans.environment, State.portAnswer_port, if_pos rfl]

/-- The response to a read has the bytes asked for (R77, R83). -/
theorem State.Inv.arrived_length {s : State} (h : s.Inv) {o : OutRequest} {bytes : List Byte}
    (ho : s.tx.out = some o) (hget : s.environment.2.get .tx = some bytes) : bytes.length = o.n := by
  have henv : s.environment.1.AllFit s.environment.2 := h.allFit.begin.memEvents _
  have hout : (s.environment.1.chan .tx).out = some o := by
    rw [State.environment, (s.begin.memEvents_sameBlock s.nextInput.mem).chan]
    exact ho
  exact (henv.fit .tx).arrived_bytes rfl o bytes hout hget

/-- Settles O29: the response the environment's part of the step gives is captured whole. -/
theorem readAnswerBringsMemory : Obligations.ReadAnswerBringsMemory := by
  intro s e o hinv hrst he ho hans
  replace hans : s.OnlyAnswers .tx := hans
  obtain ⟨hready, haddr, hn, -, hread, -⟩ := hinv.portEntry (c := .tx) he ho
  have hperform := State.performsAtAnswer_read hread s .tx
  obtain ⟨bytes, hget⟩ := hans.arrives he
  have hlen := hinv.arrived_length ho hget
  obtain ⟨t, h⟩ := step_completes s
  obtain ⟨hcaptured, hevt⟩ := step_ready_of_not_ready h hrst hready
  refine ⟨t, bytes, h, ?_, hlen, hevt, hans.step_port h (by simp [ho]) hready, fun a => ?_, fun hmem hnot => ?_,
    fun hmem early hearly => ?_, fun data hmem hdata => ?_⟩
  · rw [hget, Channel.capture_tx_ready (c := s.chan .tx) ho, ← hlen, List.take_length] at hcaptured
    exact hcaptured
  · rw [hans.step_mem h he, MemRequest.perform_read hread, ite_self]
  · have hbytes := hget.symm.trans (s.environment_answer hmem he)
    rw [hnot, hperform, MemRequest.perform_read hread] at hbytes
    obtain rfl : bytes = Memory.readBytes s.mem e.req.addr e.req.n := by simpa using hbytes
    rw [← haddr, ← hn]
    exact fun i hi => Memory.readBytes_getElem? _ _ hi
  · have hbytes := hget.symm.trans (s.environment_answer hmem he)
    simpa [hearly] using hbytes
  · have hbytes := hget.symm.trans (s.environment_answerError hmem he)
    simpa [MemRequest.errorBytes, hread, hn, hdata, List.take_append] using hbytes

/-- Settles O30: an answer performs the write unless it was performed before or is discarded. -/
theorem writeAnswerLandsInMemory : Obligations.WriteAnswerLandsInMemory := by
  intro s e bytes o hinv hans he hop ho
  replace hans : s.OnlyAnswers .rx := hans
  obtain ⟨hready, -⟩ := hinv.portEntry (c := .rx) he ho
  have hperforms := State.performsAtAnswer_write (c := .rx) hop ho
  obtain ⟨response, hget⟩ := hans.arrives he
  obtain ⟨t, h⟩ := step_completes s
  have hmem := hans.step_mem h he
  refine ⟨t, h, hans.step_port h (by simp [ho]) hready, fun hrst => ?_, fun hnot hkeep => ?_, fun hleft a => ?_⟩
  · obtain ⟨hcaptured, -⟩ := step_ready_of_not_ready h hrst hready
    rwa [hget, Channel.capture_rx_ready (c := s.chan .rx) ho] at hcaptured
  · rw [if_pos ⟨hnot, by simp [hperforms, hkeep]⟩] at hmem
    rw [hmem]
    exact hinv.perform_stored (c := .rx) he ho hop
  · rw [if_neg] at hmem
    · rw [hmem]
    · rintro ⟨hnot, hp⟩
      rcases hleft with hdone | hdiscard
      · exact hdone hnot
      · simp [hperforms, hdiscard] at hp

/-- No response arrives in a step in which the port only performs a request. -/
theorem State.environment_perform {s : State} {c : ChannelId} (hmem : s.nextInput.mem = [.perform c]) :
    s.environment = (s.begin.portPerform c, Arrivals.empty) :=
  State.environment_of_single hmem

/-- The port's entry after a step in which the port performs the request: it keeps the response's bytes. -/
theorem step_perform_port {s t : State} (h : step s = .next t) {c : ChannelId}
    (hmem : s.nextInput.mem = [.perform c]) {e : PortEntry} (he : s.port c = some e)
    (hout : (s.chan c).out ≠ none) (hready : (s.chan c).ready = none) :
    t.port c = some ⟨e.req, some (e.performed.getD (e.req.perform s.mem).2)⟩ := by
  rw [step_port_of_waiting h hout hready, State.environment_perform hmem]
  simp [State.portPerform_port, he]

theorem step_perform_mem {s t : State} (h : step s = .next t) {c : ChannelId}
    (hmem : s.nextInput.mem = [.perform c]) {e : PortEntry} (he : s.port c = some e) :
    t.mem = if e.performed = none then (e.req.perform s.mem).1 else s.mem := by
  rw [step_mem h, State.environment_perform hmem, State.portPerform_mem (s := s.begin) (by simpa using he), s.begin_mem]

/-- A channel whose request is only performed has still no response. -/
theorem step_perform_ready {s t : State} (h : step s = .next t) {c : ChannelId}
    (hmem : s.nextInput.mem = [.perform c]) (hready : (s.chan c).ready = none) : (t.chan c).ready = none := by
  obtain ⟨-, rfl⟩ | ⟨hrst, -⟩ := step_next_cases h
  · exact s.resetStep_ready c
  · obtain ⟨hcaptured, -⟩ := step_ready_of_not_ready h hrst hready
    rw [State.environment_perform hmem, Arrivals.get_empty] at hcaptured
    exact hcaptured.trans hready

/-- Settles O31: an entry performed before is left alone, another is performed on memory as it stands. -/
theorem requestPerformedOnce : Obligations.RequestPerformedOnce := by
  intro c s e o hinv hmem he ho
  obtain ⟨hready, haddr, hn, -, -⟩ := hinv.portEntry he ho
  obtain ⟨t, h⟩ := step_completes s
  have hport := step_perform_port h hmem he (by simp [ho]) hready
  have htmem := step_perform_mem h hmem he
  refine ⟨t, h, step_perform_ready h hmem hready, fun hdone => ?_, fun hnot hread => ?_, fun bytes hnot hop => ?_⟩
  · obtain ⟨early, hearly⟩ := Option.ne_none_iff_exists'.1 hdone
    rw [if_neg hdone] at htmem
    rw [hport, htmem, hearly, Option.getD_some, ← hearly]
    exact ⟨rfl, fun _ => rfl⟩
  · rw [hnot, MemRequest.perform_read hread] at hport
    rw [if_pos hnot, MemRequest.perform_read hread] at htmem
    rw [← haddr, ← hn, htmem]
    exact ⟨⟨_, hport, Memory.readBytes_length _ _ _, fun i hi => Memory.readBytes_getElem? _ _ hi⟩, fun _ => rfl⟩
  · rw [hnot, MemRequest.perform_write hop] at hport
    rw [if_pos hnot] at htmem
    rw [htmem]
    exact ⟨hport, hinv.perform_stored he ho hop⟩

/-! ### A step in which anything happens at the port -/

/-- The action performs the channel's request if it is not performed yet: the port performs it or answers it. -/
def PerformsFor (c : ChannelId) (ev : MemEvent) : Prop :=
  ev = .perform c ∨ ev = .answer c ∨ ∃ data, ev = .answerError c data

/-- Any other action leaves the channel's request in the port and its response as they were. -/
theorem memEvent_of_not_performsFor {c : ChannelId} {ev : MemEvent} (h : ¬ PerformsFor c ev)
    (p : State × Arrivals) :
    (State.memEvent p ev).1.port c = p.1.port c ∧ (State.memEvent p ev).2.get c = p.2.get c := by
  cases ev with
  | store addr b => exact ⟨p.1.setMem_port _ c, rfl⟩
  | perform d =>
    have hcd : c ≠ d := by
      rintro rfl
      exact h (.inl rfl)
    exact ⟨by simp [State.memEvent, State.portPerform_port, hcd], rfl⟩
  | answer d =>
    have hcd : c ≠ d := by
      rintro rfl
      exact h (.inr (.inl rfl))
    exact ⟨by simp [State.memEvent, State.portAnswer_port, hcd], Arrivals.get_add_other _ _ _ _ hcd⟩
  | answerError d data =>
    have hcd : c ≠ d := by
      rintro rfl
      exact h (.inr (.inr ⟨data, rfl⟩))
    exact ⟨by simp [State.memEvent, State.portAnswerError, State.portAnswer_port, hcd],
      Arrivals.get_add_other _ _ _ _ hcd⟩

/-- The action that performs a request does to memory what the request says. -/
theorem memEvent_mem_of_performsFor {c : ChannelId} {ev : MemEvent} (h : PerformsFor c ev) {p : State × Arrivals}
    {r : MemRequest} (hp : p.1.port c = some ⟨r, none⟩) (hr : p.1.performsAtAnswer c r = true) :
    (State.memEvent p ev).1.mem = (r.perform p.1.mem).1 := by
  have hanswer : (p.1.portAnswer c).1.mem = (r.perform p.1.mem).1 := by
    rw [State.portAnswer_mem hp, if_pos ⟨rfl, hr⟩]
  obtain rfl | rfl | ⟨data, rfl⟩ := h
  · exact State.portPerform_mem hp
  · exact hanswer
  · exact hanswer

/-- If a response arrives for a request that is to be performed, one of the actions has performed it, by induction on
the actions up to the first that does. -/
theorem exists_performing_event {c : ChannelId} {r : MemRequest} (events : List MemEvent) {p : State × Arrivals}
    (hp : p.1.port c = some ⟨r, none⟩) (hr : p.1.performsAtAnswer c r = true) (hnone : p.2.get c = none)
    (harr : (events.foldl State.memEvent p).2.get c ≠ none) :
    ∃ before now later, events = before ++ now :: later ∧ PerformsFor c now ∧
      ((before ++ [now]).foldl State.memEvent p).1.mem =
        (r.perform (before.foldl State.memEvent p).1.mem).1 := by
  induction events generalizing p with
  | nil => exact absurd hnone harr
  | cons ev events ih =>
    by_cases hev : PerformsFor c ev
    · exact ⟨[], ev, events, rfl, hev, memEvent_mem_of_performsFor hev hp hr⟩
    · obtain ⟨hport, hget⟩ := memEvent_of_not_performsFor hev p
      have hchan := (State.memEvent_sameBlock p ev).chan c
      obtain ⟨before, now, later, rfl, hnow, hmem⟩ := ih (hport.trans hp)
        ((State.performsAtAnswer_congr hchan r).trans hr) (hget.trans hnone) harr
      exact ⟨ev :: before, now, later, rfl, hnow, hmem⟩

/-- Settles O32: the first action that concerns the request performs it, and no response arrives without one. -/
theorem answeredWriteIsPerformed : Obligations.AnsweredWriteIsPerformed := by
  intro s r bytes o hp hop ho hkeep harrives
  obtain ⟨t, h⟩ := step_completes s
  have hperforms : s.begin.performsAtAnswer .rx r = true := by
    rw [s.performsAtAnswer_begin, State.performsAtAnswer_write (c := .rx) hop ho, hkeep, Bool.not_false]
  obtain ⟨before, now, later, hevents, hnow, hmem⟩ :=
    exists_performing_event (c := .rx) (p := (s.begin, Arrivals.empty)) s.nextInput.mem hp hperforms rfl
      (Option.isSome_iff_ne_none.1 harrives)
  rw [MemRequest.perform_write hop] at hmem
  exact ⟨t, before, now, later, h, hevents, hnow, hmem, step_mem h⟩

end Sys2Proof.Machine
end

