-- ==== Sys2Proof/Proofs/Encoding.lean ====
section
/-! PROOF. Encoding (spec/30_encoding.md): the bytes of an access lay out the key and the data of its request, a key
and its data stand for one access, and a placed word is the request the next step runs. -/

namespace Sys2Proof

/-! ### The layout as bytes (log entry 3) -/

theorem keyHighByte_fields : ∀ x : BitVec 2,
    (x.setWidth 8).extractLsb' 0 2 = x ∧ (x.setWidth 8).extractLsb' 2 6 = 0#6 := by decide

/-- The two bytes of a key make the key. -/
theorem key_of_keyBytes (k : Key) :
    (((k.extractLsb' 8 2).setWidth 8).extractLsb' 0 2 ++ k.extractLsb' 0 8 : BitVec 10) = k := by
  rw [(keyHighByte_fields _).1]
  exact (BitVec.extractLsb'_append_extractLsb'_eq_extractLsb' rfl).trans BitVec.extractLsb'_eq_self

/-- The four bytes of a word make the word. -/
theorem word_of_wordBytes (w : Word) :
    (w.extractLsb' 24 8 ++ w.extractLsb' 16 8 ++ w.extractLsb' 8 8 ++ w.extractLsb' 0 8 : BitVec 32) = w := by
  have h16 : w.extractLsb' 24 8 ++ w.extractLsb' 16 8 = w.extractLsb' 16 16 :=
    BitVec.extractLsb'_append_extractLsb'_eq_extractLsb' rfl
  have h8 : w.extractLsb' 16 16 ++ w.extractLsb' 8 8 = w.extractLsb' 8 24 :=
    BitVec.extractLsb'_append_extractLsb'_eq_extractLsb' rfl
  have h0 : w.extractLsb' 8 24 ++ w.extractLsb' 0 8 = w.extractLsb' 0 32 :=
    BitVec.extractLsb'_append_extractLsb'_eq_extractLsb' rfl
  rw [h16, h8]
  exact h0.trans BitVec.extractLsb'_eq_self

/-- The bytes of a read's key are the whole request. -/
theorem requestOfBytes_read {k : Key} (hk : keyWrite k = false) (rest : List Byte) :
    requestOfBytes (keyBytes k ++ rest) = .ok (requestOfKey k 0#32, rest) := by
  simp [requestOfBytes, keyBytes, key_of_keyBytes, (keyHighByte_fields _).2, hk]

/-- The bytes of a write's key are followed by those of its data. -/
theorem requestOfBytes_write {k : Key} (hk : keyWrite k = true) (w : Word) (rest : List Byte) :
    requestOfBytes (keyBytes k ++ wordBytes w ++ rest) = .ok (requestOfKey k w, rest) := by
  simp [requestOfBytes, keyBytes, wordBytes, key_of_keyBytes, word_of_wordBytes, (keyHighByte_fields _).2, hk]

/-- The bytes of an access lay out the key and the data of its request. -/
theorem requestOfBytes_encode (i : Instr) (rest : List Byte) :
    requestOfBytes (encode i ++ rest) =
      .ok (requestOfKey (encodeRequest i).key (encodeRequest i).dir.wdata, rest) := by
  unfold encode
  obtain ⟨off, size, dir⟩ := encodeRequest i
  cases dir with
  | read => exact requestOfBytes_read (keyWrite_key_read off size) rest
  | write w => exact requestOfBytes_write (keyWrite_key_write off size w) w rest

/-! ### A key and its data stand for the request they are taken from (R86) -/

theorem requestOfKey_dir (r : BusRequest) : (requestOfKey r.key r.dir.wdata).dir = r.dir := by
  obtain ⟨off, size, dir⟩ := r
  cases dir with
  | read => simp [requestOfKey, keyWrite_key_read]
  | write w => simp [requestOfKey, keyWrite_key_write, Direction.wdata]

/-- The decoder sees only the key and the data of a request (R87). -/
theorem decodeRequest_requestOfKey (r : BusRequest) :
    decodeRequest (requestOfKey r.key r.dir.wdata) = decodeRequest r := by
  rw [decodeRequest, requestOfKey_key, requestOfKey_dir, decodeRequest]

/-- The request of a well-formed access stands for that access (R87, R90). -/
theorem decodeRequest_encodeRequest {i : Instr} (h : i.wellFormed = true) : decodeRequest (encodeRequest i) = i := by
  cases i with
  | rdRxSaddr => exact Laws.RequestRoundTrip.rdRxSaddr h
  | wrRxSaddr w => exact Laws.RequestRoundTrip.wrRxSaddr w h
  | rdRxSize => exact Laws.RequestRoundTrip.rdRxSize h
  | wrRxSize w => exact Laws.RequestRoundTrip.wrRxSize w h
  | rdRxCfg => exact Laws.RequestRoundTrip.rdRxCfg h
  | wrRxCfg w => exact Laws.RequestRoundTrip.wrRxCfg w h
  | rdTxSaddr => exact Laws.RequestRoundTrip.rdTxSaddr h
  | wrTxSaddr w => exact Laws.RequestRoundTrip.wrTxSaddr w h
  | rdTxSize => exact Laws.RequestRoundTrip.rdTxSize h
  | wrTxSize w => exact Laws.RequestRoundTrip.wrTxSize w h
  | rdTxCfg => exact Laws.RequestRoundTrip.rdTxCfg h
  | wrTxCfg w => exact Laws.RequestRoundTrip.wrTxCfg w h
  | rdStatus => exact Laws.RequestRoundTrip.rdStatus h
  | wrStatus w => exact Laws.RequestRoundTrip.wrStatus w h
  | rdSetup => exact Laws.RequestRoundTrip.rdSetup h
  | wrSetup w => exact Laws.RequestRoundTrip.wrSetup w h
  | invalid k w => exact Laws.RequestRoundTrip.invalid k w h

/-- Settles O1: the bytes hold the key and the data of the access's request, which is all the decoder looks at. -/
theorem encodedAccessDecodesBack : Obligations.EncodedAccessDecodesBack := by
  intro i rest h
  rw [decode, requestOfBytes_encode]
  simp only [decodeRequest_requestOfKey, decodeRequest_encodeRequest h]

/-! ### A request stands for one access (R87, R90, R91) -/

theorem encodeRequest_readAccess (reg : Reg) : encodeRequest reg.readAccess = readRequest reg := by cases reg <;> rfl

theorem encodeRequest_writeAccess (reg : Reg) (w : Word) :
    encodeRequest (reg.writeAccess w) = writeRequest reg w := by cases reg <;> rfl

/-- A key is its three fields (R86). -/
theorem key_ext {k k' : Key} (hwrite : keyWrite k = keyWrite k') (hsize : keySize k = keySize k')
    (hoffset : keyOffset k = keyOffset k') : k = k' := by
  rw [← key_of_fields k, ← key_of_fields k', hwrite, hsize, hoffset]

/-- A request with the direction, the offset and the width of a register's has the key of the register's (R86). -/
theorem BusRequest.key_eq_of_register {r : BusRequest} {reg : Reg} (hreg : Reg.ofOffset (keyOffset r.key) = some reg)
    (hsize : keySize r.key = 0b10#2) (dir : Direction) (hdir : (dir.writeBit == 1#1) = keyWrite r.key) :
    BusRequest.key ⟨reg.offset, 4, dir⟩ = r.key := by
  obtain ⟨hw, hs, ho⟩ := BusRequest.key_fields ⟨reg.offset, 4, dir⟩
  exact key_ext (hw.trans hdir) (hs.trans hsize.symm) (ho.trans (Reg.ofOffset_eq_some _ _ hreg))

/-- The access a request stands for asks for the request's key with its data. -/
theorem encodeRequest_decodeRequest (r : BusRequest) :
    (encodeRequest (decodeRequest r)).key = r.key ∧ (encodeRequest (decodeRequest r)).dir = r.dir := by
  unfold decodeRequest
  rcases decodeKey_cases r.key r.dir.wdata with ⟨-, e⟩ | ⟨-, reg, hreg, hsize, e⟩ <;> rw [e]
  · exact ⟨requestOfKey_key _ _, requestOfKey_dir r⟩
  · have hkey := BusRequest.key_eq_of_register hreg hsize r.dir r.key_fields.1.symm
    obtain ⟨off, size, dir⟩ := r
    cases dir with
    | read =>
      rw [keyWrite_key_read, if_neg Bool.false_ne_true, encodeRequest_readAccess]
      exact ⟨hkey, rfl⟩
    | write w =>
      rw [keyWrite_key_write, if_pos rfl, encodeRequest_writeAccess]
      exact ⟨hkey, rfl⟩

/-- Settles O2: an invalid access keeps the key it was presented with, and the key of a valid one is the register's. -/
theorem decodedRequestIsWellFormed : Obligations.DecodedRequestIsWellFormed :=
  fun r => ⟨decodeRequest_wellFormed r, encodeRequest_decodeRequest r⟩

/-- Settles O3, by running the decoder on each word. -/
theorem writtenKeysDecode : Obligations.WrittenKeysDecode := by
  unfold Obligations.WrittenKeysDecode
  decide

end Sys2Proof

namespace Sys2Proof.Machine

open Sys2Proof

/-! ### Placing a word (log entries 2 and 3) -/

/-- The access read from a word is the one its request stands for. -/
theorem requestOfTableWord_of_decodeTableWord {nbits w : Nat} {a : Instr} (h : decodeTableWord nbits w = some a) :
    ∃ r, requestOfTableWord nbits w = some r ∧ decodeRequest r = a := by
  unfold decodeTableWord decode at h
  unfold requestOfTableWord
  cases hr : requestOfBytes (tableBytes nbits w) with
  | error e => simp [hr] at h
  | ok p => exact ⟨p.1, rfl, by simpa [hr] using h⟩

/-- A request that is presented is that of the next step, which is no reset step. -/
theorem State.present_inputs (s : State) (req : Option BusRequest) :
    ∃ i later, (s.present req).inputs = i :: later ∧ i.rst = false ∧ i.req = req := by
  unfold State.present
  cases s.inputs with
  | nil => exact ⟨_, _, rfl, rfl, rfl⟩
  | cons i later => exact ⟨_, _, rfl, rfl, rfl⟩

/-- Settles O6: the word's request is presented in the next step, which runs the access it stands for. -/
theorem placedWordRuns : Obligations.PlacedWordRuns := by
  intro s nbits w a h
  obtain ⟨r, hr, rfl⟩ := requestOfTableWord_of_decodeTableWord h
  obtain ⟨i, later, hinputs, hrst, hreq⟩ := s.present_inputs (requestOfTableWord nbits w)
  have hnext : (s.withFetchWord nbits w).nextInput = i := by
    rw [State.withFetchWord, State.nextInput, hinputs]
  rw [hnext]
  exact (decodedAccessRuns _ i later r hinputs hrst (hreq.trans hr)).2

end Sys2Proof.Machine
end

