-- ==== Sys2Proof/Proofs/ReservedBits.lean ====
section
/-! PROOF. Reserved bits (R93): a write looks only at its fields, which a mask of all of them keeps; a read has zeros
between its fields, and the mask of the reserved bits meets nothing else. -/

namespace Sys2Proof.Machine

open Sys2Proof

/-! ### A mask keeps the fields it covers (R88) -/

/-- A mask that is all ones over a field keeps the field. -/
theorem extractLsb'_and_of_ones {m : Word} {start len : Nat} (hm : m.extractLsb' start len = BitVec.allOnes len)
    (w : Word) : (w &&& m).extractLsb' start len = w.extractLsb' start len := by
  rw [BitVec.extractLsb'_and, hm, BitVec.and_allOnes]

theorem getLsbD_and_of_one {m : Word} {i : Nat} (hm : m.getLsbD i = true) (w : Word) :
    (w &&& m).getLsbD i = w.getLsbD i := by
  rw [BitVec.getLsbD_and, hm, Bool.and_true]

/-! ### A write looks only at its fields -/

theorem exec_wrSize (c : ChannelId) (s : State) (w : Word) : exec (wrSize w c) s = .next (s.writeSize c w) := by
  cases c <;> rfl

theorem exec_wrCfg (c : ChannelId) (s : State) (w : Word) : exec (wrCfg w c) s = .next (s.writeCfg c w) := by
  cases c <;> rfl

/-- A SIZE write looks only at SIZE (R103, R109). -/
theorem exec_wrSize_congr {w w' : Word} (hsize : sizeField w = sizeField w') (c : ChannelId) (s : State) :
    exec (wrSize w c) s = exec (wrSize w' c) s := by
  rw [exec_wrSize, exec_wrSize, State.writeSize, State.writeSize, Channel.writeSize, Channel.writeSize, hsize]

/-- A CFG write looks only at CONT, DATASIZE, EN and CLR (R105, R111). -/
theorem exec_wrCfg_congr {w w' : Word} (hcont : contField w = contField w')
    (hdata : dataSizeField w = dataSizeField w') (hen : enField w = enField w') (hclr : clrField w = clrField w')
    (c : ChannelId) (s : State) : exec (wrCfg w c) s = exec (wrCfg w' c) s := by
  rw [exec_wrCfg, exec_wrCfg, State.writeCfg, State.writeCfg, Channel.writeCfg, Channel.writeCfg, hcont, hdata, hen,
    hclr]

/-- A SETUP write looks only at PARITY, STOP2 and CLKDIV (R115). -/
theorem exec_wrSetup_congr {w w' : Word} (hparity : parityField w = parityField w')
    (hstop2 : stop2Field w = stop2Field w') (hclkdiv : clkdivField w = clkdivField w') (s : State) :
    exec (.wrSetup w) s = exec (.wrSetup w') s := by
  change execWrSetup w s = execWrSetup w' s
  rw [execWrSetup, execWrSetup, hparity, hstop2, hclkdiv]

/-! ### A read has zeros between its fields (R89) -/

/-- Two words made of two parts each have no bit in common if their parts have none. -/
theorem and_append_eq_zero {a b : Nat} {x m : BitVec a} {y n : BitVec b} (hx : x &&& m = 0#a) (hy : y &&& n = 0#b) :
    x ++ y &&& m ++ n = 0#(a + b) := by
  rw [BitVec.and_append, hx, hy, BitVec.zero_append_zero]

/-- SIZE lies below the reserved bits 31:20 (R39). -/
theorem Channel.sizeWord_reserved (c : Channel) : c.sizeWord &&& 0xFFF00000#32 = 0#32 := by
  unfold Channel.sizeWord
  cases c.cur with
  | none => exact BitVec.zero_and
  | some d =>
    dsimp only
    rw [BitVec.setWidth_eq_append (by decide)]
    exact and_append_eq_zero (m := 0xFFF#12) (n := 0#20) BitVec.zero_and BitVec.and_zero

/-- PENDING and EN lie between the reserved bits 31:7 with CLR, which reads 0, and the reserved bit 3; DATASIZE and
CONT lie below it (R40). -/
theorem Channel.cfgWord_reserved (c : Channel) : c.cfgWord &&& 0xFFFFFFC8#32 = 0#32 := by
  have hpending : (0#25 ++ 0#1) ++ BitVec.ofBool c.pending &&& 0x3FFFFFF#26 ++ 0#1 = 0#27 :=
    and_append_eq_zero (by decide) BitVec.and_zero
  have hen : (0#25 ++ 0#1) ++ BitVec.ofBool c.pending ++ BitVec.ofBool c.en &&& 0x3FFFFFF#26 ++ 0#1 ++ 0#1 = 0#28 :=
    and_append_eq_zero hpending BitVec.and_zero
  exact and_append_eq_zero (n := 0#1)
    (and_append_eq_zero (n := 0#2) (and_append_eq_zero (n := 1#1) hen BitVec.zero_and) BitVec.and_zero) BitVec.and_zero

/-- RX_BUSY and TX_BUSY lie below the reserved bits 31:2 (R41). -/
theorem State.statusWord_reserved (s : State) : s.statusWord &&& 0xFFFFFFFC#32 = 0#32 :=
  and_append_eq_zero (n := 0#1) (and_append_eq_zero (m := 0x3FFFFFFF#30) (n := 0#1) BitVec.zero_and BitVec.and_zero)
    BitVec.and_zero

/-- The reserved bits 15:3 lie between CLKDIV and STOP2 (R42). -/
theorem Setup.word_reserved (u : Setup) : u.word &&& 0x0000FFF8#32 = 0#32 :=
  and_append_eq_zero (n := 0#2)
    (and_append_eq_zero (n := 0#1) (and_append_eq_zero (m := 0#16) (n := 0x1FFF#13) BitVec.and_zero BitVec.zero_and)
      BitVec.and_zero)
    BitVec.and_zero

/-- The data a read of a register is answered with is the register's word. -/
theorem readWord_of_exec {reg : Reg} {s t : State} {v : Word} (h : exec reg.readAccess s = .next t)
    (hv : t.busResp = some (.okRead v)) : s.readWord reg = v := by
  rw [exec_readAccess] at h
  obtain rfl := Host.Outcome.next.inj h
  simpa using hv

/-- A SIZE read answers 0 in the reserved bits (R102, R108). -/
theorem rdSize_reserved {c : ChannelId} {s t : State} {v : Word} (h : exec (rdSize c) s = .next t)
    (hv : t.busResp = some (.okRead v)) : v &&& 0xFFF00000#32 = 0#32 := by
  cases c with
  | rx => exact readWord_of_exec (reg := .rxSize) h hv ▸ s.rx.sizeWord_reserved
  | tx => exact readWord_of_exec (reg := .txSize) h hv ▸ s.tx.sizeWord_reserved

/-- A CFG read answers 0 in the reserved bits and in CLR (R104, R110). -/
theorem rdCfg_reserved {c : ChannelId} {s t : State} {v : Word} (h : exec (rdCfg c) s = .next t)
    (hv : t.busResp = some (.okRead v)) : v &&& 0xFFFFFFC8#32 = 0#32 := by
  cases c with
  | rx => exact readWord_of_exec (reg := .rxCfg) h hv ▸ s.rx.cfgWord_reserved
  | tx => exact readWord_of_exec (reg := .txCfg) h hv ▸ s.tx.cfgWord_reserved

/-- Settles O19: the mask of a write covers its fields, and the mask of a read lies in the zeros between them. -/
theorem reservedBitsIgnored : Obligations.ReservedBitsIgnored := by
  intro c s w
  have hbits {m : Word} {start len : Nat} (hm : m.extractLsb' start len = BitVec.allOnes len) :=
    (extractLsb'_and_of_ones hm w).symm
  have hbit {m : Word} {i : Nat} (hm : m.getLsbD i = true) := (getLsbD_and_of_one hm w).symm
  refine ⟨exec_wrSize_congr ?size c s, exec_wrCfg_congr ?cont ?dataSize ?en ?clr c s,
    exec_wrSetup_congr ?parity ?stop2 ?clkdiv s, fun _ _ => rdSize_reserved, fun _ _ => rdCfg_reserved,
    fun t v h hv => ?_, fun t v h hv => ?_⟩
  case size | dataSize | parity | clkdiv => exact hbits (by decide)
  case cont | en | clr | stop2 => exact hbit (by decide)
  · exact readWord_of_exec (reg := .status) h hv ▸ s.statusWord_reserved
  · exact readWord_of_exec (reg := .setup) h hv ▸ s.setup.word_reserved

end Sys2Proof.Machine
end

