-- ==== Sys2Proof/Proofs/RegisterAccess.lean ====
section
/-! PROOF. Register access (spec/40_register_access.md): what each access answers, what it stores, and that it changes
nothing else. -/

namespace Sys2Proof.Machine

open Sys2Proof

/-! ### The fields of a write as numbers (R88) -/

theorem sizeField_eq_ofNat (w : Word) : sizeField w = BitVec.ofNat 20 w.toNat := rfl

theorem sizeField_toNat (w : Word) : (sizeField w).toNat = w.toNat % 2 ^ 20 := by
  rw [sizeField_eq_ofNat, BitVec.toNat_ofNat]

/-- The size 0, with which nothing is armed (R120). -/
theorem sizeField_eq_zero_iff (w : Word) : sizeField w = 0#20 ↔ w.toNat % 2 ^ 20 = 0 := by
  rw [← BitVec.toNat_inj, sizeField_toNat]
  rfl

theorem dataSizeField_toNat (w : Word) : (dataSizeField w).toNat = w.toNat / 2 % 4 := by
  rw [dataSizeField, BitVec.extractLsb'_toNat, Nat.shiftRight_eq_div_pow]

/-- The reserved DATASIZE code (R40, R92). -/
theorem dataSizeField_eq_three_iff (w : Word) : dataSizeField w = 3#2 ↔ w.toNat / 2 % 4 = 3 := by
  rw [← BitVec.toNat_inj, dataSizeField_toNat]
  rfl

theorem parityField_toNat (w : Word) : (parityField w).toNat = w.toNat % 4 := by
  rw [parityField, BitVec.extractLsb'_toNat, Nat.shiftRight_zero]

/-- The reserved PARITY code (R42, R92). -/
theorem parityField_eq_three_iff (w : Word) : parityField w = 3#2 ↔ w.toNat % 4 = 3 := by
  rw [← BitVec.toNat_inj, parityField_toNat]
  rfl

theorem clkdivField_eq_ofNat (w : Word) : clkdivField w = BitVec.ofNat 16 (w.toNat / 2 ^ 16) := by
  rw [clkdivField, BitVec.extractLsb', Nat.shiftRight_eq_div_pow]

/-- A DATASIZE code is the exponent of its unit size (R49). -/
theorem UnitSize.bytes_eq_two_pow (u : UnitSize) : u.bytes = 2 ^ u.code.toNat := by cases u <;> rfl

/-! ### The words of a read as numbers (R89) -/

/-- The parts of a word are the digits of its value. -/
theorem toNat_append_eq_add {a b : Nat} (x : BitVec a) (y : BitVec b) :
    (x ++ y).toNat = x.toNat * 2 ^ b + y.toNat := by
  rw [BitVec.toNat_append, ← Nat.shiftLeft_add_eq_or_of_lt y.isLt, Nat.shiftLeft_eq]

theorem Channel.sizeWord_of_idle {c : Channel} (h : c.cur = none) : c.sizeWord = 0#32 := by
  simp [Channel.sizeWord, h]

theorem Channel.sizeWord_toNat {c : Channel} {d : Descriptor} (h : c.cur = some d) :
    c.sizeWord.toNat = d.remainingSize % 2 ^ 20 := by
  simp only [Channel.sizeWord, h]
  rw [BitVec.toNat_setWidth_of_le (by decide), BitVec.toNat_ofNat]

/-- PENDING is bit 5, EN bit 4, DATASIZE bits 2:1 and CONT bit 0 (R40). -/
theorem Channel.cfgWord_toNat (c : Channel) :
    c.cfgWord.toNat = 32 * c.pending.toNat + 16 * c.en.toNat + 2 * c.ds.code.toNat + c.cont.toNat := by
  simp only [Channel.cfgWord, toNat_append_eq_add, BitVec.toNat_ofBool, BitVec.toNat_ofNat]
  omega

/-- RX_BUSY is bit 1 and TX_BUSY bit 0 (R41). -/
theorem State.statusWord_toNat (s : State) : s.statusWord.toNat = 2 * s.rxBusy.toNat + s.txBusy.toNat := by
  simp only [State.statusWord, toNat_append_eq_add, BitVec.toNat_ofBool, BitVec.toNat_ofNat]
  omega

/-- CLKDIV is bits 31:16, STOP2 bit 2 and PARITY bits 1:0 (R42). -/
theorem Setup.word_toNat (u : Setup) :
    u.word.toNat = u.clkdiv.toNat * 2 ^ 16 + 4 * u.stop2.toNat + u.parity.code.toNat := by
  simp only [Setup.word, toNat_append_eq_add, BitVec.toNat_ofBool, BitVec.toNat_ofNat]
  omega

/-! ### The keys of the writes (R86, R90) -/

/-- The key of a write depends on its register alone: `W` is 1 and the width a word. -/
theorem writeRequest_key (reg : Reg) (w : Word) :
    (writeRequest reg w).key = (1#1 ++ 0b10#2 ++ reg.offset : BitVec 10) := rfl

/-! ### The writes that may be rejected (R92) -/

theorem State.writeCfg_of_rejected {s : State} {c : ChannelId} {w : Word} (h : (s.chan c).writeCfg w = none) :
    s.writeCfg c w = s.respond .invalid := by
  simp [State.writeCfg, h]

theorem State.writeCfg_of_stored {s : State} {c : ChannelId} {w : Word} {ch : Channel}
    (h : (s.chan c).writeCfg w = some ch) : s.writeCfg c w = (s.setChan c ch).respond .okWrite := by
  simp [State.writeCfg, h]

theorem exec_wrSetup_of_rejected {w : Word} (h : ParityMode.ofCode (parityField w) = none) (s : State) :
    exec (.wrSetup w) s = .next (s.respond .invalid) := by
  simp [exec, execWrSetup, h]

theorem exec_wrSetup_of_stored {w : Word} {mode : ParityMode} (h : ParityMode.ofCode (parityField w) = some mode)
    (s : State) : exec (.wrSetup w) s =
      .next ((s.setSetup ⟨mode, stop2Field w, clkdivField w⟩).respond .okWrite) := by
  simp [exec, execWrSetup, h]

/-! ### What an access leaves alone (R119) -/

theorem State.setChan_setMem (s : State) (m : Memory) (c : ChannelId) (ch : Channel) :
    (s.setMem m).setChan c ch = (s.setChan c ch).setMem m := by
  cases c <;> rfl

theorem State.respond_setMem (s : State) (m : Memory) (r : BusResponse) :
    (s.setMem m).respond r = (s.respond r).setMem m := rfl

theorem State.writeCfg_setMem (s : State) (m : Memory) (c : ChannelId) (w : Word) :
    (s.setMem m).writeCfg c w = (s.writeCfg c w).setMem m := by
  have hchan := s.setMem_chan m c
  cases h : (s.chan c).writeCfg w with
  | none => rw [State.writeCfg_of_rejected h, State.writeCfg_of_rejected (hchan ▸ h), State.respond_setMem]
  | some ch =>
    rw [State.writeCfg_of_stored h, State.writeCfg_of_stored (hchan ▸ h), State.setChan_setMem, State.respond_setMem]

/-- What an access does is the same over every memory. -/
theorem exec_setMem (i : Instr) (s : State) :
    ∃ t, exec i s = .next t ∧ ∀ m, exec i (s.setMem m) = .next (t.setMem m) := by
  cases i with
  | wrRxCfg w => exact ⟨_, rfl, fun m => congrArg _ (s.writeCfg_setMem m .rx w)⟩
  | wrTxCfg w => exact ⟨_, rfl, fun m => congrArg _ (s.writeCfg_setMem m .tx w)⟩
  | wrSetup w =>
    cases h : ParityMode.ofCode (parityField w) with
    | none => exact ⟨_, exec_wrSetup_of_rejected h s, fun m => exec_wrSetup_of_rejected h (s.setMem m)⟩
    | some mode => exact ⟨_, exec_wrSetup_of_stored h s, fun m => exec_wrSetup_of_stored h (s.setMem m)⟩
  | _ => exact ⟨_, rfl, fun _ => rfl⟩

/-- The frame of a completed access (R119). -/
theorem exec_frame {i : Instr} {s t : State} (h : exec i s = .next t) : Edit.Frame s t := by
  obtain ⟨s', r, hedit, he⟩ := exec_cases i s
  obtain rfl := Host.Outcome.next.inj (he.symm.trans h)
  obtain ⟨htx, hrx, hmem, hport, hinputs, hclock, hissued, hready, hevt, hout⟩ := hedit.frame
  exact ⟨htx, hrx, hmem, by simpa using hport, hinputs, hclock, hissued, by simpa using hready, by simpa using hevt,
    by simpa using hout⟩

/-- Settles O8: every access edits the block as `Edit` says, and no edit looks at memory. -/
theorem accessLeavesEnvironment : Obligations.AccessLeavesEnvironment := by
  intro i s
  obtain ⟨t, h, hmem⟩ := exec_setMem i s
  have f := exec_frame h
  exact ⟨t, h, fun a => by rw [f.mem], hmem, f.txFsm, f.rxFsm, f.port .rx, f.port .tx, f.inputs, f.clock, f.issued,
    fun c => ⟨f.evt c, f.ready c, f.out c⟩⟩

/-! ### SADDR (R100, R101, R106, R107) -/

theorem exec_rdSaddr (c : ChannelId) (s : State) : exec (rdSaddr c) s = .next (s.readSaddr c) := by
  cases c <;> rfl

theorem exec_wrSaddr (c : ChannelId) (s : State) (w : Word) : exec (wrSaddr w c) s = .next (s.writeSaddr c w) := by
  cases c <;> rfl

theorem State.writeSaddr_saddr (s : State) (c : ChannelId) (w : Word) : ((s.writeSaddr c w).chan c).saddr = w := by
  simp [State.writeSaddr]

theorem State.reset_chan (c : ChannelId) : State.reset.chan c = Channel.reset := by cases c <;> rfl

/-- Settles O9: a read answers the field, which a write and the reset store. -/
theorem saddrReadAnswersLastWritten : Obligations.SaddrReadAnswersLastWritten := by
  refine ⟨by decide, by decide, fun c s w => ⟨exec_rdSaddr c s, ?reset, _, exec_wrSaddr c s w, ?written⟩⟩
  case reset => rw [State.reset_chan]; rfl
  case written => rw [exec_rdSaddr, State.readSaddr, State.writeSaddr_saddr]; rfl

/-- Settles O10, for each channel. -/
theorem saddrWriteStoresTheWord : Obligations.SaddrWriteStoresTheWord :=
  ⟨fun w => ⟨(writeRequest_key .rxSaddr w).trans (by decide), (writeRequest_key .txSaddr w).trans (by decide)⟩,
    fun s w => ⟨exec_wrSaddr .rx s w, exec_wrSaddr .tx s w⟩⟩

/-! ### SIZE (R102, R103, R108, R109) -/

theorem exec_rdSize (c : ChannelId) (s : State) : exec (rdSize c) s = .next (s.readSize c) := by
  cases c <;> rfl

/-- Settles O11: the word read is that of the current transfer. -/
theorem sizeReadAnswersRemaining : Obligations.SizeReadAnswersRemaining :=
  ⟨by decide, by decide, fun c s =>
    ⟨_, exec_rdSize c s, Channel.sizeWord_of_idle, fun _ => Channel.sizeWord_toNat⟩⟩

theorem Channel.used_eq (c : Channel) : c.used = (if c.cur = none then 0 else 1) + c.pend.length := by
  unfold Channel.used
  cases c.cur <;> rfl

/-- A size of 0 and a full pool arm nothing (R120). -/
theorem Channel.arm_of_refused {c : Channel} (h : c.size = 0#20 ∨ c.used = Config.poolDepth) : c.arm = c := by
  rcases c.arm_cases with e | ⟨hsize, hused, -⟩
  · exact e
  · exact absurd h (not_or.2 ⟨hsize, hused⟩)

/-- An idle channel begins the transfer it arms (R120). -/
theorem Channel.arm_of_idle {c : Channel} (hsize : c.size ≠ 0#20) (hused : c.used ≠ Config.poolDepth)
    (hcur : c.cur = none) : c.arm = { c with cur := some c.newTransfer } := by
  simp [Channel.arm, hsize, hused, hcur]

/-- A busy channel queues the transfer it arms last (R120). -/
theorem Channel.arm_of_busy {c : Channel} (hsize : c.size ≠ 0#20) (hused : c.used ≠ Config.poolDepth)
    (hcur : c.cur ≠ none) : c.arm = { c with pend := c.pend ++ [c.newTransfer] } := by
  obtain ⟨d, hd⟩ := Option.ne_none_iff_exists'.1 hcur
  simp [Channel.arm, hsize, hused, hd]

theorem Channel.writeSize_of_disabled {c : Channel} (h : c.en = false) (w : Word) :
    c.writeSize w = { c with size := sizeField w } := by
  simp [Channel.writeSize, h]

theorem Channel.writeSize_of_enabled {c : Channel} (h : c.en = true) (w : Word) :
    c.writeSize w = { c with size := sizeField w }.arm := by
  simp [Channel.writeSize, h]

/-- The transfer a SIZE write arms has the size just written (R103, R109, R120). -/
theorem Channel.newTransfer_of_size (c : Channel) (w : Word) :
    { c with size := sizeField w }.newTransfer =
      ⟨c.saddr, BitVec.ofNat 20 w.toNat, c.ds, c.cont, c.saddr, w.toNat % 2 ^ 20, 0⟩ := by
  rw [← sizeField_toNat]
  rfl

/-- Settles O12: the field is stored, then EN = 1 arms by the stored size and the descriptors in use. -/
theorem sizeWriteStoresAndArms : Obligations.SizeWriteStoresAndArms := by
  refine ⟨fun w => ⟨?rxKey, ?txKey⟩, fun c s w => ?_⟩
  case rxKey => exact (writeRequest_key .rxSize w).trans (by decide)
  case txKey => exact (writeRequest_key .txSize w).trans (by decide)
  intro ch sz used d after
  have hwrite {ch' : Channel} (h : ch.writeSize w = ch') : exec (wrSize w c) s = .next (after ch') := by
    rw [exec_wrSize, State.writeSize, h]
  have hsize : ({ ch with size := sizeField w }).size = 0#20 ↔ w.toNat % 2 ^ 20 = 0 := sizeField_eq_zero_iff w
  have hused : ({ ch with size := sizeField w }).used = used := Channel.used_eq _
  have htransfer : ({ ch with size := sizeField w }).newTransfer = d := ch.newTransfer_of_size w
  refine ⟨fun h => hwrite ?refused, fun hen hne hfree hcur => hwrite ?idle, fun hen hne hfree hcur => hwrite ?busy⟩
  case refused =>
    by_cases hen : ch.en = true
    · have hnone : w.toNat % 2 ^ 20 = 0 ∨ used = 4 := h.resolve_left (by simp [hen])
      rw [ch.writeSize_of_enabled hen]
      exact Channel.arm_of_refused (hnone.imp hsize.2 hused.trans)
    · exact ch.writeSize_of_disabled (Bool.eq_false_of_not_eq_true hen) w
  case idle =>
    rw [ch.writeSize_of_enabled hen, Channel.arm_of_idle (mt hsize.1 hne) (hused ▸ hfree) hcur, htransfer]
    rfl
  case busy =>
    rw [ch.writeSize_of_enabled hen, Channel.arm_of_busy (mt hsize.1 hne) (hused ▸ hfree) hcur, htransfer]
    rfl

/-! ### CFG (R104, R105, R110, R111, R130) -/

theorem exec_rdCfg (c : ChannelId) (s : State) : exec (rdCfg c) s = .next (s.readCfg c) := by
  cases c <;> rfl

/-- A flag of a channel or of the configuration as its place in a word. -/
theorem mul_toNat_eq_ite (n : Nat) (b : Bool) : n * b.toNat = if b then n else 0 := by cases b <;> simp

theorem Channel.mul_pending_toNat (n : Nat) (c : Channel) :
    n * c.pending.toNat = if c.cur = none then 0 else n := by
  unfold Channel.pending
  cases c.cur <;> simp

/-- Settles O13: the parts of the CFG word are the digits of its value. -/
theorem cfgReadAssemblesFields : Obligations.CfgReadAssemblesFields := by
  refine ⟨by decide, by decide, fun c s => ⟨_, exec_rdCfg c s, ?_⟩⟩
  have hlog : Nat.log 2 (s.chan c).ds.bytes = (s.chan c).ds.code.toNat := by
    rw [UnitSize.bytes_eq_two_pow, Nat.log_pow (by decide)]
  rw [Channel.cfgWord_toNat, Channel.mul_pending_toNat, mul_toNat_eq_ite, hlog, Bool.toNat, Bool.cond_eq_ite]

/-- A DATASIZE code that names a unit size is not the reserved one, and is the unit size's exponent (R49). -/
theorem dataSizeField_of_ofCode {w : Word} {ds : UnitSize} (h : UnitSize.ofCode (dataSizeField w) = some ds) :
    w.toNat / 2 % 4 ≠ 3 ∧ ds.bytes = 2 ^ (w.toNat / 2 % 4) := by
  constructor
  · rw [Ne, ← dataSizeField_eq_three_iff, ← UnitSize.ofCode_eq_none_iff, h]
    simp
  · rw [UnitSize.bytes_eq_two_pow, UnitSize.code_of_ofCode _ _ h, dataSizeField_toNat]

/-- Settles O14, by everything a CFG write can do to the channel. -/
theorem cfgWriteStoresAndClears : Obligations.CfgWriteStoresAndClears := by
  refine ⟨fun w => ⟨?rxKey, ?txKey⟩, fun c s w => ?_⟩
  case rxKey => exact (writeRequest_key .rxCfg w).trans (by decide)
  case txKey => exact (writeRequest_key .txCfg w).trans (by decide)
  intro ch after
  rw [exec_wrCfg]
  rcases ch.writeCfg_cases w with ⟨hreserved, e⟩ | ⟨ds, hds, hclr, e⟩ | ⟨ds, hds, hclr, e⟩
  · have h3 := (dataSizeField_eq_three_iff w).1 hreserved
    exact ⟨fun _ => congrArg _ (State.writeCfg_of_rejected e), fun hne => absurd h3 hne⟩
  · obtain ⟨hne, hbytes⟩ := dataSizeField_of_ofCode hds
    exact ⟨fun h3 => absurd h3 hne, fun _ => ⟨ds, hbytes, fun _ => congrArg _ (State.writeCfg_of_stored e),
      fun hset => absurd (hclr.symm.trans hset) Bool.false_ne_true⟩⟩
  · obtain ⟨hne, hbytes⟩ := dataSizeField_of_ofCode hds
    exact ⟨fun h3 => absurd h3 hne, fun _ => ⟨ds, hbytes,
      fun hunset => absurd (hunset.symm.trans hclr) Bool.false_ne_true,
      fun _ => congrArg _ (State.writeCfg_of_stored e)⟩⟩

/-! ### STATUS (R112, R113) -/

theorem exec_rdStatus (s : State) : exec .rdStatus s = .next (s.respond (.okRead s.statusWord)) :=
  exec_readAccess .status s

theorem State.rxBusy_eq_true_iff (s : State) : s.rxBusy = true ↔ s.rxFsm.state ≠ .waitStart := decide_eq_true_iff

theorem State.txBusy_eq_true_iff (s : State) :
    s.txBusy = true ↔ s.txFsm.state ≠ .idle ∨ s.tx.stage ≠ [] := by
  simp [State.txBusy]

/-- Settles O15: the STATUS word is its two flags. -/
theorem statusAccesses : Obligations.StatusAccesses := by
  refine ⟨by decide, fun w => (writeRequest_key .status w).trans (by decide),
    fun s w => ⟨rfl, _, exec_rdStatus s, ?_⟩⟩
  rw [State.statusWord_toNat, mul_toNat_eq_ite, Bool.toNat, Bool.cond_eq_ite]
  simp only [State.rxBusy_eq_true_iff, State.txBusy_eq_true_iff, ite_not]

/-! ### SETUP (R114, R115) -/

theorem exec_rdSetup (s : State) : exec .rdSetup s = .next (s.respond (.okRead s.setup.word)) :=
  exec_readAccess .setup s

/-- Settles O16: the parts of the SETUP word are the digits of its value. -/
theorem setupReadAssemblesFields : Obligations.SetupReadAssemblesFields := by
  refine ⟨by decide, fun s => ⟨_, exec_rdSetup s, ?_⟩⟩
  rw [Setup.word_toNat, mul_toNat_eq_ite]
  cases s.setup.parity <;> rfl

/-- Settles O17: the PARITY code names a mode unless it is the reserved one. -/
theorem setupWriteStoresFields : Obligations.SetupWriteStoresFields := by
  refine ⟨fun w => (writeRequest_key .setup w).trans (by decide), fun s w => ?_⟩
  have hreserved : ParityMode.ofCode (parityField w) = none ↔ w.toNat % 4 = 3 :=
    (ParityMode.ofCode_eq_none_iff _).trans (parityField_eq_three_iff w)
  refine ⟨fun h3 => exec_wrSetup_of_rejected (hreserved.2 h3) s, fun hne => ?_⟩
  obtain ⟨mode, hmode⟩ := Option.ne_none_iff_exists'.1 (mt hreserved.1 hne)
  refine ⟨mode, ?code, ?stored⟩
  case code =>
    rw [← parityField_toNat, ← ParityMode.code_of_ofCode _ _ hmode]
    cases mode <;> rfl
  case stored =>
    rw [exec_wrSetup_of_stored hmode, clkdivField_eq_ofNat]
    rfl

/-! ### The invalid access (R116) -/

/-- A request whose key is none of the sixteen valid ones stands for the invalid access with that key (R87, R91). -/
theorem decodeRequest_of_not_valid {r : BusRequest} (h : r.key ∉ validKeys) :
    decodeRequest r = .invalid r.key r.dir.wdata := by
  rcases decodeKey_cases r.key r.dir.wdata with ⟨-, e⟩ | ⟨hv, -⟩
  · exact e
  · exact absurd hv h

/-- Settles O18: a key outside the table of R90 decodes to the invalid access, whose outcome is INVALID. -/
theorem invalidChangesNothing : Obligations.InvalidChangesNothing := by
  refine fun k w s => ⟨?_, rfl⟩
  rintro hk r rfl
  exact ⟨_, decodeRequest_of_not_valid hk⟩

end Sys2Proof.Machine
end

