-- ==== Sys2Proof/Proofs/Transfers.lean ====
section
/-! PROOF. The channels (spec/41_channel.md): the units of a pass, the service of a response, the issue of a request,
and the bytes the receiver delivers. -/

namespace Sys2Proof.Machine

open Sys2Proof

/-! ### The units of a pass (R128, R129) -/

theorem Descriptor.advance_zero (d : Descriptor) : d.advance 0 = d := by simp [Descriptor.advance]

theorem Descriptor.advance_advance (d : Descriptor) (m n : Nat) : (d.advance m).advance n = d.advance (m + n) := by
  simp [Descriptor.advance, BitVec.ofNat_add, BitVec.add_assoc, Nat.sub_sub, Nat.add_assoc]

/-- The units of a pass move together what remains of it. -/
theorem Descriptor.finish_eq_advance {fuel : Nat} {d : Descriptor} (h : d.remainingSize ≤ fuel) :
    d.finish fuel = d.advance d.remainingSize := by
  induction fuel generalizing d with
  | zero => rw [Nat.le_zero.1 h, d.advance_zero, Descriptor.finish]
  | succ fuel ih =>
    rw [Descriptor.finish]
    split
    · next hz => rw [hz, d.advance_zero]
    · next hz =>
      have hpos := Descriptor.nextN_pos (Nat.pos_of_ne_zero hz)
      have hle := d.nextN_le_remaining
      rw [ih (by rw [Descriptor.advance_remaining]; omega), Descriptor.advance_remaining, Descriptor.advance_advance,
        Nat.add_sub_cancel' hle]

/-- The units that move `r` bytes from address `a` on, `u` bytes at a time: the whole ones, then a short one for the
rest (R129). -/
def unitsFrom (a : Word) (u r : Nat) : List (Word × Nat) :=
  (List.range (r / u)).map (fun i => (a + BitVec.ofNat 32 (i * u), u)) ++
    (if r % u = 0 then [] else [(a + BitVec.ofNat 32 (r / u * u), r % u)])

theorem unitsFrom_zero (a : Word) (u : Nat) : unitsFrom a u 0 = [] := by simp [unitsFrom]

theorem unitsFrom_short {u r : Nat} (hr : r ≠ 0) (h : r < u) (a : Word) : unitsFrom a u r = [(a, r)] := by
  simp [unitsFrom, Nat.div_eq_of_lt h, Nat.mod_eq_of_lt h, hr]

theorem unitsFrom_whole {u r : Nat} (hu : 0 < u) (h : u ≤ r) (a : Word) :
    unitsFrom a u r = (a, u) :: unitsFrom (a + BitVec.ofNat 32 u) u (r - u) := by
  have haddr (i : Nat) : a + BitVec.ofNat 32 ((i + 1) * u) = a + BitVec.ofNat 32 u + BitVec.ofNat 32 (i * u) := by
    rw [Nat.succ_mul, Nat.add_comm, BitVec.ofNat_add, BitVec.add_assoc]
  have hdiv : r / u = (r - u) / u + 1 := Nat.div_eq_sub_div hu h
  have hmod : r % u = (r - u) % u := Nat.mod_eq_sub_mod h
  simp [unitsFrom, hdiv, hmod, List.range_succ_eq_map, haddr, Function.comp_def]

/-- The requests of a transfer to the end of its pass are the units of what remains (R50, R129). -/
theorem Descriptor.units_eq_unitsFrom {fuel : Nat} {d : Descriptor} (h : d.remainingSize ≤ fuel) :
    d.units fuel = unitsFrom d.currentAddress d.unitSize.bytes d.remainingSize := by
  induction fuel generalizing d with
  | zero => rw [Nat.le_zero.1 h, unitsFrom_zero, Descriptor.units]
  | succ fuel ih =>
    have hu := d.unitSize.bytes_pos
    rw [Descriptor.units]
    split
    · next hz => rw [hz, unitsFrom_zero]
    · next hz =>
      have hpos := Descriptor.nextN_pos (Nat.pos_of_ne_zero hz)
      rw [ih (by rw [Descriptor.advance_remaining]; omega), Descriptor.advance_address, Descriptor.advance_unit,
        Descriptor.advance_remaining]
      rcases Nat.lt_or_ge d.remainingSize d.unitSize.bytes with hlt | hge
      · rw [show d.nextN = d.remainingSize from Nat.min_eq_right hlt.le, Nat.sub_self, unitsFrom_zero,
          unitsFrom_short hz hlt]
      · rw [show d.nextN = d.unitSize.bytes from Nat.min_eq_left hge, unitsFrom_whole hu hge]

/-- Settles O23: a fresh transfer has its whole buffer before it. -/
theorem passRequestsCoverTheBuffer : Obligations.PassRequestsCoverTheBuffer := by
  intro d fuel hfresh hfuel
  rw [← hfresh.remaining] at hfuel
  change d.units fuel = unitsFrom d.startAddress d.unitSize.bytes d.totalSize.toNat
  rw [Descriptor.units_eq_unitsFrom hfuel, hfresh.address, hfresh.remaining]

/-- Settles O24: the wrapped transfer has the same buffer before it, and differs only in what it has received. -/
theorem wrappedPassRepeats : Obligations.WrappedPassRepeats := by
  intro d fuel haddr hrem hfuel
  have hfuel' : d.remainingSize ≤ fuel := hrem.le.trans hfuel
  rw [Descriptor.finish_eq_advance hfuel']
  refine ⟨Nat.sub_self _, ?units, congrArg _ hrem⟩
  case units =>
    rw [Descriptor.units_eq_unitsFrom hfuel', Descriptor.units_eq_unitsFrom (d := (d.advance _).wrap) hfuel, haddr, hrem]
    rfl

/-! ### SERVICE (R124 to R127) -/

/-- A unit is staged by TX only; either channel counts it (R125, R126). -/
theorem Channel.complete_eq (id : ChannelId) (c : Channel) (d : Descriptor) (n : Nat) (bytes : List Byte) :
    c.complete id d n bytes =
      { c with cur := some (d.advance n), stage := c.stage ++ (if id = .tx then bytes else []) } := by
  cases id <;> simp [Channel.complete]

theorem Channel.endPass_of_continuous {d : Descriptor} (h : d.continuous = true) (id : ChannelId) (c : Channel) :
    c.endPass id d = { c with evt := true, cur := some d.wrap } := by
  simp [Channel.endPass, h]

theorem Channel.endPass_of_pending {c : Channel} {d next : Descriptor} {rest : List Descriptor}
    (h : d.continuous = false) (hp : c.pend = next :: rest) (id : ChannelId) :
    c.endPass id d = { c with evt := true, cur := some next, pend := rest } := by
  simp [Channel.endPass, h, hp]

theorem Channel.endPass_of_alone {c : Channel} {d : Descriptor} (h : d.continuous = false) (hp : c.pend = [])
    (id : ChannelId) :
    c.endPass id d = { c with evt := true, cur := none, stage := if id = .tx then c.stage else [] } := by
  cases id <;> simp [Channel.endPass, h, hp]

section Service

variable {c : Channel} {bytes : List Byte} {o : OutRequest} {d : Descriptor}

theorem Channel.service_of_discarded (hready : c.ready = some bytes) (hout : c.out = some o) (hdis : o.discard = true)
    (id : ChannelId) : c.service id = c.release := by
  cases hcur : c.cur <;> simp [Channel.service, hready, hout, hdis, hcur]

theorem Channel.service_of_within (hready : c.ready = some bytes) (hout : c.out = some o) (hdis : o.discard = false)
    (hcur : c.cur = some d) (hn : o.n < d.remainingSize) (id : ChannelId) :
    c.service id = (c.complete id d o.n bytes).release := by
  have hleft : d.remainingSize - o.n ≠ 0 := by omega
  simp [Channel.service, hready, hout, hdis, hcur, hleft]

theorem Channel.service_of_last (hready : c.ready = some bytes) (hout : c.out = some o) (hdis : o.discard = false)
    (hcur : c.cur = some d) (hn : d.remainingSize = o.n) (id : ChannelId) :
    c.service id = ((c.complete id d o.n bytes).release).endPass id (d.advance o.n) := by
  have hleft : d.remainingSize - o.n = 0 := by omega
  simp [Channel.service, hready, hout, hdis, hcur, hleft]

/-- A served response is done with, and so is its request (R124). -/
theorem Channel.service_out_of_ready (hready : c.ready ≠ none) (id : ChannelId) : (c.service id).out = none := by
  rcases c.service_cases id with ⟨hno, -⟩ | ⟨-, -, e⟩ | ⟨bytes, o, d, -, -, -, -, -, e⟩ |
    ⟨bytes, o, d, -, -, -, -, -, e⟩
  · exact absurd hno hready
  · rw [e]
    rfl
  · rw [e]
    rfl
  · rw [e]
    rcases Channel.endPass_cases id (c.complete id d o.n bytes).release (d.advance o.n) with
      ⟨-, e⟩ | ⟨-, next, rest, -, e⟩ | ⟨-, -, e⟩ <;> rw [e] <;> rfl

end Service

/-- Before the register access, a channel with a captured response has only served it: there is no request left whose
response it could capture. -/
theorem State.beforeAccess_chan_of_ready {s : State} {c : ChannelId} (h : (s.chan c).ready ≠ none) :
    s.beforeAccess.chan c = (s.chan c).clearEvent.service c := by
  have hout : ((s.chan c).clearEvent.service c).out = none :=
    Channel.service_out_of_ready (c := (s.chan c).clearEvent) h c
  rw [s.beforeAccess_chan]
  rcases Channel.capture_cases c ((s.chan c).clearEvent.service c) (s.environment.2.get c) with
    ⟨-, e⟩ | ⟨bytes, o, -, ho, -⟩
  · exact e
  · simp [hout] at ho

/-- Settles O20: of the first phases, SERVICE alone changes a channel whose response is captured. -/
theorem serviceMovesUnitAndEndsPass : Obligations.ServiceMovesUnitAndEndsPass := by
  intro c s bytes o hready hout
  dsimp only
  rw [State.beforeAccess_chan_of_ready (by simp [hready])]
  refine ⟨fun hdis => ?discarded, fun d hcur hdis => ?moved⟩
  case discarded =>
    rw [Channel.service_of_discarded (c := (s.chan c).clearEvent) hready hout hdis]
    rfl
  case moved =>
    have hlast (hn : d.remainingSize = o.n) :=
      Channel.service_of_last (c := (s.chan c).clearEvent) hready hout hdis hcur hn c
    rw [Channel.complete_eq] at hlast
    refine ⟨fun hn => ?within, fun hn hcont => (hlast hn).trans ?continuous,
      fun hn hcont next rest hpend => (hlast hn).trans ?pending, fun hn hcont hpend => (hlast hn).trans ?alone⟩
    case within =>
      rw [Channel.service_of_within (c := (s.chan c).clearEvent) hready hout hdis hcur hn, Channel.complete_eq]
      rfl
    case continuous => exact Channel.endPass_of_continuous (by exact hcont) c _
    case pending => exact Channel.endPass_of_pending (by exact hcont) (by exact hpend) c
    case alone => exact Channel.endPass_of_alone (by exact hcont) (by exact hpend) c

/-! ### The transfer that retires (R133) -/

/-- The receiver's byte changes no queue (R131). -/
theorem Channel.pushed_cur (c : Channel) (b : Option Byte) : (c.pushed b).cur = c.cur := by
  cases b with
  | none => rfl
  | some b => rcases c.push_cases b with ⟨-, -, e⟩ | ⟨-, e⟩ <;> rw [Channel.pushed, e]

/-- Phases 5 and 6 leave the current transfer as it is. -/
theorem State.afterAccess_cur (s : State) (i : StepInput) (c : ChannelId) :
    ((s.afterAccess i).chan c).cur = (s.chan c).cur := by
  have hprotocol : ((s.protocol i.cg i.rxIn).chan c).cur = (s.chan c).cur := by
    cases i.cg with
    | false => rfl
    | true =>
      cases c with
      | rx => exact s.rx.pushed_cur _
      | tx => rfl
  rw [← hprotocol]
  rcases s.afterAccess_issues i c with ⟨-, e, -⟩ | ⟨r, -, e, -⟩ <;> rw [e]
  rfl

/-- The unit whose response ends a pass is all that remained of it: no unit is larger (R50). -/
theorem Channel.Ok.last_unit {c : Channel} (h : c.Ok) {o : OutRequest} {d : Descriptor} (hout : c.out = some o)
    (hdis : o.discard = false) (hcur : c.cur = some d) (hle : d.remainingSize ≤ o.n) : o.n = d.remainingSize := by
  obtain ⟨d', hcur', hn, -⟩ := h.out_unit o hout hdis
  obtain rfl := Option.some.inj (hcur.symm.trans hcur')
  have := d.nextN_le_remaining
  omega

/-- Settles O22: the event pulses with a transfer's last unit, and until then `received_size` and `remaining_size` make
up its size. -/
theorem retiredTransferIsWhole : Obligations.RetiredTransferIsWhole := by
  intro c s t d hinv h hevt hcur hcont
  obtain ⟨hrst, bytes, o, d', hready, hout, hdis, hcur', hle⟩ := (eventExactlyAtPassEnd c s t h).1 hevt
  obtain rfl := Option.some.inj (hcur.symm.trans hcur')
  have hok : (s.chan c).Ok := (hinv.allFit.fit c).ok
  have hn : o.n = d.remainingSize := hok.last_unit hout hdis hcur hle
  refine ⟨o, hout, hn, ?received, fun hpend hreq => ?retired⟩
  case received =>
    rw [hn]
    exact (hok.active d hcur).received_once hcont
  case retired =>
    obtain ⟨-, hmoved⟩ := serviceMovesUnitAndEndsPass c s bytes o hready hout
    obtain ⟨-, -, -, halone⟩ := hmoved d hcur hdis
    have hserved := halone hn.symm hcont hpend
    obtain ⟨hr, -⟩ | ⟨-, rfl⟩ := step_next_cases h
    · simp [hrst] at hr
    · rw [State.afterAccess_cur, State.accessed, hreq]
      dsimp only
      rw [hserved]

/-! ### ISSUE (R121, R122) -/

theorem State.issue_of_none {s : State} {c : ChannelId} (h : (s.chan c).nextRequest c = none) : s.issue c = s := by
  simp [State.issue, h]

theorem State.issue_of_some {s : State} {c : ChannelId} {r : MemRequest} (h : (s.chan c).nextRequest c = some r) :
    s.issue c = ((s.setChan c ((s.chan c).requested c r)).setPort c (some ⟨r, none⟩)).hand r := by
  simp [State.issue, h]

/-- Settles O25: a read of the next unit is TX's next request exactly in these states. -/
theorem txIssuesWhenStageEmpty : Obligations.TxIssuesWhenStageEmpty := by
  intro s
  refine ⟨fun hblocked => State.issue_of_none ?blocked, fun d hcur hout hstage => ?issues⟩
  case blocked =>
    refine Option.eq_none_iff_forall_ne_some.2 fun r hr => ?_
    obtain ⟨d, hcur, hout, hstage, -⟩ := (s.tx.nextRequest_tx r).1 hr
    rcases hblocked with hidle | hbusy | hfull
    · simp [hcur] at hidle
    · exact hbusy hout
    · exact hfull hstage
  case issues =>
    exact State.issue_of_some (c := .tx) ((s.tx.nextRequest_tx _).2 ⟨d, hcur, hout, hstage, rfl⟩)

/-- Settles O26: a write of the unit at the front of the stage is RX's next request exactly in these states. -/
theorem rxIssuesWhenUnitStaged : Obligations.RxIssuesWhenUnitStaged := by
  intro s
  refine ⟨fun hblocked => State.issue_of_none ?blocked, fun d bytes rest hcur hout hstage hlen => ?issues⟩
  case blocked =>
    refine Option.eq_none_iff_forall_ne_some.2 fun r hr => ?_
    obtain ⟨d, hcur, hout, hunit, -⟩ := (s.rx.nextRequest_rx r).1 hr
    rcases hblocked d hcur with hbusy | hshort
    · exact hbusy hout
    · exact absurd hunit (Nat.not_le.2 hshort)
  case issues =>
    have hn : d.nextN = bytes.length := hlen.symm
    have hnext : s.rx.nextRequest .rx = some ⟨.rx, d.currentAddress, bytes.length, .write bytes⟩ :=
      (s.rx.nextRequest_rx _).2 ⟨d, hcur, hout, by simp [hn, hstage], by simp [hn, hstage]⟩
    have hrest : s.rx.stage.drop bytes.length = rest := by simp [hstage]
    rw [← hrest]
    exact State.issue_of_some (c := .rx) hnext

/-! ### PUSH (R131) -/

theorem Channel.push_of_room {c : Channel} (hcur : c.cur ≠ none) (hroom : c.stage.length < 4) (b : Byte) :
    c.push b = { c with stage := c.stage ++ [b] } := by
  rcases c.push_cases b with ⟨-, -, e⟩ | ⟨hno | hfull, -⟩
  · exact e
  · exact absurd hno hcur
  · exact absurd hroom (Nat.not_lt.2 hfull)

theorem Channel.push_of_dropped {c : Channel} (h : c.cur = none ∨ 4 ≤ c.stage.length) (b : Byte) : c.push b = c := by
  rcases c.push_cases b with ⟨hcur, hroom, -⟩ | ⟨-, e⟩
  · exact (h.elim hcur (Nat.not_le.2 hroom)).elim
  · exact e

/-- Settles O28: the two cases of PUSH. -/
theorem pushStagesOrDrops : Obligations.PushStagesOrDrops :=
  fun _ b => ⟨fun hcur hroom => Channel.push_of_room hcur hroom b, fun h => Channel.push_of_dropped h b⟩

/-! ### The bytes of the RX stage in a step (R122, R131) -/

theorem rxBytesOf_append (l l' : List MemRequest) : rxBytesOf (l ++ l') = rxBytesOf l ++ rxBytesOf l' :=
  List.flatMap_append

/-- TX asks for reads only (R121). -/
theorem Channel.rxBytesOf_nextRequest_tx (c : Channel) : rxBytesOf (c.nextRequest .tx).toList = [] := by
  cases h : c.nextRequest .tx with
  | none => rfl
  | some r =>
    obtain ⟨d, -, -, -, rfl⟩ := (c.nextRequest_tx r).1 h
    rfl

/-- The bytes of RX's request are those that leave its stage, from the front (R122). -/
theorem Channel.Issues.rx_stage {c c' : Channel} {p p' : Option PortEntry} (h : Channel.Issues .rx c c' p p') :
    rxBytesOf (c.nextRequest .rx).toList ++ c'.stage = c.stage := by
  obtain ⟨hnone, rfl, -⟩ | ⟨r, hr, rfl, -⟩ := h
  · rw [hnone]
    rfl
  · rw [hr]
    obtain ⟨d, -, -, -, rfl⟩ := (c.nextRequest_rx r).1 hr
    simp [rxBytesOf, Channel.requested]

/-- Phase 6 moves bytes of the RX stage into its request and loses none. -/
theorem State.afterAccess_rx_bytes {s : State} (hs : s.issued = []) (i : StepInput) :
    rxBytesOf (s.afterAccess i).issued ++ (s.afterAccess i).rx.stage = (s.protocol i.cg i.rxIn).rx.stage := by
  rw [State.afterAccess_issued, hs, List.nil_append, rxBytesOf_append, Channel.rxBytesOf_nextRequest_tx, List.append_nil]
  exact (s.afterAccess_issues i .rx).rx_stage

/-- The parity sample of a byte delivers it if the bit is right or parity has been switched off (R160). -/
theorem RxFsm.step_parity_sample {u : Setup} {f : RxFsm} {v : Bool} (hstate : f.state = .parity) (hcnt : f.cnt = 0#17)
    (hbit : u.parity = .noParity ∨ v = parityBit f.shift u.parity) : (f.step u v).2 = some f.shift := by
  have haccepts : parityAccepts u f.shift v = true := by
    rcases hbit with hoff | rfl
    · simp [parityAccepts, hoff]
    · cases hmode : u.parity <;> simp [parityAccepts, hmode]
  simp [RxFsm.step, RxFsm.react, RxFsm.sampleParity, hstate, hcnt, haccepts]

/-- In an enabled step the receiver, which the earlier phases leave as it was, pushes what it delivers (R131). -/
theorem State.accessed_protocol_rx {s : State} {cg : Bool} (hcg : cg = true) (v : Bool) :
    (s.accessed.protocol cg v).rx = s.accessed.rx.pushed (s.rxFsm.step s.accessed.setup v).2 := by
  rw [hcg, ← s.beforeAccess_rxFsm, ← s.accessed_frame.rxFsm]
  rfl

/-- Settles O45: only PUSH and the issue touch the RX stage after the register access. -/
theorem receivedByteIsStaged : Obligations.ReceivedByteIsStaged := by
  intro s t hrst h
  obtain ⟨hr, -⟩ | ⟨-, rfl⟩ := step_next_cases h
  · simp [hrst] at hr
  have hbytes := State.afterAccess_rx_bytes (s.accessed_frame.issued.trans s.beforeAccess_issued) s.nextInput
  dsimp only
  rw [hbytes]
  have hstaged : ∀ b, s.nextInput.cg = true → (s.rxFsm.step s.accessed.setup s.nextInput.rxIn).2 = some b →
      s.accessed.rx.cur ≠ none → s.accessed.rx.stage.length < 4 →
      (s.accessed.protocol s.nextInput.cg s.nextInput.rxIn).rx.stage = s.accessed.rx.stage ++ [b] := by
    intro b hcg hb hcur hroom
    rw [State.accessed_protocol_rx hcg, hb, Channel.pushed, Channel.push_of_room hcur hroom]
  refine ⟨hstaged, fun hcg hstate hcnt hbit => hstaged _ hcg (RxFsm.step_parity_sample hstate hcnt hbit), ?kept⟩
  case kept =>
    intro hkept
    cases hcg : s.nextInput.cg with
    | false => rfl
    | true =>
      rw [State.accessed_protocol_rx rfl]
      cases hb : (s.rxFsm.step s.accessed.setup s.nextInput.rxIn).2 with
      | none => rfl
      | some b => rw [Channel.pushed, Channel.push_of_dropped (by simpa [hcg, hb] using hkept)]

end Sys2Proof.Machine
end

