-- ==== Sys2Proof/Proofs/Transmitter.lean ====
section
/-! PROOF. The transmitter (spec/42_uart_tx.md). Its place in a frame is the bit it sends and its counter: a step within
a bit counts down, the last step of a bit starts the next one, and the frame's last bit ends in the next frame or in
idle. A run of the machine repeats this for each enabled step. -/

namespace Sys2Proof.Machine

open Sys2Proof

/-! ### The parity bit (R9, R147) -/

/-- The exclusive or over a list is 1 exactly when an odd number of its members is. -/
theorem foldr_xor_eq_countP (p : Nat → Bool) (l : List Nat) :
    l.foldr (fun i v => p i ^^ v) false = decide (l.countP p % 2 = 1) := by
  induction l with
  | nil => rfl
  | cons i l ih =>
    rw [List.foldr_cons, ih, List.countP_cons]
    obtain h | h := Nat.mod_two_eq_zero_or_one (l.countP p) <;> cases p i <;> simp [h, Nat.add_mod]

theorem byteParity_eq_countP (b : Byte) :
    byteParity b = decide ((List.range 8).countP (fun i => b.getLsbD i) % 2 = 1) := by
  rw [← foldr_xor_eq_countP]
  simp [byteParity, List.range_succ]

/-- The parity bit is 1 for even parity when the number of ones is odd, and for odd parity when it is even (R147). -/
theorem parityBit_eq_countP (b : Byte) {mode : ParityMode} (h : mode ≠ .noParity) :
    parityBit b mode =
      decide ((List.range 8).countP (fun i => b.getLsbD i) % 2 = if mode = .even then 1 else 0) := by
  cases mode with
  | noParity => exact absurd rfl h
  | even => simpa [parityBit] using byteParity_eq_countP b
  | odd =>
    rw [parityBit, byteParity_eq_countP, ← decide_not]
    simp

/-- Settles O36, by what the parity bit says of the number of ones. -/
theorem parityBitCountsOnes : Obligations.ParityBitCountsOnes := by
  intro b
  rw [parityBit_eq_countP b (by decide), parityBit_eq_countP b (by decide)]
  generalize (List.range 8).countP (fun i => b.getLsbD i) = n
  obtain h | h := Nat.mod_two_eq_zero_or_one n <;> simp [h, Nat.add_mod]

/-! ### The branches of TX_STEP (R141 to R146) -/

section Branches

variable {u : Setup} {f : TxFsm} {stage : List Byte}

theorem TxFsm.step_idle_pop (hs : f.state = .idle) (b : Byte) : f.step u (b :: stage) = (f.load u b, stage) := by
  simp [TxFsm.step, hs]

theorem TxFsm.step_idle_empty (hs : f.state = .idle) : f.step u [] = (f, []) := by simp [TxFsm.step, hs]

theorem TxFsm.step_countDown (hs : f.state ≠ .idle) (hc : f.cnt ≠ 0#16) :
    f.step u stage = ({ f with cnt := f.cnt - 1#16 }, stage) := by
  unfold TxFsm.step
  cases hstate : f.state with
  | idle => exact absurd hstate hs
  | _ => simp [hc]

theorem TxFsm.step_start_end (hs : f.state = .start) (hc : f.cnt = 0#16) : f.step u stage = (f.endStart u, stage) := by
  simp [TxFsm.step, hs, hc]

theorem TxFsm.step_data_end (hs : f.state = .data) (hc : f.cnt = 0#16) : f.step u stage = (f.endData u, stage) := by
  simp [TxFsm.step, hs, hc]

theorem TxFsm.step_parity_end (hs : f.state = .parity) (hc : f.cnt = 0#16) :
    f.step u stage = (f.toStop u, stage) := by
  simp [TxFsm.step, TxFsm.endParity, hs, hc]

theorem TxFsm.step_stop_end (hs : f.state = .stop) (hc : f.cnt = 0#16) : f.step u stage = f.endStop u stage := by
  simp [TxFsm.step, hs, hc]

theorem TxFsm.endData_of_lt (hb : f.bit.val < 7) :
    f.endData u = { f with
      bit := ⟨f.bit.val + 1, by omega⟩, line := f.shift.getLsbD (f.bit.val + 1), cnt := u.clkdiv } := by
  simp [TxFsm.endData, hb, bit_succ f.bit hb]

theorem TxFsm.endData_of_noParity (hb : f.bit.val = 7) (hp : u.parity = .noParity) : f.endData u = f.toStop u := by
  simp [TxFsm.endData, hb, hp]

theorem TxFsm.endData_of_parity (hb : f.bit.val = 7) (hp : u.parity ≠ .noParity) :
    f.endData u = { f with state := .parity, line := parityBit f.shift u.parity, cnt := u.clkdiv } := by
  cases hmode : u.parity with
  | noParity => exact absurd hmode hp
  | _ => simp [TxFsm.endData, hb, hmode]

theorem TxFsm.endStop_second (hs : f.stop = 0) (h2 : u.stop2 = true) :
    f.endStop u stage = ({ f with stop := 1, line := true, cnt := u.clkdiv }, stage) := by
  simp [TxFsm.endStop, hs, h2]

theorem TxFsm.endStop_pop (h : f.stop = 1 ∨ u.stop2 = false) (b : Byte) :
    f.endStop u (b :: stage) = (f.load u b, stage) := by
  rcases h with h | h <;> simp [TxFsm.endStop, h]

theorem TxFsm.endStop_empty (h : f.stop = 1 ∨ u.stop2 = false) :
    f.endStop u [] = ({ f with state := .idle, line := true }, []) := by
  rcases h with h | h <;> simp [TxFsm.endStop, h]

end Branches

/-! ### The transmitter in a machine step -/

/-- No phase before the FSMs reaches the transmitter (R119). -/
theorem State.accessed_txFsm (s : State) : s.accessed.txFsm = s.txFsm :=
  s.accessed_frame.txFsm.trans s.beforeAccess_txFsm

/-- Phase 5 alone drives the transmitter in a step that is no reset step. -/
theorem step_txFsm {s t : State} (h : step s = .next t) (hr : s.nextInput.rst = false) :
    t.txFsm = (s.accessed.protocol s.nextInput.cg s.nextInput.rxIn).txFsm := by
  obtain ⟨hr', -⟩ | ⟨-, rfl⟩ := step_next_cases h
  · simp [hr] at hr'
  · exact (s.accessed.afterAccess_fsms s.nextInput).1

/-- Without a SETUP write the register access of a step leaves the configuration alone. -/
theorem accessed_setup {s : State} (hk : keepsSetup s.nextInput) : s.accessed.setup = s.setup := by
  have hstep := step_accessed hk.1
  rw [← (step_fsms hstep hk).1]
  exact (s.accessed.afterAccess_fsms s.nextInput).2.2.1.symm

theorem step_txFsm_gated {s t : State} (h : step s = .next t) (hr : s.nextInput.rst = false)
    (hcg : s.nextInput.cg = false) : t.txFsm = s.txFsm := by
  rw [step_txFsm h hr, hcg, State.protocol_gated, s.accessed_txFsm]

theorem step_txFsm_enabled {s t : State} (h : step s = .next t) (hk : keepsSetup s.nextInput)
    (hcg : s.nextInput.cg = true) : t.txFsm = (s.txFsm.step s.setup s.accessed.tx.stage).1 := by
  rw [step_txFsm h hk.1, hcg, State.protocol_enabled, State.rxStep_txFsm, State.txStep_txFsm, s.accessed_txFsm,
    accessed_setup hk]

/-- Settles O35: phase 5 skips a gated transmitter, and the rest are the branches of TX_STEP. -/
theorem transmitterSteps : Obligations.TransmitterSteps := by
  refine ⟨fun s t h hr hcg => step_txFsm_gated h hr hcg, fun u f stage b => ?_⟩
  have hload : f.load u b = { f with shift := b, state := .start, line := false, cnt := u.clkdiv } := by
    simp [TxFsm.load]
  have hstop : f.toStop u = { f with state := .stop, stop := 0, line := true, cnt := u.clkdiv } := by
    simp [TxFsm.toStop]
  dsimp only
  rw [← hload, ← hstop]
  refine ⟨?idle, ?within, ?start, ?data, ?dataLast, ?dataParity, ?parity, ?stopFirst, ?stopLast⟩
  case idle => exact fun hs => ⟨TxFsm.step_idle_pop hs b, TxFsm.step_idle_empty hs⟩
  case within =>
    intro hs hc
    rw [TxFsm.step_countDown hs hc, ← counter_sub_one _ hc, BitVec.ofNat_toNat, BitVec.setWidth_eq]
  case start =>
    intro hs hc
    rw [TxFsm.step_start_end hs hc, TxFsm.endStart, u.txLoad_eq]
  case data =>
    intro hs hc hb
    rw [TxFsm.step_data_end hs hc, TxFsm.endData_of_lt hb]
  case dataLast =>
    intro hs hc hb hp
    rw [TxFsm.step_data_end hs hc, TxFsm.endData_of_noParity hb hp]
  case dataParity =>
    intro hs hc hb hp
    rw [TxFsm.step_data_end hs hc, TxFsm.endData_of_parity hb hp, parityBit_eq_countP _ hp]
  case parity => exact fun hs hc => TxFsm.step_parity_end hs hc
  case stopFirst =>
    intro hs hc h1 h2
    rw [TxFsm.step_stop_end hs hc, TxFsm.endStop_second h1 h2]
  case stopLast =>
    intro hs hc hlast
    rw [TxFsm.step_stop_end hs hc, TxFsm.step_stop_end hs hc]
    exact ⟨TxFsm.endStop_pop hlast b, TxFsm.endStop_empty hlast⟩

/-! ### The bits of a frame (R148) -/

theorem parityBits_of_noParity {u : Setup} (h : u.parity = .noParity) (b : Byte) : parityBits u b = [] := by
  simp [parityBits, h]

theorem parityBits_of_parity {u : Setup} (h : u.parity ≠ .noParity) (b : Byte) :
    parityBits u b = [parityBit b u.parity] := by
  cases hmode : u.parity with
  | noParity => exact absurd hmode h
  | _ => simp [parityBits, hmode]

theorem parityBits_length (u : Setup) (b : Byte) :
    (parityBits u b).length = if u.parity = .noParity then 0 else 1 := by
  by_cases h : u.parity = .noParity
  · simp [parityBits_of_noParity h, h]
  · simp [parityBits_of_parity h, h]

theorem frameBits_length (u : Setup) (b : Byte) :
    (frameBits u b).length = 10 + (parityBits u b).length + if u.stop2 then 1 else 0 := by
  have hstop : (stopBits u).length = 1 + if u.stop2 then 1 else 0 := by cases h : u.stop2 <;> simp [stopBits, h]
  simp only [frameBits, List.length_append, List.length_cons, List.length_map, List.length_range, hstop]
  omega

theorem frameBits_start (u : Setup) (b : Byte) : (frameBits u b).getD 0 true = false := rfl

theorem frameBits_data (u : Setup) (b : Byte) {i : Nat} (hi : i < 8) :
    (frameBits u b).getD (1 + i) true = b.getLsbD i := by
  simp [frameBits, Nat.add_comm 1 i, List.getElem?_append_left, hi]

theorem frameBits_parity {u : Setup} (h : u.parity ≠ .noParity) (b : Byte) :
    (frameBits u b).getD 9 true = parityBit b u.parity := by
  simp [frameBits, parityBits_of_parity h]

/-- From the first stop bit on the line is at 1, in the frame and idle after it. -/
theorem frameBits_stop (u : Setup) (b : Byte) (i : Nat) :
    (frameBits u b).getD (9 + (parityBits u b).length + i) true = true := by
  have hstop : (stopBits u).getD i true = true := by
    unfold stopBits
    split <;> rcases i with _ | _ | i <;> rfl
  rw [List.getD_eq_getElem?_getD] at hstop ⊢
  have hfront : (false :: ((List.range 8).map fun i => b.getLsbD i) ++ parityBits u b).length =
      9 + (parityBits u b).length := by
    simp
    omega
  rw [frameBits, List.getElem?_append_right (by omega), hfront, Nat.add_sub_cancel_left]
  exact hstop

/-! ### A place in a frame is a bit and a counter value -/

/-- The transmitter sends a bit of the frame of `b`: its place without the number of steps. -/
structure TxFsm.Sends (u : Setup) (b : Byte) (f : TxFsm) : Prop where
  sending : f.state ≠ .idle
  byte : f.shift = b
  parity : f.state = .parity → u.parity ≠ .noParity
  count : f.cnt.toNat ≤ u.clkdiv.toNat
  within : f.frameBit u < (frameBits u b).length
  level : f.line = (frameBits u b).getD (f.frameBit u) true

/-- The enabled steps since the start bit of the frame began: whole bits, and the steps of this one. -/
def TxFsm.framePlace (u : Setup) (f : TxFsm) : Nat :=
  f.frameBit u * u.bitTime + (u.clkdiv.toNat - f.cnt.toNat)

theorem TxFsm.framePlace_div (u : Setup) (f : TxFsm) : f.framePlace u / u.bitTime = f.frameBit u := by
  have hlt : u.clkdiv.toNat - f.cnt.toNat < u.bitTime := Nat.lt_succ_of_le (Nat.sub_le _ _)
  rw [TxFsm.framePlace, Nat.mul_comm, Nat.mul_add_div u.bitTime_pos, Nat.div_eq_of_lt hlt, Nat.add_zero]

/-- After a bit's last step its steps are whole. -/
theorem TxFsm.framePlace_end (u : Setup) {f : TxFsm} (hc : f.cnt = 0#16) :
    f.framePlace u + 1 = (f.frameBit u + 1) * u.bitTime := by
  rw [TxFsm.framePlace, hc, Nat.add_mul, Nat.one_mul]
  rfl

theorem TxFsm.framePlace_lt_iff (u : Setup) (b : Byte) (f : TxFsm) :
    f.framePlace u < frameLength u b ↔ f.frameBit u < (frameBits u b).length := by
  rw [frameLength, ← Nat.div_lt_iff_lt_mul u.bitTime_pos, f.framePlace_div]

theorem TxFsm.atFrame_iff {u : Setup} {b : Byte} {k : Nat} {f : TxFsm} :
    f.AtFrame u b k ↔ f.Sends u b ∧ k = f.framePlace u := by
  constructor
  · intro h
    obtain rfl : k = f.framePlace u := h.place
    exact ⟨⟨h.sending, h.byte, h.parity, h.count, (f.framePlace_lt_iff u b).1 h.within,
      by rw [h.level, frameLevel, f.framePlace_div]⟩, rfl⟩
  · rintro ⟨h, rfl⟩
    exact ⟨h.sending, h.byte, (f.framePlace_lt_iff u b).2 h.within, h.count, rfl, h.parity,
      by rw [h.level, frameLevel, f.framePlace_div]⟩

/-! ### The steps of a bit -/

/-- Within a bit the transmitter sends the same bit, and a step less of it is left. -/
theorem TxFsm.Sends.countDown {u : Setup} {b : Byte} {f : TxFsm} (h : f.Sends u b) (hc : f.cnt ≠ 0#16) :
    ({ f with cnt := f.cnt - 1#16 } : TxFsm).Sends u b ∧
      ({ f with cnt := f.cnt - 1#16 } : TxFsm).framePlace u = f.framePlace u + 1 := by
  have hpos : f.cnt.toNat ≠ 0 := fun h0 => hc (BitVec.eq_of_toNat_eq h0)
  have hcnt := counter_sub_one _ hc
  have hle := h.count
  refine ⟨⟨h.sending, h.byte, h.parity, ?_, h.within, h.level⟩, ?_⟩
  · change (f.cnt - 1#16).toNat ≤ _
    omega
  · change f.frameBit u * u.bitTime + (u.clkdiv.toNat - (f.cnt - 1#16).toNat) = _
    rw [TxFsm.framePlace]
    omega

/-- The first step of bit `n` of a frame: the counter has its load value (R140). -/
structure TxFsm.StartsBit (u : Setup) (b : Byte) (n : Nat) (f : TxFsm) : Prop where
  sends : f.Sends u b
  bit : f.frameBit u = n
  count : f.cnt = u.clkdiv

theorem TxFsm.StartsBit.atFrame {u : Setup} {b : Byte} {n : Nat} {f : TxFsm} (h : f.StartsBit u b n) :
    f.AtFrame u b (n * u.bitTime) := by
  rw [TxFsm.atFrame_iff, TxFsm.framePlace, h.bit, h.count, Nat.sub_self, Nat.add_zero]
  exact ⟨h.sends, rfl⟩

/-- A bit starts where the counter is loaded and the line takes the bit's level. -/
theorem TxFsm.StartsBit.intro {u : Setup} {b : Byte} {n : Nat} {f : TxFsm} (bit : f.frameBit u = n)
    (count : f.cnt = u.clkdiv) (sending : f.state ≠ .idle) (byte : f.shift = b)
    (parity : f.state = .parity → u.parity ≠ .noParity) (within : n < (frameBits u b).length)
    (level : f.line = (frameBits u b).getD n true) : f.StartsBit u b n :=
  ⟨⟨sending, byte, parity, by rw [count], by rwa [bit], by rwa [bit]⟩, bit, count⟩

section FrameBit

variable {u : Setup} {f : TxFsm}

theorem TxFsm.frameBit_start (hs : f.state = .start) : f.frameBit u = 0 := by simp [TxFsm.frameBit, hs]

theorem TxFsm.frameBit_data (hs : f.state = .data) : f.frameBit u = 1 + f.bit.val := by simp [TxFsm.frameBit, hs]

theorem TxFsm.frameBit_parity (hs : f.state = .parity) : f.frameBit u = 9 := by simp [TxFsm.frameBit, hs]

theorem TxFsm.frameBit_stop (hs : f.state = .stop) :
    f.frameBit u = 9 + (parityBits u f.shift).length + f.stop.val := by simp [TxFsm.frameBit, hs]

end FrameBit

/-- The first place of a frame (R142). -/
theorem TxFsm.atFrame_zero {u : Setup} {b : Byte} {f : TxFsm} (hs : f.state = .start) (hb : f.shift = b)
    (hline : f.line = false) (hcnt : f.cnt = u.clkdiv) : f.AtFrame u b 0 := by
  have hstart : f.StartsBit u b 0 :=
    .intro (TxFsm.frameBit_start hs) hcnt (by simp [hs]) hb (by simp [hs]) (by rw [frameBits_length]; omega) hline
  simpa using hstart.atFrame

/-- LOAD starts the frame of the byte it takes (R142). -/
theorem TxFsm.load_atFrame (u : Setup) (f : TxFsm) (b : Byte) : (f.load u b).AtFrame u b 0 :=
  TxFsm.atFrame_zero rfl rfl rfl u.txLoad_eq

/-- The first stop bit follows the data and parity bits (R144, R145). -/
theorem TxFsm.toStop_startsBit (u : Setup) {f : TxFsm} {b : Byte} (hb : f.shift = b) :
    (f.toStop u).StartsBit u b (9 + (parityBits u b).length) :=
  .intro (by rw [← hb]; rfl) u.txLoad_eq (by simp [TxFsm.toStop]) hb (by simp [TxFsm.toStop])
    (by rw [frameBits_length]; omega) (frameBits_stop u b 0).symm

/-- The last bit of a frame is its last stop bit (R146). -/
theorem TxFsm.Sends.last_iff {u : Setup} {b : Byte} {f : TxFsm} (h : f.Sends u b) :
    f.frameBit u + 1 = (frameBits u b).length ↔ f.state = .stop ∧ (f.stop = 1 ∨ u.stop2 = false) := by
  have hwithin := h.within
  rw [frameBits_length] at hwithin ⊢
  cases hs : f.state with
  | idle => exact absurd hs h.sending
  | start =>
    rw [TxFsm.frameBit_start hs]
    exact iff_of_false (by omega) (by simp)
  | data =>
    have := f.bit.isLt
    rw [TxFsm.frameBit_data hs]
    exact iff_of_false (by omega) (by simp)
  | parity =>
    rw [TxFsm.frameBit_parity hs, parityBits_of_parity (h.parity hs), List.length_singleton]
    exact iff_of_false (by omega) (by simp)
  | stop =>
    rw [TxFsm.frameBit_stop hs, h.byte] at hwithin ⊢
    cases h2 : u.stop2 with
    | false =>
      rw [h2, if_neg Bool.false_ne_true] at hwithin
      rw [if_neg Bool.false_ne_true]
      exact iff_of_true (by omega) ⟨rfl, .inr rfl⟩
    | true =>
      have hstop : f.stop = 1 ↔ f.stop.val = 1 := Fin.ext_iff
      simp only [hstop, true_and, reduceCtorEq, or_false, if_true]
      omega

/-- At the end of a bit other than the last the next bit of the frame starts, whatever is staged (R143 to R146). -/
theorem TxFsm.Sends.endBit {u : Setup} {b : Byte} {f : TxFsm} (h : f.Sends u b) (hc : f.cnt = 0#16)
    (hnext : f.frameBit u + 1 < (frameBits u b).length) (stage : List Byte) :
    (f.step u stage).1.StartsBit u b (f.frameBit u + 1) := by
  obtain rfl : b = f.shift := h.byte.symm
  cases hs : f.state with
  | idle => exact absurd hs h.sending
  | start =>
    rw [TxFsm.frameBit_start hs] at hnext ⊢
    rw [TxFsm.step_start_end hs hc]
    exact .intro rfl u.txLoad_eq (by simp [TxFsm.endStart]) rfl (by simp [TxFsm.endStart]) hnext
      (frameBits_data u _ (by decide : 0 < 8)).symm
  | data =>
    rw [TxFsm.frameBit_data hs] at hnext ⊢
    rw [TxFsm.step_data_end hs hc]
    by_cases hb : f.bit.val < 7
    · rw [TxFsm.endData_of_lt hb]
      exact .intro (TxFsm.frameBit_data hs) rfl h.sending rfl h.parity hnext (frameBits_data u _ (by omega)).symm
    · have hb : f.bit.val = 7 := by omega
      rw [hb] at hnext ⊢
      by_cases hp : u.parity = .noParity
      · rw [TxFsm.endData_of_noParity hb hp]
        simpa [parityBits_of_noParity hp] using TxFsm.toStop_startsBit u (f := f) rfl
      · rw [TxFsm.endData_of_parity hb hp]
        exact .intro rfl rfl (by simp) rfl (fun _ => hp) hnext (frameBits_parity hp _).symm
  | parity =>
    rw [TxFsm.step_parity_end hs hc, TxFsm.frameBit_parity hs]
    simpa [parityBits_of_parity (h.parity hs)] using TxFsm.toStop_startsBit u (f := f) rfl
  | stop =>
    have hfirst : ¬ (f.stop = 1 ∨ u.stop2 = false) := fun hlast => hnext.ne (h.last_iff.2 ⟨hs, hlast⟩)
    obtain ⟨h1, h2⟩ : f.stop ≠ 1 ∧ u.stop2 = true := by simpa using hfirst
    have h1 : f.stop = 0 := by omega
    rw [TxFsm.frameBit_stop hs, h1] at hnext ⊢
    rw [TxFsm.step_stop_end hs hc, TxFsm.endStop_second h1 h2]
    exact .intro (TxFsm.frameBit_stop hs) rfl h.sending rfl h.parity hnext (frameBits_stop u _ 1).symm

/-! ### A step in a frame -/

/-- An enabled step before the frame's last takes the transmitter one place further. -/
theorem TxFsm.AtFrame.step_next {u : Setup} {b : Byte} {k : Nat} {f : TxFsm} (h : f.AtFrame u b k)
    (hk : k + 1 < frameLength u b) (stage : List Byte) : (f.step u stage).1.AtFrame u b (k + 1) := by
  obtain ⟨hsends, rfl⟩ := TxFsm.atFrame_iff.1 h
  by_cases hc : f.cnt = 0#16
  · rw [TxFsm.framePlace_end u hc] at hk ⊢
    exact (hsends.endBit hc (Nat.lt_of_mul_lt_mul_right hk) stage).atFrame
  · rw [TxFsm.step_countDown hsends.sending hc]
    obtain ⟨hsends', hplace⟩ := hsends.countDown hc
    exact TxFsm.atFrame_iff.2 ⟨hsends', hplace.symm⟩

/-- The frame's last step is the last step of its last stop bit. -/
theorem TxFsm.AtFrame.last {u : Setup} {b : Byte} {k : Nat} {f : TxFsm} (h : f.AtFrame u b k)
    (hk : k + 1 = frameLength u b) : f.cnt = 0#16 ∧ f.state = .stop ∧ (f.stop = 1 ∨ u.stop2 = false) := by
  obtain ⟨hsends, rfl⟩ := TxFsm.atFrame_iff.1 h
  have hc : f.cnt = 0#16 := by
    by_contra hc
    obtain ⟨hsends', hplace⟩ := hsends.countDown hc
    have hlt := (TxFsm.framePlace_lt_iff u b _).2 hsends'.within
    omega
  rw [TxFsm.framePlace_end u hc] at hk
  exact ⟨hc, hsends.last_iff.1 (Nat.eq_of_mul_eq_mul_right u.bitTime_pos hk)⟩

/-- From the frame's last step the transmitter loads the byte staged first (R146). -/
theorem TxFsm.AtFrame.step_last_pop {u : Setup} {b : Byte} {k : Nat} {f : TxFsm} (h : f.AtFrame u b k)
    (hk : k + 1 = frameLength u b) (b' : Byte) (rest : List Byte) : f.step u (b' :: rest) = (f.load u b', rest) := by
  obtain ⟨hc, hs, hlast⟩ := h.last hk
  rw [TxFsm.step_stop_end hs hc, TxFsm.endStop_pop hlast]

/-- From the frame's last step the line goes idle at 1 if nothing is staged (R146). -/
theorem TxFsm.AtFrame.step_last_empty {u : Setup} {b : Byte} {k : Nat} {f : TxFsm} (h : f.AtFrame u b k)
    (hk : k + 1 = frameLength u b) : f.step u [] = ({ f with state := .idle, line := true }, []) := by
  obtain ⟨hc, hs, hlast⟩ := h.last hk
  rw [TxFsm.step_stop_end hs hc, TxFsm.endStop_empty hlast]

/-- Settles O39: phase 5 is the only phase that drives the transmitter, with the bytes staged at the access. -/
theorem transmitterKeepsItsPlace : Obligations.TransmitterKeepsItsPlace := by
  intro s t b k hk hat hstep
  rw [(step_fsms hstep hk).1]
  refine ⟨?gated, ?next, ?last⟩
  case gated =>
    intro hcg
    rwa [step_txFsm_gated hstep hk.1 hcg]
  case next =>
    intro hcg hlt
    rw [step_txFsm_enabled hstep hk hcg]
    exact hat.step_next hlt _
  case last =>
    intro hcg hlast
    rw [State.txOut, step_txFsm_enabled hstep hk hcg]
    refine ⟨fun b' rest hstage => ?_, fun hstage => ?_⟩
    · rw [hstage, hat.step_last_pop hlast]
      exact TxFsm.load_atFrame _ _ _
    · rw [hstage, hat.step_last_empty hlast]
      exact ⟨rfl, rfl⟩

/-! ### Runs of the machine through a frame (R148, R149) -/

theorem State.nextInput_of_inputs {s : State} {i : StepInput} {rest : List StepInput} (h : s.inputs = i :: rest) :
    s.nextInput = i := by
  simp [State.nextInput, h]

theorem runSteps_succ {s t : State} (h : step s = .next t) (n : Nat) : runSteps (n + 1) s = runSteps n t := by
  simp [runSteps, h]

/-- Over steps that reset nothing and write no SETUP the transmitter goes as many places further in its frame as
steps are enabled. -/
theorem runSteps_atFrame {b : Byte} {later : List StepInput} (ins : List StepInput) {s : State} {k : Nat}
    (hins : s.inputs = ins ++ later) (hkeep : ∀ i ∈ ins, keepsSetup i) (hat : s.txFsm.AtFrame s.setup b k)
    (hlt : k + ins.countP (fun i => i.cg) < frameLength s.setup b) :
    ∃ t, runSteps ins.length s = .next t ∧ t.setup = s.setup ∧ t.inputs = later ∧
      t.txFsm.AtFrame s.setup b (k + ins.countP fun i => i.cg) := by
  induction ins generalizing s k with
  | nil => exact ⟨s, rfl, rfl, hins, hat⟩
  | cons i ins ih =>
    have hi : s.nextInput = i := State.nextInput_of_inputs hins
    have hk : keepsSetup s.nextInput := hi ▸ hkeep i List.mem_cons_self
    obtain ⟨t, hstep⟩ := step_completes s
    obtain ⟨hsetup, hinputs, -⟩ := step_fsms hstep hk
    obtain ⟨hgated, hnext, -⟩ := transmitterKeepsItsPlace s t b k hk hat hstep
    rw [hins] at hinputs
    rw [List.length_cons, runSteps_succ hstep, ← hsetup]
    rw [← hsetup] at hlt hnext
    have hkeep' : ∀ j ∈ ins, keepsSetup j := fun j hj => hkeep j (List.mem_cons_of_mem _ hj)
    cases hcg : i.cg with
    | false =>
      rw [List.countP_cons_of_neg (by simp [hcg])] at hlt ⊢
      exact ih hinputs hkeep' (hgated (by rw [hi, hcg])) hlt
    | true =>
      rw [List.countP_cons_of_pos hcg, Nat.add_comm _ 1, ← Nat.add_assoc] at hlt ⊢
      exact ih hinputs hkeep' (hnext (by rw [hi, hcg]) (by omega)) hlt

/-- Settles O37: `TxFsm.AtFrame` after the run names the level. -/
theorem frameOnTheLine : Obligations.FrameOnTheLine := by
  intro s b ins later hs hb hline hcnt hins hkeep hlt
  have hat := TxFsm.atFrame_zero hs hb hline hcnt
  obtain ⟨t, hrun, -, -, hat'⟩ := runSteps_atFrame ins hins hkeep hat (by omega)
  rw [Nat.zero_add] at hat'
  exact ⟨t, hrun, hat'.sending, hat'.level⟩

theorem frameLength_eq (u : Setup) (b : Byte) :
    frameLength u b = (10 + (if u.parity = .noParity then 0 else 1) + if u.stop2 then 1 else 0) * u.bitTime := by
  rw [frameLength, frameBits_length, parityBits_length]

/-- Settles O38: the run before its last step ends at the frame's last place. -/
theorem frameLastsItsLength : Obligations.FrameLastsItsLength := by
  intro s b ins later last hs hb hline hcnt hins hkeep hcg hlen
  refine ⟨frameLength_eq s.setup b, ?_⟩
  have hat := TxFsm.atFrame_zero hs hb hline hcnt
  obtain ⟨m, hrun, hsetup, hinputs, hat'⟩ :=
    runSteps_atFrame ins hins (fun i hi => hkeep i (List.mem_append_left _ hi)) hat (by omega)
  have hi : m.nextInput = last := State.nextInput_of_inputs hinputs
  have hk : keepsSetup m.nextInput := hi ▸ hkeep last (by simp)
  obtain ⟨t, hstep⟩ := step_completes m
  refine ⟨t, by rw [runSteps_add 1 hrun, runSteps_succ hstep, runSteps], ?_⟩
  rw [State.txOut, step_txFsm_enabled hstep hk (by rw [hi, hcg]), hsetup]
  cases m.accessed.tx.stage with
  | nil =>
    rw [hat'.step_last_empty (by omega)]
    exact .inl ⟨rfl, rfl⟩
  | cons b' rest =>
    rw [hat'.step_last_pop (by omega)]
    exact .inr ⟨rfl, rfl, s.setup.txLoad_eq⟩

end Sys2Proof.Machine
end

