-- ==== Sys2Proof/Proofs/Receiver.lean ====
section
/-! PROOF. The receiver (spec/43_uart_rx.md). Between samples it only counts down, so a reception is a chain of samples:
each is taken in the middle of its bit of the frame and loads the counter for the middle of the next. A transmitter with
the same configuration holds the level of the bit on its line there. -/

namespace Sys2Proof.Machine

open Sys2Proof

/-! ### The branches of RX_STEP (R155 to R161) -/

section Branches

variable {u : Setup} {f : RxFsm} {v : Bool}

theorem RxFsm.step_edge (hs : f.state = .waitStart) (hprev : f.prev = true) :
    f.step u false = ({ f with state := .data, bit := 0, cnt := u.rxFirstLoad, prev := false }, none) := by
  simp [RxFsm.step, RxFsm.react, RxFsm.inWaitStart, hs, hprev]

theorem RxFsm.step_noEdge (hs : f.state = .waitStart) (hedge : ¬(f.prev = true ∧ v = false)) :
    f.step u v = ({ f with prev := v }, none) := by
  simp [RxFsm.step, RxFsm.react, RxFsm.inWaitStart, hs, hedge]

theorem RxFsm.step_countDown (hs : f.state ≠ .waitStart) (hc : f.cnt ≠ 0#17) :
    f.step u v = ({ f with cnt := f.cnt - 1#17, prev := v }, none) := by
  unfold RxFsm.step RxFsm.react
  cases hstate : f.state with
  | waitStart => exact absurd hstate hs
  | _ => simp [hc, RxFsm.countDown, hstate]

theorem RxFsm.step_data (hs : f.state = .data) (hc : f.cnt = 0#17) :
    f.step u v = ({ (f.sampleData u v).1 with prev := v }, (f.sampleData u v).2) := by
  simp [RxFsm.step, RxFsm.react, hs, hc]

theorem RxFsm.step_data_of_lt (hs : f.state = .data) (hc : f.cnt = 0#17) (hb : f.bit.val < 7) :
    f.step u v = ({ f with
      shift := setBit f.shift f.bit v, bit := ⟨f.bit.val + 1, by omega⟩, cnt := u.rxLoad, prev := v }, none) := by
  simp [RxFsm.step_data hs hc, RxFsm.sampleData, hb, bit_succ f.bit hb]

theorem RxFsm.step_data_of_noParity (hs : f.state = .data) (hc : f.cnt = 0#17) (hb : f.bit.val = 7)
    (hp : u.parity = .noParity) :
    f.step u v = ({ f with
      shift := setBit f.shift f.bit v, state := .waitStop, cnt := u.rxLoad, prev := v },
      some (setBit f.shift f.bit v)) := by
  simp [RxFsm.step_data hs hc, RxFsm.sampleData, hb, hp]

theorem RxFsm.step_data_of_parity (hs : f.state = .data) (hc : f.cnt = 0#17) (hb : f.bit.val = 7)
    (hp : u.parity ≠ .noParity) :
    f.step u v = ({ f with
      shift := setBit f.shift f.bit v, state := .parity, cnt := u.rxLoad, prev := v }, none) := by
  cases hmode : u.parity with
  | noParity => exact absurd hmode hp
  | _ => simp [RxFsm.step_data hs hc, RxFsm.sampleData, hb, hmode]

theorem parityAccepts_iff {b : Byte} :
    parityAccepts u b v = true ↔ u.parity = .noParity ∨ v = parityBit b u.parity := by
  cases hmode : u.parity <;> simp [parityAccepts, hmode]

theorem RxFsm.step_parity (hs : f.state = .parity) (hc : f.cnt = 0#17) :
    f.step u v = ({ f with state := .waitStop, cnt := u.rxLoad, prev := v },
      if u.parity = .noParity ∨ v = parityBit f.shift u.parity then some f.shift else none) := by
  simp [RxFsm.step, RxFsm.react, RxFsm.sampleParity, hs, hc, parityAccepts_iff]

theorem RxFsm.step_stop (hs : f.state = .waitStop) (hc : f.cnt = 0#17) :
    f.step u v = ({ f with state := .waitStart, prev := v }, none) := by
  simp [RxFsm.step, RxFsm.react, RxFsm.sampleStop, hs, hc]

end Branches

/-- Settles O40: the two branches of IN_WAIT_START. -/
theorem fallingEdgeStartsReception : Obligations.FallingEdgeStartsReception := by
  intro u f v hs
  refine ⟨?edge, RxFsm.step_noEdge hs⟩
  case edge =>
    rintro ⟨hprev, rfl⟩
    exact ⟨u.rxFirstLoad, u.rxFirstLoad_toNat, RxFsm.step_edge hs hprev⟩

/-- A byte is a shift register with one bit replaced if its bits say so. -/
theorem eq_setBit {b b' : Byte} {i : Fin 8} {v : Bool}
    (h : ∀ j < 8, b'.getLsbD j = if j = i.val then v else b.getLsbD j) : b' = setBit b i v := by
  refine BitVec.eq_of_getLsbD_eq fun j hj => ?_
  have hset := getLsbD_setBit b i ⟨j, hj⟩ v
  rw [h j hj, hset]
  simp only [Fin.ext_iff]

/-- Settles O41: the branches of RX_STEP in a frame. -/
theorem receiverSamples : Obligations.ReceiverSamples := by
  intro u f v shift hshift cnt hcnt
  obtain rfl := eq_setBit hshift
  obtain rfl : cnt = u.rxLoad := BitVec.eq_of_toNat_eq (hcnt.trans u.rxLoad_toNat.symm)
  refine ⟨?within, RxFsm.step_data_of_lt, RxFsm.step_data_of_noParity, RxFsm.step_data_of_parity, RxFsm.step_parity,
    RxFsm.step_stop⟩
  case within =>
    intro hs hc
    rw [RxFsm.step_countDown hs hc, ← counter_sub_one _ hc, BitVec.ofNat_toNat, BitVec.setWidth_eq]

/-! ### The receiver over a run of the machine (R155, R167) -/

/-- Settles O44: an enabled step gives the receiver its level, a gated one leaves the receiver alone. -/
theorem receiverFollowsEnabledSteps : Obligations.ReceiverFollowsEnabledSteps := by
  intro s ins later hins hkeep
  induction ins generalizing s with
  | nil => exact ⟨s, rfl, rfl⟩
  | cons i ins ih =>
    have hi : s.nextInput = i := State.nextInput_of_inputs hins
    obtain ⟨t, hstep⟩ := step_completes s
    obtain ⟨hsetup, hinputs, hgated, henabled⟩ := step_fsms hstep (hi ▸ hkeep i List.mem_cons_self)
    rw [hins] at hinputs
    rw [hi] at hgated henabled
    obtain ⟨t', hrun, hfsm⟩ := ih t hinputs fun j hj => hkeep j (List.mem_cons_of_mem _ hj)
    refine ⟨t', by rw [List.length_cons, runSteps_succ hstep, hrun], ?_⟩
    rw [hfsm, hsetup]
    cases hcg : i.cg with
    | false => rw [(hgated hcg).2, List.filter_cons_of_neg (by simp [hcg])]
    | true =>
      rw [(henabled hcg).2, List.filter_cons_of_pos hcg]
      rfl

/-! ### From one sample to the next -/

theorem RxFsm.run_append (u : Setup) (f : RxFsm) (l l' : List Bool) :
    f.run u (l ++ l') =
      (((f.run u l).1.run u l').1, (f.run u l).2 ++ ((f.run u l).1.run u l').2) := by
  induction l generalizing f with
  | nil => rfl
  | cons v l ih => simp [RxFsm.run, ih]

theorem RxFsm.run_singleton (u : Setup) (f : RxFsm) (v : Bool) :
    f.run u [v] = ((f.step u v).1, (f.step u v).2.toList) := by simp [RxFsm.run]

/-- Over as many levels as its counter says the receiver only counts down. -/
theorem RxFsm.run_countDown (u : Setup) (l : List Bool) {f : RxFsm} (hs : f.state ≠ .waitStart)
    (hl : l.length = f.cnt.toNat) : ∃ prev, f.run u l = ({ f with cnt := 0#17, prev := prev }, []) := by
  induction l generalizing f with
  | nil =>
    have hc : f.cnt = 0#17 := BitVec.eq_of_toNat_eq hl.symm
    exact ⟨f.prev, by rw [← hc]; rfl⟩
  | cons v l ih =>
    rw [List.length_cons] at hl
    have hc : f.cnt ≠ 0#17 := by
      intro hc
      simp [hc] at hl
    have hcnt := counter_sub_one _ hc
    obtain ⟨prev, hrun⟩ := ih (f := { f with cnt := f.cnt - 1#17, prev := v }) hs (by dsimp only; omega)
    exact ⟨prev, by rw [RxFsm.run, RxFsm.step_countDown hs hc, hrun]; rfl⟩

/-- The steps from the start edge to the sample of bit `k` of a frame, in the middle of the bit (R163). -/
def Setup.midBit (u : Setup) (k : Nat) : Nat := k * u.bitTime + u.halfBit

theorem Setup.midBit_succ (u : Setup) (k : Nat) : u.midBit (k + 1) = u.midBit k + u.bitTime := by
  simp only [Setup.midBit, Nat.add_mul]
  omega

/-- Data bit `i` is bit `i + 1` of the frame (R163). -/
theorem Setup.midBit_dataBit (u : Setup) (i : Nat) :
    u.midBit (i + 1) = u.bitTime + u.halfBit + i * u.bitTime := by
  rw [Setup.midBit]
  ring

theorem Setup.midBit_mono (u : Setup) {k l : Nat} (h : k ≤ l) : u.midBit k ≤ u.midBit l :=
  Nat.add_le_add_right (Nat.mul_le_mul_right _ h) _

/-- The middle of a bit is inside the bit. -/
theorem Setup.midBit_div (u : Setup) (k : Nat) : u.midBit k / u.bitTime = k := by
  have hhalf : u.halfBit < u.bitTime := Nat.div_lt_self u.bitTime_pos (by decide)
  rw [Setup.midBit, Nat.mul_comm, Nat.mul_add_div u.bitTime_pos, Nat.div_eq_of_lt hhalf, Nat.add_zero]

/-- After some of the levels the receiver `f` has become `g` and has pushed `bytes`, and its next sample is that of
bit `k` of the frame. -/
def RxFsm.Awaits (u : Setup) (f : RxFsm) (levels : List Bool) (k : Nat) (g : RxFsm) (bytes : List Byte) : Prop :=
  ∃ p, f.run u (levels.take p) = (g, bytes) ∧ p + g.cnt.toNat = u.midBit k

/-- A sample loads the counter for the middle of the next bit (R158 to R160). -/
theorem RxFsm.awaits_succ {u : Setup} {f g : RxFsm} {levels : List Bool} {k : Nat} {bytes : List Byte}
    (hrun : f.run u (levels.take (u.midBit k + 1)) = (g, bytes)) (hcnt : g.cnt = u.rxLoad) :
    f.Awaits u levels (k + 1) g bytes := by
  refine ⟨_, hrun, ?_⟩
  rw [hcnt, u.rxLoad_toNat, u.midBit_succ, Setup.bitTime]
  omega

/-- The receiver takes the sample it awaits from the level in the middle of the bit. -/
theorem RxFsm.Awaits.sample {u : Setup} {f g : RxFsm} {levels : List Bool} {k : Nat} {bytes : List Byte} {v : Bool}
    (h : f.Awaits u levels k g bytes) (hs : g.state ≠ .waitStart) (hv : levels[u.midBit k]? = some v) :
    ∃ prev, f.run u (levels.take (u.midBit k + 1)) =
      ((({ g with cnt := 0#17, prev := prev } : RxFsm).step u v).1,
        bytes ++ (({ g with cnt := 0#17, prev := prev } : RxFsm).step u v).2.toList) := by
  obtain ⟨p, hrun, hp⟩ := h
  have hlt : u.midBit k < levels.length := (List.getElem?_eq_some_iff.1 hv).1
  obtain ⟨prev, hwait⟩ :=
    RxFsm.run_countDown u ((levels.drop p).take g.cnt.toNat) hs (by rw [List.length_take, List.length_drop]; omega)
  refine ⟨prev, ?_⟩
  rw [List.take_add_one, hv, ← hp, List.take_add, Option.toList_some, RxFsm.run_append, RxFsm.run_append, hrun, hwait,
    RxFsm.run_singleton, List.append_nil]

/-! ### The samples of a frame (R163) -/

/-- At the start edge the first sample is that of data bit 0 (R157). -/
theorem RxFsm.awaits_edge {u : Setup} {f : RxFsm} {levels : List Bool} (hs : f.state = .waitStart)
    (hprev : f.prev = true) (hedge : levels[0]? = some false) :
    f.Awaits u levels 1 { f with state := .data, bit := 0, cnt := u.rxFirstLoad, prev := false } [] := by
  refine ⟨1, ?_, ?_⟩
  · rw [List.take_add_one, hedge, List.take_zero, List.nil_append, Option.toList_some, RxFsm.run_singleton,
      RxFsm.step_edge hs hprev]
    rfl
  · have := u.bitTime_pos
    rw [u.rxFirstLoad_toNat, Setup.midBit, Nat.one_mul]
    omega

/-- The receiver has taken the bits of `b` below bit `i` and is at bit `i`. -/
structure RxFsm.AtDataBit (b : Byte) (i : Nat) (f : RxFsm) : Prop where
  state : f.state = .data
  bit : f.bit.val = i
  taken : ∀ j < i, f.shift.getLsbD j = b.getLsbD j

/-- Counting down to the sample leaves the receiver at its bit. -/
theorem RxFsm.AtDataBit.due {b : Byte} {i : Nat} {f : RxFsm} (h : f.AtDataBit b i) (prev : Bool) :
    ({ f with cnt := 0#17, prev := prev } : RxFsm).AtDataBit b i := ⟨h.state, h.bit, h.taken⟩

theorem RxFsm.AtDataBit.taken_setBit {b : Byte} {i : Nat} {f : RxFsm} (h : f.AtDataBit b i) :
    ∀ j < i + 1, (setBit f.shift f.bit (b.getLsbD i)).getLsbD j = b.getLsbD j := by
  intro j hj
  have hi := h.bit
  have := f.bit.isLt
  rw [getLsbD_setBit f.shift f.bit ⟨j, by omega⟩]
  split
  case isTrue heq => rw [← hi, ← heq]
  case isFalse hne =>
    rw [Fin.ext_iff] at hne
    exact h.taken j (by dsimp only at hne; omega)

/-- The eighth data sample completes the byte. -/
theorem RxFsm.AtDataBit.setBit_eq {b : Byte} {f : RxFsm} (h : f.AtDataBit b 7) :
    setBit f.shift f.bit (b.getLsbD 7) = b :=
  BitVec.eq_of_getLsbD_eq fun j hj => h.taken_setBit j hj

section Samples

variable {u : Setup} {f : RxFsm} {levels : List Bool} {b : Byte}

/-- With the data bits in the middles of their bits, the receiver comes to each data bit with those before it taken. -/
theorem RxFsm.awaits_dataBit (hs : f.state = .waitStart) (hprev : f.prev = true) (hedge : levels[0]? = some false)
    (hdata : ∀ i < 8, levels[u.midBit (i + 1)]? = some (b.getLsbD i)) {i : Nat} (hi : i < 8) :
    ∃ g, f.Awaits u levels (i + 1) g [] ∧ g.AtDataBit b i := by
  induction i with
  | zero => exact ⟨_, RxFsm.awaits_edge hs hprev hedge, rfl, rfl, fun j hj => absurd hj (Nat.not_lt_zero j)⟩
  | succ i ih =>
    obtain ⟨g, hawaits, hat⟩ := ih (by omega)
    obtain ⟨prev, hrun⟩ := hawaits.sample (by simp [hat.state]) (hdata i (by omega))
    have hlt : g.bit.val < 7 := by
      rw [hat.bit]
      omega
    rw [RxFsm.step_data_of_lt (hat.due prev).state rfl hlt] at hrun
    exact ⟨_, RxFsm.awaits_succ hrun rfl, hat.state, congrArg (· + 1) hat.bit, hat.taken_setBit⟩

/-- After the data and parity samples the receiver holds the byte and awaits its stop bit; it has pushed the byte
unless the parity bit was wrong (R159, R160). -/
theorem RxFsm.awaits_stopBit (hs : f.state = .waitStart) (hprev : f.prev = true) (hedge : levels[0]? = some false)
    (hdata : ∀ i < 8, levels[u.midBit (i + 1)]? = some (b.getLsbD i)) {v : Bool}
    (hparity : u.parity ≠ .noParity → levels[u.midBit 9]? = some v) :
    ∃ g, f.Awaits u levels (9 + (parityBits u b).length) g
        (if u.parity = .noParity ∨ v = parityBit b u.parity then [b] else []) ∧
      g.state = .waitStop ∧ g.shift = b := by
  obtain ⟨g, hawaits, hat⟩ := RxFsm.awaits_dataBit hs hprev hedge hdata (by decide : 7 < 8)
  obtain ⟨prev, hrun⟩ := hawaits.sample (by simp [hat.state]) (hdata 7 (by decide))
  have hdue := hat.due prev
  by_cases hp : u.parity = .noParity
  · rw [RxFsm.step_data_of_noParity hdue.state rfl hdue.bit hp, hdue.setBit_eq] at hrun
    rw [parityBits_of_noParity hp, if_pos (.inl hp)]
    exact ⟨_, RxFsm.awaits_succ hrun rfl, rfl, rfl⟩
  · rw [RxFsm.step_data_of_parity hdue.state rfl hdue.bit hp, hdue.setBit_eq] at hrun
    obtain ⟨prev, hrun⟩ := (RxFsm.awaits_succ hrun rfl).sample (by simp) (hparity hp)
    rw [RxFsm.step_parity rfl rfl, apply_ite Option.toList] at hrun
    rw [parityBits_of_parity hp]
    exact ⟨_, RxFsm.awaits_succ hrun rfl, rfl, rfl⟩

end Samples

theorem receptionLength_eq (u : Setup) (b : Byte) :
    receptionLength u b = u.midBit (9 + (parityBits u b).length) + 1 := rfl

/-- Settles O42: the stop sample is the last level. -/
theorem frameReceivedAtMidBit : Obligations.FrameReceivedAtMidBit := by
  intro u f levels b hs hprev hlen hedge hdata
  rw [receptionLength_eq] at hlen
  have hmid : ∀ i < 8, levels[u.midBit (i + 1)]? = some (b.getLsbD i) := by
    intro i hi
    rw [u.midBit_dataBit, hdata i hi]
  have hlevel : ∀ k ≤ 9 + (parityBits u b).length, ∃ v, levels[u.midBit k]? = some v := by
    intro k hk
    have hle := u.midBit_mono hk
    exact ⟨_, List.getElem?_eq_getElem (by omega)⟩
  obtain ⟨v, hv⟩ := hlevel 9 (by omega)
  obtain ⟨w, hw⟩ := hlevel _ le_rfl
  obtain ⟨g, hawaits, hstate, hshift⟩ := RxFsm.awaits_stopBit hs hprev hedge hmid fun _ => hv
  obtain ⟨prev, hrun⟩ := hawaits.sample (by simp [hstate]) hw
  have hdue : ({ g with cnt := 0#17, prev := prev } : RxFsm).state = .waitStop := hstate
  rw [RxFsm.step_stop hdue rfl, List.take_of_length_le hlen.le] at hrun
  rw [hrun, show levels[9 * u.bitTime + u.halfBit]? = some v from hv]
  exact ⟨rfl, hshift, by simp⟩

/-! ### The line the transmitter drives for one byte (R148) -/

/-- With nothing staged a step stages nothing. -/
theorem TxFsm.step_stage_nil (u : Setup) (f : TxFsm) : (f.step u []).2 = [] := by
  by_cases hidle : f.state = .idle
  · rw [TxFsm.step_idle_empty hidle]
  by_cases hc : f.cnt = 0#16
  · cases hs : f.state with
    | idle => exact absurd hs hidle
    | start => rw [TxFsm.step_start_end hs hc]
    | data => rw [TxFsm.step_data_end hs hc]
    | parity => rw [TxFsm.step_parity_end hs hc]
    | stop =>
      rw [TxFsm.step_stop_end hs hc, TxFsm.endStop]
      split <;> rfl
  · rw [TxFsm.step_countDown hidle hc]

/-- The line is at 1 from the first stop bit on, after the frame too. -/
theorem frameLevel_of_stop {u : Setup} {b : Byte} {k : Nat} (hk : (9 + (parityBits u b).length) * u.bitTime ≤ k) :
    frameLevel u b k = true := by
  obtain ⟨i, hi⟩ := Nat.exists_eq_add_of_le ((Nat.le_div_iff_mul_le u.bitTime_pos).2 hk)
  rw [frameLevel, hi, frameBits_stop]

theorem frameLevel_midBit (u : Setup) (b : Byte) (k : Nat) :
    frameLevel u b (u.midBit k) = (frameBits u b).getD k true := by rw [frameLevel, u.midBit_div]

/-- The transmitter is `k` enabled steps past the first of the frame of `b`, or has sent it and idles. -/
def TxFsm.SendsOnly (u : Setup) (b : Byte) (k : Nat) (f : TxFsm) : Prop :=
  f.AtFrame u b k ∨ (frameLength u b ≤ k ∧ f.state = .idle ∧ f.line = true)

theorem TxFsm.SendsOnly.line_eq {u : Setup} {b : Byte} {k : Nat} {f : TxFsm} (h : f.SendsOnly u b k) :
    f.line = frameLevel u b k := by
  obtain hat | ⟨hk, -, hline⟩ := h
  · exact hat.level
  · have hle : 9 + (parityBits u b).length ≤ (frameBits u b).length := by
      rw [frameBits_length]
      omega
    rw [hline, frameLevel_of_stop ((Nat.mul_le_mul_right _ hle).trans hk)]

/-- With nothing staged the transmitter goes on in its frame, and idles after it. -/
theorem TxFsm.SendsOnly.step {u : Setup} {b : Byte} {k : Nat} {f : TxFsm} (h : f.SendsOnly u b k) :
    (f.step u []).1.SendsOnly u b (k + 1) := by
  obtain hat | ⟨hk, hs, hline⟩ := h
  · by_cases hlast : k + 1 = frameLength u b
    · rw [hat.step_last_empty hlast]
      exact .inr ⟨hlast.ge, rfl, rfl⟩
    · have hwithin := hat.within
      exact .inl (hat.step_next (by omega) [])
  · rw [TxFsm.step_idle_empty hs]
    exact .inr ⟨by omega, hs, hline⟩

theorem TxFsm.lines_length (u : Setup) (n : Nat) (f : TxFsm) (stage : List Byte) :
    (f.lines u n stage).length = n := by
  induction n generalizing f stage with
  | zero => rfl
  | succ n ih => rw [TxFsm.lines, List.length_cons, ih]

theorem TxFsm.SendsOnly.lines {u : Setup} {b : Byte} {k n : Nat} {f : TxFsm} (h : f.SendsOnly u b k) {j : Nat}
    (hj : j < n) : (f.lines u n [])[j]? = some (frameLevel u b (k + 1 + j)) := by
  induction n generalizing f k j with
  | zero => exact absurd hj (Nat.not_lt_zero j)
  | succ n ih =>
    rw [TxFsm.lines, TxFsm.step_stage_nil]
    cases j with
    | zero => rw [List.getElem?_cons_zero, h.step.line_eq, Nat.add_zero]
    | succ j => rw [List.getElem?_cons_succ, ih h.step (by omega), Nat.add_right_comm (k + 1) 1 j, Nat.add_assoc]

/-- An idle transmitter that gets one byte drives its frame from the next step on (R142, R148). -/
theorem TxFsm.lines_getElem? {u : Setup} {f : TxFsm} (hs : f.state = .idle) (b : Byte) {n j : Nat} (hj : j < n) :
    (f.lines u n [b])[j]? = some (frameLevel u b j) := by
  have hload : (f.load u b).SendsOnly u b 0 := .inl (TxFsm.load_atFrame u f b)
  obtain _ | n := n
  · exact absurd hj (Nat.not_lt_zero j)
  rw [TxFsm.lines, TxFsm.step_idle_pop hs]
  cases j with
  | zero => rw [List.getElem?_cons_zero, hload.line_eq]
  | succ j => rw [List.getElem?_cons_succ, hload.lines (by omega), Nat.zero_add, Nat.add_comm 1 j]

/-! ### A frame from the transmitter to the receiver (R168) -/

/-- On an idle line the receiver waits and pushes nothing. -/
theorem RxFsm.run_idleLine (u : Setup) (l : List Bool) {f : RxFsm} (hs : f.state = .waitStart)
    (hl : ∀ v ∈ l, v = true) : (f.run u l).1.state = .waitStart ∧ (f.run u l).2 = [] := by
  induction l generalizing f with
  | nil => exact ⟨hs, rfl⟩
  | cons v l ih =>
    obtain rfl : v = true := hl v List.mem_cons_self
    rw [RxFsm.run, RxFsm.step_noEdge hs (by simp)]
    exact ih (f := { f with prev := true }) hs fun w hw => hl w (List.mem_cons_of_mem _ hw)

/-- The frame of a byte, in levels of the length of a reception, is received as the byte. -/
theorem RxFsm.run_frame {u : Setup} {f : RxFsm} {levels : List Bool} {b : Byte} (hs : f.state = .waitStart)
    (hprev : f.prev = true) (hlen : levels.length = receptionLength u b)
    (hlevels : ∀ j < receptionLength u b, levels[j]? = some (frameLevel u b j)) :
    (f.run u levels).1.state = .waitStart ∧ (f.run u levels).2 = [b] := by
  have hmid : ∀ k ≤ 9 + (parityBits u b).length, levels[u.midBit k]? = some ((frameBits u b).getD k true) := by
    intro k hk
    rw [hlevels, frameLevel_midBit]
    exact Nat.lt_succ_of_le (u.midBit_mono hk)
  have hedge : levels[0]? = some false := by
    rw [hlevels 0 (Nat.succ_pos _), frameLevel, Nat.zero_div, frameBits_start]
  have hdata : ∀ i < 8, levels[u.bitTime + u.halfBit + i * u.bitTime]? = some (b.getLsbD i) := by
    intro i hi
    rw [← u.midBit_dataBit, hmid _ (by omega), Nat.add_comm i 1, frameBits_data u b hi]
  obtain ⟨hstate, -, hpushed⟩ := frameReceivedAtMidBit u f levels b hs hprev hlen hedge hdata
  refine ⟨hstate, hpushed.trans (if_pos ?_)⟩
  by_cases hp : u.parity = .noParity
  · exact .inl hp
  · exact .inr ((hmid 9 (by omega)).trans (congrArg some (frameBits_parity hp b)))

/-- Settles O43: the reception ends in the first stop bit, and the line is idle from there on. -/
theorem frameRoundTrip : Obligations.FrameRoundTrip := by
  intro u f g b n hf hg hprev hn
  have hline : ∀ j < n, (f.lines u n [b])[j]? = some (frameLevel u b j) := fun j hj => TxFsm.lines_getElem? hf b hj
  generalize hlevels : f.lines u n [b] = levels at hline
  have hlen : levels.length = n := by rw [← hlevels, TxFsm.lines_length]
  obtain ⟨hstate, hpushed⟩ := RxFsm.run_frame (u := u) (b := b)
    (levels := levels.take (receptionLength u b)) hg hprev (by rw [List.length_take]; omega)
    fun j hj => by rw [List.getElem?_take_of_lt hj, hline j (by omega)]
  have hidle : ∀ v ∈ levels.drop (receptionLength u b), v = true := by
    intro v hv
    obtain ⟨i, hi⟩ := List.mem_iff_getElem?.1 hv
    rw [List.getElem?_drop] at hi
    have hlt := (List.getElem?_eq_some_iff.1 hi).1
    rw [hline _ (by omega), frameLevel_of_stop] at hi
    · exact (Option.some.inj hi).symm
    · rw [receptionLength]
      omega
  obtain ⟨hstate', hpushed'⟩ := RxFsm.run_idleLine u _ hstate hidle
  rw [← List.take_append_drop (receptionLength u b) levels, RxFsm.run_append, hpushed, hpushed']
  exact ⟨rfl, hstate'⟩

end Sys2Proof.Machine
end

