-- ==== Sys2Proof/Proofs/Exceptions.lean ====
section
/-! PROOF. Exceptions (spec/60_exceptions.md): which accesses are rejected, that no condition stops the block, and what
the clock gate stops. -/

namespace Sys2Proof

/-! ### The requests that are rejected before their data is looked at (R87, R91) -/

/-- The key of a request is valid if the access is of word width, aligned and at a register (R90). -/
theorem BusRequest.key_mem_validKeys_iff (r : BusRequest) : r.key ∈ validKeys ↔
    r.size = 4 ∧ r.offset.toNat % 4 = 0 ∧ r.offset.toNat ∈ [0x00, 0x04, 0x08, 0x10, 0x14, 0x18, 0x20, 0x24] := by
  obtain ⟨-, hsize, hoffset⟩ := r.key_fields
  rw [← not_iff_not, ← not_validKeys, hsize, Ne, sizeCode_eq_word_iff, Ne, offset_low_iff, hoffset,
    Reg.ofOffset_eq_none_iff]
  simp only [not_and_or]

/-- A request with a valid key stands for the read or the write, as its direction says, of the register at its offset
(R87, R90). -/
theorem decodeRequest_of_valid {r : BusRequest} (h : r.key ∈ validKeys) : ∃ reg : Reg, reg.offset = r.offset ∧
    ((r.dir = .read ∧ decodeRequest r = reg.readAccess) ∨
      ∃ w, r.dir = .write w ∧ decodeRequest r = reg.writeAccess w) := by
  obtain ⟨hnot, -⟩ | ⟨-, reg, hreg, -, e⟩ := decodeKey_cases r.key r.dir.wdata
  · exact absurd h hnot
  refine ⟨reg, (Reg.ofOffset_eq_some _ _ hreg).trans r.key_fields.2.2, ?_⟩
  rw [decodeRequest, e]
  obtain ⟨off, size, dir⟩ := r
  cases dir with
  | read => exact .inl ⟨rfl, by rw [keyWrite_key_read, if_neg Bool.false_ne_true]⟩
  | write w => exact .inr ⟨w, rfl, by rw [keyWrite_key_write, if_pos rfl, Direction.wdata]⟩

end Sys2Proof

namespace Sys2Proof.Machine

open Sys2Proof

/-! ### No condition stops the block (R173) -/

/-- Settles O7: a reset step and the phases of any other step leave a state, and every access in it completes. -/
theorem noConditionStops : Obligations.NoConditionStops := step_completes

/-! ### The writes that are rejected for their data (R92) -/

/-- The data of a write holds a code that its register reserves (R92): DATASIZE = 3 in a CFG write, PARITY = 3 in a
SETUP write. -/
def ReservedCode (w : Word) : Reg → Prop
  | .rxCfg | .txCfg => dataSizeField w = 3#2
  | .setup => parityField w = 3#2
  | _ => False

/-- R170 names the registers that reserve a code by their offsets. -/
theorem reservedCode_iff (w : Word) (reg : Reg) : ReservedCode w reg ↔
    (reg.offset.toNat ∈ [0x08, 0x18] ∧ w.toNat / 2 % 4 = 3) ∨ (reg.offset.toNat = 0x24 ∧ w.toNat % 4 = 3) := by
  cases reg <;> simp [ReservedCode, Reg.offset, dataSizeField_eq_three_iff, parityField_eq_three_iff]

/-- A CFG write is rejected as a whole for the reserved DATASIZE code, and accepted otherwise (R105, R111). -/
theorem exec_wrCfg_cases (s : State) (c : ChannelId) (w : Word) :
    (dataSizeField w = 3#2 ∧ exec (wrCfg w c) s = .next (s.respond .invalid)) ∨
      (dataSizeField w ≠ 3#2 ∧ ∃ t : State, exec (wrCfg w c) s = .next (t.respond .okWrite)) := by
  have hnamed {ds : UnitSize} (hds : UnitSize.ofCode (dataSizeField w) = some ds) : dataSizeField w ≠ 3#2 :=
    mt (dataSizeField_eq_three_iff w).1 (dataSizeField_of_ofCode hds).1
  rw [exec_wrCfg]
  obtain ⟨hreserved, e⟩ | ⟨ds, hds, -, e⟩ | ⟨ds, hds, -, e⟩ := (s.chan c).writeCfg_cases w
  · exact .inl ⟨hreserved, congrArg _ (State.writeCfg_of_rejected e)⟩
  · exact .inr ⟨hnamed hds, _, congrArg _ (State.writeCfg_of_stored e)⟩
  · exact .inr ⟨hnamed hds, _, congrArg _ (State.writeCfg_of_stored e)⟩

/-- A SETUP write is rejected as a whole for the reserved PARITY code, and accepted otherwise (R115). -/
theorem exec_wrSetup_cases (s : State) (w : Word) :
    (parityField w = 3#2 ∧ exec (.wrSetup w) s = .next (s.respond .invalid)) ∨
      (parityField w ≠ 3#2 ∧ ∃ t : State, exec (.wrSetup w) s = .next (t.respond .okWrite)) := by
  rw [Ne, ← ParityMode.ofCode_eq_none_iff]
  cases hmode : ParityMode.ofCode (parityField w) with
  | none => exact .inl ⟨rfl, exec_wrSetup_of_rejected hmode s⟩
  | some mode => exact .inr ⟨Option.some_ne_none mode, _, exec_wrSetup_of_stored hmode s⟩

/-- Everything the write of a register can be answered with: INVALID, with nothing else changed, exactly for a reserved
code, and otherwise OK (R92, R170). -/
theorem exec_writeAccess_cases (w : Word) (reg : Reg) (s : State) :
    (ReservedCode w reg ∧ exec (reg.writeAccess w) s = .next (s.respond .invalid)) ∨
      (¬ReservedCode w reg ∧ ∃ t : State, exec (reg.writeAccess w) s = .next (t.respond .okWrite)) := by
  cases reg with
  | rxCfg => exact exec_wrCfg_cases s .rx w
  | txCfg => exact exec_wrCfg_cases s .tx w
  | setup => exact exec_wrSetup_cases s w
  | rxSaddr | rxSize | txSaddr | txSize | status => exact .inr ⟨id, _, rfl⟩

/-- Settles O4: a request without a valid key is the invalid access; one with a valid key is a read, which is answered
with data, or a write, which only a reserved code rejects. -/
theorem invalidAccessOutcome : Obligations.InvalidAccessOutcome := by
  intro r s bad
  by_cases hkey : r.key ∈ validKeys
  · obtain ⟨hsize, halign, hregister⟩ := r.key_mem_validKeys_iff.1 hkey
    obtain ⟨reg, hoffset, hdecode⟩ := decodeRequest_of_valid hkey
    have hbad : bad ↔ ∃ w, r.dir = .write w ∧ ReservedCode w reg := by
      simp only [bad, hsize, halign, hregister, reservedCode_iff, hoffset, ne_eq, not_true_eq_false, false_or]
    rw [hbad]
    obtain ⟨hread, e⟩ | ⟨w, hwrite, e⟩ := hdecode <;> rw [e]
    · exact ⟨by simp [hread], fun _ => ⟨_, _, exec_readAccess reg s, rfl, by simp⟩⟩
    · obtain ⟨hreserved, he⟩ | ⟨hallowed, t, he⟩ := exec_writeAccess_cases w reg s
      · exact ⟨fun _ => he, fun hnot => absurd ⟨w, hwrite, hreserved⟩ hnot⟩
      · exact ⟨by simp [hwrite, hallowed], fun _ => ⟨_, _, he, rfl, by simp⟩⟩
  · have hnot := mt r.key_mem_validKeys_iff.2 hkey
    rw [not_and_or, not_and_or] at hnot
    have hbad : bad := hnot.imp_right (Or.imp_right .inl)
    exact ⟨fun _ => congrArg (exec · s) (decodeRequest_of_not_valid hkey), absurd hbad⟩

/-! ### The clock gate (R184) -/

/-- PUSH changes the stage of its channel alone (R131). -/
theorem Channel.pushed_stage_only (c : Channel) (b : Option Byte) :
    ∃ stage, c.pushed b = { c with stage := stage } := by
  cases b with
  | none => exact ⟨_, rfl⟩
  | some b => obtain ⟨-, -, e⟩ | ⟨-, e⟩ := c.push_cases b <;> exact ⟨_, e⟩

/-- Phase 5 changes the stages of the channels alone (R131, R132). -/
theorem State.protocol_stage_only (s : State) (cg v : Bool) (c : ChannelId) :
    ∃ stage, (s.protocol cg v).chan c = { s.chan c with stage := stage } := by
  cases cg with
  | false => exact ⟨_, rfl⟩
  | true =>
    cases c with
    | rx => exact s.rx.pushed_stage_only _
    | tx => exact ⟨_, rfl⟩

/-- Phases 5 and 6 change the stage and the outstanding request of a channel alone, whether the FSMs step or not. -/
theorem State.afterAccess_stage_out_only (s : State) (i : StepInput) (c : ChannelId) :
    ∃ stage out, (s.afterAccess i).chan c = { s.chan c with stage := stage, out := out } := by
  obtain ⟨stage, hprotocol⟩ := s.protocol_stage_only i.cg i.rxIn c
  obtain ⟨-, e, -⟩ | ⟨r, -, e, -⟩ := s.afterAccess_issues i c <;> rw [e, hprotocol]
  · exact ⟨_, _, rfl⟩
  · exact ⟨_, _, rfl⟩

/-- No phase before the FSMs reaches the receiver (R119). -/
theorem State.accessed_rxFsm (s : State) : s.accessed.rxFsm = s.rxFsm :=
  s.accessed_frame.rxFsm.trans s.beforeAccess_rxFsm

/-- No phase up to the register access looks at the clock gate (R184). -/
theorem State.accessed_cg (s : State) (i : StepInput) (later : List StepInput) (cg : Bool) :
    ({ s with inputs := { i with cg := cg } :: later } : State).accessed =
      ({ s with inputs := i :: later } : State).accessed := rfl

/-- Whatever the gate, a step that is no reset step goes on from the same state (R60, R184). -/
theorem step_cg (s : State) {i : StepInput} (later : List StepInput) (hrst : i.rst = false) (cg : Bool) :
    step { s with inputs := { i with cg := cg } :: later } =
      .next (({ s with inputs := i :: later } : State).accessed.afterAccess { i with cg := cg }) := by
  rw [← s.accessed_cg i later cg]
  exact step_accessed hrst

/-- Settles O46: the gate decides only whether phase 5 steps the FSMs, and of a channel phases 5 and 6 change only the
stage and the request. -/
theorem gateStopsOnlyTheFsms : Obligations.GateStopsOnlyTheFsms := by
  intro s i later hrst m t t'
  obtain ⟨htx, hrx, hsetup, hmem, hresp, -⟩ := m.afterAccess_fsms { i with cg := false }
  obtain ⟨-, -, hsetup', hmem', hresp', -⟩ := m.afterAccess_fsms { i with cg := true }
  refine ⟨step_cg s later hrst false, step_cg s later hrst true, htx.trans (State.accessed_txFsm _),
    hrx.trans (State.accessed_rxFsm _), hresp.trans hresp'.symm, hsetup.trans hsetup'.symm, hmem.trans hmem'.symm,
    fun c => ?_⟩
  obtain ⟨stage, out, e⟩ : ∃ stage out, t.chan c = { m.chan c with stage := stage, out := out } :=
    m.afterAccess_stage_out_only { i with cg := false } c
  obtain ⟨stage', out', e'⟩ : ∃ stage out, t'.chan c = { m.chan c with stage := stage, out := out } :=
    m.afterAccess_stage_out_only { i with cg := true } c
  rw [e, e']
  exact ⟨rfl, rfl, rfl, rfl, rfl, rfl, rfl, rfl, rfl⟩

end Sys2Proof.Machine
end

