-- ==== Sys2Proof/Proofs/Reset.lean ====
section
/-! PROOF. Reset (spec/70_reset_and_hazards.md section 1): what a reset step leaves of the block, and that a second one
in a row finds nothing left to reset. -/

namespace Sys2Proof.Machine

open Sys2Proof

/-! ### A reset step (R48, R190) -/

theorem step_of_reset {s : State} (hrst : s.nextInput.rst = true) : step s = .next s.resetStep := by
  simp [step, hrst]

/-- A reset step keeps of a channel only its outstanding request, and that only while its response has not come
(R48, R190). -/
theorem State.resetStep_chan (s : State) (c : ChannelId) :
    s.resetStep.chan c = (s.chan c).afterReset (s.responseArrives c) := by
  have hsame := (s.begin.memEvents_sameBlock s.nextInput.mem).chan c
  have hbegin : s.resetStep.chan c = (s.environment.1.chan c).afterReset (s.responseArrives c) := by
    cases c <;> rfl
  rw [hbegin, State.environment, hsame, State.begin_chan]
  rfl

theorem State.resetStep_busResp (s : State) : s.resetStep.busResp = s.nextInput.req.map fun _ => .invalid := rfl

theorem Channel.afterReset_out_of_answered {c : Channel} {arrived : Bool} (h : c.ready ≠ none ∨ arrived = true) :
    (c.afterReset arrived).out = none := by
  have hcond : (c.ready.isSome || arrived) = true := by
    rwa [Bool.or_eq_true, Option.isSome_iff_ne_none]
  exact if_pos hcond

/-- The response to a request still outstanding will be dropped (R190, R191). -/
theorem Channel.afterReset_out_of_waiting {c : Channel} (hready : c.ready = none) :
    (c.afterReset false).out = c.out.map fun o => { o with discard := true } := by
  simp [Channel.afterReset, hready]

/-- Settles O47: the state of a reset step is written out but for the outstanding request, whose two cases are those of
the response. -/
theorem resetStepState : Obligations.ResetStepState := by
  intro s hrst
  refine ⟨s.resetStep, step_of_reset hrst, fun c => ?channel, rfl, rfl, rfl, s.resetStep_issued, rfl,
    fun hreq => ?access, fun hreq => ?noAccess⟩
  case channel =>
    rw [s.resetStep_chan]
    refine ⟨rfl, rfl, rfl, rfl, rfl, rfl, rfl, rfl, rfl, rfl, Channel.afterReset_out_of_answered, fun hready harr => ?_⟩
    rw [harr, Channel.afterReset_out_of_waiting hready]
  case access =>
    obtain ⟨r, hr⟩ := Option.ne_none_iff_exists'.1 hreq
    rw [s.resetStep_busResp, hr, Option.map_some]
  case noAccess => rw [s.resetStep_busResp, hreq, Option.map_none]

/-! ### Two reset steps in a row (R192) -/

theorem State.environment_of_silent {s : State} (h : s.nextInput.mem = []) :
    s.environment = (s.begin, Arrivals.empty) := by
  rw [State.environment, h]
  rfl

/-- A channel that was reset is as a silent reset step leaves it: its request is marked already (R191). -/
theorem Channel.afterReset_afterReset (c : Channel) (arrived : Bool) :
    (c.afterReset arrived).afterReset false = c.afterReset arrived := by
  have hout : ((c.afterReset arrived).out.map fun o => { o with discard := true }) = (c.afterReset arrived).out := by
    unfold Channel.afterReset
    cases c.ready.isSome || arrived <;> cases c.out <;> rfl
  calc (c.afterReset arrived).afterReset false
    _ = { Channel.reset with out := (c.afterReset arrived).out.map fun o => { o with discard := true } } := rfl
    _ = c.afterReset arrived := by rw [hout]; rfl

theorem State.resetStep_inputs (s : State) : s.resetStep.inputs = s.inputs.tail :=
  (s.begin.memEvents_sameBlock s.nextInput.mem).inputs

/-- A reset step with the port and the bus silent does to the block what R48 says and to the environment nothing. -/
theorem State.resetStep_of_silent {s : State} (hmem : s.nextInput.mem = []) (hreq : s.nextInput.req = none) :
    s.resetStep =
      { s with
        rx := s.rx.afterReset false
        tx := s.tx.afterReset false
        setup := Setup.reset
        txFsm := TxFsm.reset
        rxFsm := RxFsm.reset
        busResp := none
        issued := []
        inputs := s.inputs.tail
        clock := s.clock + 1 } := by
  rw [State.resetStep, State.environment_of_silent hmem, hreq]
  rfl

/-- Settles O49: the second reset step finds every element at its reset value, and a request out marked already. -/
theorem resetTwiceLeavesTheSame : Obligations.ResetTwiceLeavesTheSame := by
  intro s t i j later hinputs hirst hjrst hjmem hjreq hrun
  have hfirst : step s = .next s.resetStep := by
    refine step_of_reset ?_
    rw [State.nextInput_of_inputs hinputs, hirst]
  obtain rfl : s.resetStep = t := Host.Outcome.next.inj ((runSteps_succ hfirst 0).symm.trans hrun)
  have hrest : s.resetStep.inputs = j :: later := by rw [State.resetStep_inputs, hinputs]; rfl
  have hj : s.resetStep.nextInput = j := State.nextInput_of_inputs hrest
  have hrx : s.resetStep.rx.afterReset false = s.resetStep.rx := Channel.afterReset_afterReset _ _
  have htx : s.resetStep.tx.afterReset false = s.resetStep.tx := Channel.afterReset_afterReset _ _
  rw [runSteps_succ hfirst 1, runSteps_succ (step_of_reset (by rw [hj, hjrst])) 0, runSteps,
    State.resetStep_of_silent (by rw [hj, hjmem]) (by rw [hj, hjreq]), hrx, htx, hrest, ← s.resetStep_issued]
  rfl

end Sys2Proof.Machine
end

