-- ==== Sys2Proof/Proofs/Quiescence.lean ====
section
/-! PROOF. Quiescence (spec/70_reset_and_hazards.md section 5): a channel without a request out is at rest through the
first phases whatever arrives, and the phases of a quiescent block's step find nothing to do. -/

namespace Sys2Proof.Machine

open Sys2Proof

/-! ### Channels at rest before the register access -/

theorem State.accessed_of_no_access {s : State} (h : s.nextInput.req = none) : s.accessed = s.beforeAccess := by
  rw [State.accessed, h]

/-- No response is captured where no request is out (R32). -/
theorem State.Inv.ready_of_free {s : State} (h : s.Inv) {c : ChannelId} (hout : (s.chan c).out = none) :
    (s.chan c).ready = none :=
  not_not.1 fun hready => (h.allFit.fit c).ok.ready_out hready hout

/-- The port holds nothing for a channel without a request out (R24). -/
theorem State.Inv.port_of_free {s : State} (h : s.Inv) {c : ChannelId} (hout : (s.chan c).out = none) :
    s.port c = none := by
  have hholds := (h.allFit.portOk c).holds
  rwa [hout, Option.isSome_none, Bool.false_and, Option.isSome_eq_false_iff, Option.isNone_iff_eq_none] at hholds

/-- Whatever arrives, the first phases only clear the event of a channel without a request out. -/
theorem State.Inv.beforeAccess_chan_of_free {s : State} (h : s.Inv) {c : ChannelId} (hout : (s.chan c).out = none) :
    s.beforeAccess.chan c = (s.chan c).clearEvent := by
  rw [State.beforeAccess_chan_of_not_ready (h.ready_of_free hout)]
  obtain ⟨-, e⟩ | ⟨bytes, o, -, ho, -⟩ := Channel.capture_cases c (s.chan c).clearEvent (s.environment.2.get c)
  · exact e
  · exact absurd (hout.symm.trans ho) (by simp)

/-! ### The quiescent block (R205) -/

theorem Channel.nextRequest_of_idle {c : Channel} (h : c.cur = none) (id : ChannelId) : c.nextRequest id = none := by
  simp [Channel.nextRequest, h]

/-- With nothing to send, phase 5 leaves the transmitter and its stage. -/
theorem State.protocol_tx_of_idle {s : State} (hs : s.txFsm.state = .idle) (hstage : s.tx.stage = []) (cg v : Bool) :
    (s.protocol cg v).txFsm = s.txFsm ∧ (s.protocol cg v).tx = s.tx := by
  cases cg with
  | false => exact ⟨rfl, rfl⟩
  | true =>
    have hidle := TxFsm.step_idle_empty (u := s.setup) hs
    simp only [State.protocol_enabled, State.rxStep_txFsm, State.rxStep_tx, State.txStep_txFsm, State.txStep_tx, hstage,
      hidle, true_and]
    rw [← hstage]

/-- On an idle line, phase 5 leaves the waiting receiver and its stage, but for `rx_prev`. -/
theorem State.protocol_rx_of_idle {s : State} (hs : s.rxFsm.state = .waitStart) (cg : Bool) :
    (s.protocol cg true).rxFsm = { s.rxFsm with prev := s.rxFsm.prev || cg } ∧ (s.protocol cg true).rx = s.rx := by
  cases cg with
  | false => exact ⟨by simp [State.protocol_gated], rfl⟩
  | true =>
    have hwait := RxFsm.step_noEdge (u := s.setup) (v := true) hs (by simp)
    simp [State.protocol_enabled, hwait, Channel.pushed]

/-- Phase 6 does nothing when neither channel has a request to issue. -/
theorem State.afterAccess_of_no_request {s : State} {i : StepInput}
    (h : ∀ c, ((s.protocol i.cg i.rxIn).chan c).nextRequest c = none) :
    s.afterAccess i = s.protocol i.cg i.rxIn := by
  rw [State.afterAccess, State.issue_of_none (h .rx), State.issue_of_none (h .tx)]

theorem State.protocol_setup (s : State) (cg v : Bool) : (s.protocol cg v).setup = s.setup := by
  cases cg <;> rfl

/-- Settles O52: no phase finds anything to do, and the invariant says that the port is empty and the line at 1. -/
theorem quiescentBlockStays : Obligations.QuiescentBlockStays := by
  intro s hinv hq hrst hreq hline
  have hbrx : s.beforeAccess.rx = s.rx.clearEvent := hinv.beforeAccess_chan_of_free (c := .rx) hq.rx_out
  have hbtx : s.beforeAccess.tx = s.tx.clearEvent := hinv.beforeAccess_chan_of_free (c := .tx) hq.tx_out
  obtain ⟨htxFsm, htx⟩ := State.protocol_tx_of_idle (s := s.beforeAccess) (s.beforeAccess_txFsm ▸ hq.tx_state)
    (hbtx ▸ hq.tx_stage) s.nextInput.cg s.nextInput.rxIn
  obtain ⟨hrxFsm, hrx⟩ := State.protocol_rx_of_idle (s := s.beforeAccess) (s.beforeAccess_rxFsm ▸ hq.rx_state)
    s.nextInput.cg
  rw [← hline] at hrxFsm hrx
  rw [s.beforeAccess_txFsm] at htxFsm
  rw [s.beforeAccess_rxFsm] at hrxFsm
  rw [hbrx] at hrx
  rw [hbtx] at htx
  have hstep : step s = .next (s.beforeAccess.protocol s.nextInput.cg s.nextInput.rxIn) := by
    rw [step_accessed hrst, State.accessed_of_no_access hreq, State.afterAccess_of_no_request]
    rintro (_ | _)
    · exact Channel.nextRequest_of_idle ((congrArg Channel.cur hrx).trans hq.rx_idle) .rx
    · exact Channel.nextRequest_of_idle ((congrArg Channel.cur htx).trans hq.tx_idle) .tx
  have hsetup := (s.beforeAccess.protocol_setup s.nextInput.cg s.nextInput.rxIn).trans s.beforeAccess_setup
  have hissued := (s.beforeAccess.protocol_issued s.nextInput.cg s.nextInput.rxIn).trans s.beforeAccess_issued
  generalize s.beforeAccess.protocol s.nextInput.cg s.nextInput.rxIn = t at *
  have htinv := stepKeepsInvariant s t hinv hstep
  have hport (c : ChannelId) (hs : (s.chan c).out = none) (ht : (t.chan c).out = none) : t.port c = s.port c :=
    (htinv.port_of_free ht).trans (hinv.port_of_free hs).symm
  have htq : t.Quiescent :=
    { rx_idle := hrx ▸ hq.rx_idle
      tx_idle := htx ▸ hq.tx_idle
      rx_out := hrx ▸ hq.rx_out
      tx_out := htx ▸ hq.tx_out
      tx_stage := htx ▸ hq.tx_stage
      tx_state := htxFsm ▸ hq.tx_state
      rx_state := hrxFsm ▸ hq.rx_state }
  have hlevel : t.txOut = true := by simpa [State.txOut, TxFsm.lineOk, htq.tx_state] using htinv.line
  exact ⟨t, hstep, htq, hrx, htx, hsetup, htxFsm, hrxFsm, hissued, hport .rx hq.rx_out htq.rx_out,
    hport .tx hq.tx_out htq.tx_out, hlevel⟩

end Sys2Proof.Machine
end

