-- ==== Sys2Proof/Proofs/Latency.lean ====
section
/-! PROOF. Latency (spec/70_reset_and_hazards.md section 4). A channel that has issued a request waits for the answer
through any run in which the host and the port are silent. Each latency statement is a chain of four parts: the step
that issues the request, the run that waits, the answer, and the step that serves it. -/

namespace Sys2Proof.Machine

open Sys2Proof

/-! ### Steps without access or reset -/

theorem calm_keepsSetup {events : List MemEvent} {i : StepInput} (h : calm events i) : keepsSetup i := by
  obtain ⟨hrst, hreq, -⟩ := h
  exact ⟨hrst, fun r hr => absurd (hreq.symm.trans hr) (by simp)⟩

theorem State.accessed_of_calm {s : State} {events : List MemEvent} (h : calm events s.nextInput) :
    s.accessed = s.beforeAccess := by
  obtain ⟨-, hreq, -⟩ := h
  exact State.accessed_of_no_access hreq

theorem step_mem_of_silent {s t : State} (h : step s = .next t) (hmem : s.nextInput.mem = []) : t.mem = s.mem := by
  rw [step_mem h, State.environment_of_silent hmem, s.begin_mem]

/-! ### A channel that waits for its response (R24, R32) -/

/-- Channel `c` waits for the response to the request `r`, the next unit of its transfer `d`, which the port has not
performed yet; `m` is memory meanwhile. -/
structure State.Awaits (m : Memory) (c : ChannelId) (d : Descriptor) (r : MemRequest) (s : State) : Prop where
  inv : s.Inv
  mem : s.mem = m
  cur : (s.chan c).cur = some d
  out : (s.chan c).out = some ⟨r.addr, r.n, false⟩
  port : s.port c = some ⟨r, none⟩

theorem State.Awaits.ready {m : Memory} {c : ChannelId} {d : Descriptor} {r : MemRequest} {s : State}
    (h : s.Awaits m c d r) : (s.chan c).ready = none :=
  (h.inv.portEntry h.port h.out).1

/-- A channel that issues its next request in a step with the port silent waits for the response after it. -/
theorem step_awaits_of_nextRequest {s t : State} (hinv : s.Inv) (h : step s = .next t)
    (hrst : s.nextInput.rst = false) (hmem : s.nextInput.mem = []) {c : ChannelId} {d : Descriptor} {r : MemRequest}
    (hcur : ((s.accessed.protocol s.nextInput.cg s.nextInput.rxIn).chan c).cur = some d)
    (hr : ((s.accessed.protocol s.nextInput.cg s.nextInput.rxIn).chan c).nextRequest c = some r) :
    t.Awaits s.mem c d r := by
  have htinv := stepKeepsInvariant s t hinv h
  have htmem := step_mem_of_silent h hmem
  obtain ⟨hr', -⟩ | ⟨-, rfl⟩ := step_next_cases h
  · simp [hrst] at hr'
  obtain ⟨hnone, -, -⟩ | ⟨r', hr', hchan, hport⟩ := s.accessed.afterAccess_issues s.nextInput c
  · simp [hr] at hnone
  · obtain rfl : r = r' := Option.some.inj (hr.symm.trans hr')
    exact ⟨htinv, htmem, by rw [hchan]; exact hcur, by rw [hchan]; rfl, hport⟩

/-- In a step without access or reset, a waiting channel only captures the response that arrives, if one does; the
receiver may stage a byte. -/
theorem step_chan_of_waiting {s t : State} (h : step s = .next t) (hrst : s.nextInput.rst = false)
    (hreq : s.nextInput.req = none) {c : ChannelId} (hout : (s.chan c).out ≠ none) (hready : (s.chan c).ready = none) :
    ∃ stage, t.chan c = { (s.chan c).clearEvent.capture c (s.environment.2.get c) with stage := stage } := by
  obtain ⟨hr, -⟩ | ⟨-, rfl⟩ := step_next_cases h
  · simp [hrst] at hr
  obtain ⟨-, hchan, -⟩ | ⟨r, hr, -, -⟩ := s.accessed.afterAccess_issues s.nextInput c
  · obtain ⟨stage, hprotocol⟩ := s.accessed.protocol_stage_only s.nextInput.cg s.nextInput.rxIn c
    refine ⟨stage, ?_⟩
    rw [hchan, hprotocol, State.accessed_of_no_access hreq, State.beforeAccess_chan_of_not_ready hready]
  · exact ((State.free_of_nextRequest hr).elim hout fun h => h hready).elim

/-- Capturing a response leaves the transfer as it is: SERVICE moves its unit (R123, R124). -/
theorem Channel.capture_cur (id : ChannelId) (c : Channel) (arr : Option (List Byte)) :
    (c.capture id arr).cur = c.cur := by
  obtain ⟨-, e⟩ | ⟨bytes, o, -, -, e⟩ := c.capture_cases id arr <;> rw [e]

theorem Channel.capture_stage (id : ChannelId) (c : Channel) (arr : Option (List Byte)) :
    (c.capture id arr).stage = c.stage := by
  obtain ⟨-, e⟩ | ⟨bytes, o, -, -, e⟩ := c.capture_cases id arr <;> rw [e]

section Waiting

variable {m : Memory} {c : ChannelId} {d : Descriptor} {r : MemRequest} {s t : State}

/-- While no access clears it, the transfer and the request of a waiting channel stay. -/
theorem State.Awaits.step_cur_out (h : s.Awaits m c d r) (hstep : step s = .next t) {events : List MemEvent}
    (hcalm : calm events s.nextInput) :
    (t.chan c).cur = some d ∧ (t.chan c).out = some ⟨r.addr, r.n, false⟩ := by
  obtain ⟨hrst, hreq, -⟩ := hcalm
  obtain ⟨stage, e⟩ := step_chan_of_waiting hstep hrst hreq (by simp [h.out]) h.ready
  rw [e]
  exact ⟨(Channel.capture_cur _ _ _).trans h.cur, (Channel.capture_out _ _ _).trans h.out⟩

/-- A silent step keeps the channel waiting. -/
theorem State.Awaits.step (h : s.Awaits m c d r) (hstep : step s = .next t) (hcalm : calm [] s.nextInput) :
    t.Awaits m c d r := by
  obtain ⟨hcur, hout⟩ := h.step_cur_out hstep hcalm
  obtain ⟨-, -, hmem⟩ := hcalm
  refine ⟨stepKeepsInvariant s t h.inv hstep, (step_mem_of_silent hstep hmem).trans h.mem, hcur, hout, ?_⟩
  rw [step_port_of_waiting hstep (by simp [h.out]) h.ready, State.environment_of_silent hmem, s.begin_port, h.port]

/-- A waiting TX channel has nothing staged, so an idle transmitter stays idle (R121, R141). -/
theorem State.Awaits.step_txFsm (h : s.Awaits m .tx d r) (hidle : s.txFsm.state = .idle)
    (hstep : Machine.step s = .next t) {events : List MemEvent} (hcalm : calm events s.nextInput) :
    t.txFsm = s.txFsm := by
  have hbefore := State.beforeAccess_chan_of_not_ready h.ready
  have hstage : s.beforeAccess.tx.stage = [] := by
    change (s.beforeAccess.chan .tx).stage = []
    rw [hbefore, Channel.capture_stage]
    exact h.inv.tx_own.out_stage (by simp [show s.tx.out = _ from h.out])
  rw [Machine.step_txFsm hstep hcalm.1, State.accessed_of_calm hcalm]
  exact (State.protocol_tx_of_idle (s.beforeAccess_txFsm ▸ hidle) hstage _ _).1.trans s.beforeAccess_txFsm

end Waiting

/-! ### Runs with the host and the port silent -/

/-- A step uses up its inputs. -/
theorem step_inputs {s t : State} (h : step s = .next t) : t.inputs = s.inputs.tail := by
  obtain ⟨-, rfl⟩ | ⟨-, rfl⟩ := step_next_cases h
  · exact s.resetStep_inputs
  · obtain ⟨-, -, -, -, -, hinputs, -⟩ := s.accessed.afterAccess_fsms s.nextInput
    exact (hinputs.trans s.accessed_frame.inputs).trans s.beforeAccess_inputs

theorem step_inputs_cons {s t : State} (h : step s = .next t) {i : StepInput} {rest : List StepInput}
    (hinputs : s.inputs = i :: rest) : t.inputs = rest := by
  rw [step_inputs h, hinputs, List.tail_cons]

/-- What every silent step keeps holds after a run of them. -/
theorem runSteps_calm {P : State → Prop} (hP : ∀ s t, P s → step s = .next t → calm [] s.nextInput → P t)
    {later : List StepInput} (waits : List StepInput) {s : State} (hs : P s) (hinputs : s.inputs = waits ++ later)
    (hcalm : ∀ i ∈ waits, calm [] i) : ∃ t, runSteps waits.length s = .next t ∧ P t ∧ t.inputs = later := by
  induction waits generalizing s with
  | nil => exact ⟨s, rfl, hs, hinputs⟩
  | cons i waits ih =>
    have hi : calm [] s.nextInput := State.nextInput_of_inputs hinputs ▸ hcalm i List.mem_cons_self
    obtain ⟨t, hstep⟩ := step_completes s
    rw [List.length_cons, runSteps_succ hstep]
    exact ih (hP s t hs hstep hi) (step_inputs_cons hstep hinputs) fun j hj => hcalm j (List.mem_cons_of_mem _ hj)

/-- A run of a first step, a wait through which `P` holds, the answer at the state `u` and the service at `v`. -/
theorem runSteps_latency {P : State → Prop} (hP : ∀ s t, P s → step s = .next t → calm [] s.nextInput → P t)
    {first ans last : StepInput} {waits later : List StepInput} {s t : State}
    (hinputs : s.inputs = first :: (waits ++ ans :: last :: later)) (hcalm : ∀ i ∈ waits, calm [] i)
    (hstep : step s = .next t) (ht : P t) :
    ∃ u v w, P u ∧ u.nextInput = ans ∧ step u = .next v ∧ v.nextInput = last ∧ step v = .next w ∧
      runSteps (waits.length + 3) s = .next w := by
  obtain ⟨u, hrun, hu, huin⟩ := runSteps_calm hP waits ht (step_inputs_cons hstep hinputs) hcalm
  obtain ⟨v, huv⟩ := step_completes u
  obtain ⟨w, hvw⟩ := step_completes v
  refine ⟨u, v, w, hu, State.nextInput_of_inputs huin, huv, State.nextInput_of_inputs (step_inputs_cons huv huin), hvw,
    ?_⟩
  rw [runSteps_succ hstep, runSteps_add 2 hrun, runSteps_succ huv, runSteps_succ hvw, runSteps]

/-! ### The latency of the transmit side (R204) -/

/-- An idle channel with EN = 1 begins the transfer of a SIZE write with a size (R109, R120). -/
theorem Channel.writeSize_of_idle {c : Channel} (hen : c.en = true) (hcur : c.cur = none) (hpend : c.pend = [])
    {w : Word} (hw : w.toNat % 2 ^ 20 ≠ 0) :
    c.writeSize w = { c with size := sizeField w, cur := some { c with size := sizeField w }.newTransfer } := by
  have hused : ({ c with size := sizeField w }).used ≠ Config.poolDepth := by
    simp [Channel.used, hcur, hpend, Config.poolDepth]
  rw [c.writeSize_of_enabled hen, Channel.arm_of_idle (mt (sizeField_eq_zero_iff w).1 hw) hused hcur]

theorem State.accessed_of_exec {s t : State} {r : BusRequest} (hreq : s.nextInput.req = some r)
    (h : exec (decodeRequest r) s.beforeAccess = .next t) : s.accessed = t := by
  simp [State.accessed, hreq, h]

section Arming

variable {s t : State} {r : BusRequest} {w : Word}

/-- An arming write makes current, on an idle channel with EN = 1, a transfer from the channel's SADDR (R109, R120). -/
theorem State.Inv.accessed_tx_of_arming (hinv : s.Inv) (hcur : s.tx.cur = none) (hout : s.tx.out = none)
    (hen : s.tx.en = true) (hreq : s.nextInput.req = some r) (hdecode : decodeRequest r = .wrTxSize w)
    (hw : w.toNat % 2 ^ 20 ≠ 0) :
    ∃ d : Descriptor, d.currentAddress = s.tx.saddr ∧
      s.accessed.tx = { s.tx.clearEvent with size := sizeField w, cur := some d } := by
  have haccessed : s.accessed = s.beforeAccess.writeSize .tx w :=
    State.accessed_of_exec hreq (by rw [hdecode]; exact exec_wrSize .tx s.beforeAccess w)
  have hbefore : s.beforeAccess.tx = s.tx.clearEvent := hinv.beforeAccess_chan_of_free (c := .tx) hout
  have hwritten : s.accessed.tx = s.tx.clearEvent.writeSize w := by
    rw [haccessed, ← hbefore]
    rfl
  exact ⟨_, rfl, hwritten.trans (Channel.writeSize_of_idle (c := s.tx.clearEvent) hen hcur (hinv.tx.idle_pend hcur) hw)⟩

/-- The step of the arming write issues the read of the transfer's first unit, at the start address (R120, R121). -/
theorem step_arming_awaits (hinv : s.Inv) (hcur : s.tx.cur = none) (hout : s.tx.out = none)
    (hstage : s.tx.stage = []) (hen : s.tx.en = true) (hidle : s.txFsm.state = .idle)
    (hrst : s.nextInput.rst = false) (hmem : s.nextInput.mem = []) (hreq : s.nextInput.req = some r)
    (hdecode : decodeRequest r = .wrTxSize w) (hw : w.toNat % 2 ^ 20 ≠ 0) (hstep : step s = .next t) :
    t.txFsm = s.txFsm ∧ ∃ d : Descriptor, t.Awaits s.mem .tx d ⟨.tx, s.tx.saddr, d.nextN, .read⟩ := by
  obtain ⟨d, haddr, harmed⟩ := hinv.accessed_tx_of_arming hcur hout hen hreq hdecode hw
  obtain ⟨hfsm, htx⟩ := State.protocol_tx_of_idle (s := s.accessed) (s.accessed_txFsm ▸ hidle)
    ((congrArg Channel.stage harmed).trans hstage) s.nextInput.cg s.nextInput.rxIn
  replace htx := htx.trans harmed
  have hpcur := congrArg Channel.cur htx
  refine ⟨(step_txFsm hstep hrst).trans (hfsm.trans s.accessed_txFsm), d,
    step_awaits_of_nextRequest (c := .tx) hinv hstep hrst hmem hpcur ((Channel.nextRequest_tx _ _).2 ?_)⟩
  rw [← haddr]
  exact ⟨d, hpcur, (congrArg Channel.out htx).trans hout, (congrArg Channel.stage htx).trans hstage, rfl⟩

end Arming

/-- The answer to a read of TX brings the byte at the request's address first (R77). -/
theorem State.Awaits.answer_tx {m : Memory} {d : Descriptor} {r : MemRequest} {s t : State} (h : s.Awaits m .tx d r)
    (hstep : Machine.step s = .next t) (hcalm : calm [.answer .tx] s.nextInput) :
    ∃ rest, t.tx.ready = some (Memory.read m r.addr.toNat :: rest) := by
  obtain ⟨hrst, -, hmem⟩ := hcalm
  obtain ⟨t', bytes, hstep', hready, -, -, -, -, hbytes, -⟩ :=
    readAnswerBringsMemory s _ _ h.inv hrst h.port h.out (.inl hmem)
  obtain rfl : t' = t := Host.Outcome.next.inj (hstep'.symm.trans hstep)
  have hfirst := hbytes hmem rfl 0 (h.inv.tx.out_bytes _ h.out).1
  rw [h.mem, BitVec.add_zero] at hfirst
  obtain ⟨rest, rfl⟩ : ∃ rest, bytes = Memory.read m r.addr.toNat :: rest := by
    cases bytes with
    | nil => simp at hfirst
    | cons b rest => exact ⟨rest, by simpa using hfirst⟩
  exact ⟨rest, hready⟩

theorem Channel.endPass_tx_stage (c : Channel) (d : Descriptor) : (c.endPass .tx d).stage = c.stage := by
  obtain ⟨-, e⟩ | ⟨-, next, rest, -, e⟩ | ⟨-, -, e⟩ := c.endPass_cases .tx d <;> rw [e]

/-- Whether or not it ends the pass, the unit read is staged (R125). -/
theorem Channel.service_tx_stage {c : Channel} {bytes : List Byte} {o : OutRequest} {d : Descriptor}
    (hready : c.ready = some bytes) (hout : c.out = some o) (hdis : o.discard = false) (hcur : c.cur = some d)
    (hn : o.n ≤ d.remainingSize) : (c.service .tx).stage = c.stage ++ bytes := by
  obtain hwithin | hlast := hn.lt_or_eq
  · rw [Channel.service_of_within hready hout hdis hcur hwithin, Channel.complete_eq]
    rfl
  · rw [Channel.service_of_last hready hout hdis hcur hlast.symm, Channel.endPass_tx_stage, Channel.complete_eq]
    rfl

/-- The step that serves the unit read puts the start bit of its first byte on the line (R125, R142). -/
theorem step_serves_tx {s t : State} (hinv : s.Inv) (hidle : s.txFsm.state = .idle) {b : Byte} {rest : List Byte}
    (hready : s.tx.ready = some (b :: rest)) {o : OutRequest} (hout : s.tx.out = some o) (hdis : o.discard = false)
    {events : List MemEvent} (hcalm : calm events s.nextInput) (hcg : s.nextInput.cg = true)
    (hstep : step s = .next t) : t.txFsm = s.txFsm.load s.setup b := by
  obtain ⟨d, hcur, hn, -⟩ := hinv.tx.out_unit o hout hdis
  have hbefore : s.accessed.tx = s.tx.clearEvent.service .tx := by
    rw [State.accessed_of_calm hcalm]
    exact State.beforeAccess_chan_of_ready (c := .tx) (by simp [hready])
  have hstaged : s.accessed.tx.stage = b :: rest := by
    rw [hbefore, Channel.service_tx_stage (c := s.tx.clearEvent) hready hout hdis hcur (hn ▸ d.nextN_le_remaining)]
    exact congrArg (· ++ b :: rest) (hinv.tx_own.out_stage (by simp [hout]))
  rw [step_txFsm_enabled hstep (calm_keepsSetup hcalm) hcg, hstaged, TxFsm.step_idle_pop hidle]

/-- Settles O55: the arming write issues the read, the channel waits for the answer with the transmitter idle, and the
step after the answer stages the unit and loads its first byte. -/
theorem armedTransferStartsSending : Obligations.ArmedTransferStartsSending := by
  intro s w r arm ans last waits later hinv hcur hout hstage hen hidle hinputs hrst hmem hreq hdecode hw hwaits hans
    hlast hcg
  obtain rfl : s.nextInput = arm := State.nextInput_of_inputs hinputs
  obtain ⟨t, hstep⟩ := step_completes s
  obtain ⟨hfsm, d, hawaits⟩ :=
    step_arming_awaits hinv hcur hout hstage hen hidle hrst hmem hreq hdecode hw hstep
  obtain ⟨u, v, x, ⟨hu, huidle⟩, rfl, huv, rfl, hvx, hrun⟩ :=
    runSteps_latency (P := fun s' => s'.Awaits s.mem .tx d ⟨.tx, s.tx.saddr, d.nextN, .read⟩ ∧ s'.txFsm.state = .idle)
      (fun a b ha hab hcalm => ⟨ha.1.step hab hcalm, ha.1.step_txFsm ha.2 hab hcalm ▸ ha.2⟩)
      hinputs hwaits hstep ⟨hawaits, hfsm ▸ hidle⟩
  obtain ⟨rest, hready⟩ := hu.answer_tx huv hans
  obtain ⟨-, hvout⟩ := hu.step_cur_out huv hans
  have hvidle : v.txFsm.state = .idle := hu.step_txFsm huidle huv hans ▸ huidle
  have hload := step_serves_tx (stepKeepsInvariant u v hu.inv huv) hvidle hready hvout rfl hlast hcg hvx
  refine ⟨x, hrun, ?_⟩
  rw [State.txOut, hload]
  exact ⟨rfl, rfl, rfl⟩

/-! ### The latency of the receive side (R79, R204) -/

/-- The receiver delivers the byte `b` at the level `v`: its last data sample without parity completes `b`, or its
parity sample accepts it (R159, R160). -/
def RxFsm.Delivers (u : Setup) (f : RxFsm) (v : Bool) (b : Byte) : Prop :=
  f.state = .data ∧ f.bit.val = 7 ∧ u.parity = .noParity ∧
      (∀ j < 8, b.getLsbD j = if j = 7 then v else f.shift.getLsbD j) ∨
    f.state = .parity ∧ f.shift = b ∧ (u.parity = .noParity ∨ v = parityBit b u.parity)

theorem RxFsm.Delivers.step_pushes {u : Setup} {f : RxFsm} {v : Bool} {b : Byte} (h : f.Delivers u v b)
    (hcnt : f.cnt = 0#17) : (f.step u v).2 = some b := by
  obtain ⟨hstate, hbit, hparity, hbits⟩ | ⟨hstate, rfl, haccepts⟩ := h
  · have hbyte : b = setBit f.shift f.bit v := eq_setBit (by rwa [hbit])
    rw [RxFsm.step_data_of_noParity hstate hcnt hbit hparity, hbyte]
  · exact RxFsm.step_parity_sample hstate hcnt haccepts

section LastUnit

variable {s t : State} {d : Descriptor} {b : Byte}

/-- Phase 5 stages the delivered byte of a transfer whose request is still to be issued (R131). -/
theorem State.Inv.protocol_rx_of_delivery (hinv : s.Inv) (hcur : s.rx.cur ≠ none) (hout : s.rx.out = none)
    (hroom : s.rx.stage.length < 4) (hcnt : s.rxFsm.cnt = 0#17)
    (hb : s.rxFsm.Delivers s.setup s.nextInput.rxIn b) (hcalm : calm [] s.nextInput) (hcg : s.nextInput.cg = true) :
    (s.accessed.protocol s.nextInput.cg s.nextInput.rxIn).chan .rx =
      { s.rx.clearEvent with stage := s.rx.stage ++ [b] } := by
  have haccessed : s.accessed.rx = s.rx.clearEvent := by
    rw [State.accessed_of_calm hcalm]
    exact hinv.beforeAccess_chan_of_free (c := .rx) hout
  rw [State.chan_rx, State.accessed_protocol_rx hcg, accessed_setup (calm_keepsSetup hcalm), hb.step_pushes hcnt,
    haccessed]
  exact Channel.push_of_room (c := s.rx.clearEvent) hcur hroom b

/-- The step that pushes the last byte of an RX pass issues the write of its last unit (R122, R131). -/
theorem step_push_awaits (hinv : s.Inv) (hcur : s.rx.cur = some d) (hout : s.rx.out = none)
    (hlen : (s.rx.stage ++ [b]).length = d.remainingSize) (hunit : d.remainingSize ≤ d.unitSize.bytes)
    (hcnt : s.rxFsm.cnt = 0#17) (hb : s.rxFsm.Delivers s.setup s.nextInput.rxIn b) (hcalm : calm [] s.nextInput)
    (hcg : s.nextInput.cg = true) (hstep : step s = .next t) :
    t.Awaits s.mem .rx d ⟨.rx, d.currentAddress, d.remainingSize, .write (s.rx.stage ++ [b])⟩ := by
  have hn : d.nextN = d.remainingSize := Nat.min_eq_right hunit
  have hroom : s.rx.stage.length < 4 := by
    have := d.unitSize.bytes_le
    rw [List.length_append, List.length_singleton] at hlen
    omega
  have hstaged := hinv.protocol_rx_of_delivery (by simp [hcur]) hout hroom hcnt hb hcalm hcg
  have hpcur := (congrArg Channel.cur hstaged).trans hcur
  obtain ⟨hrst, -, hmem⟩ := hcalm
  refine step_awaits_of_nextRequest hinv hstep hrst hmem hpcur ((Channel.nextRequest_rx _ _).2 ?_)
  rw [hstaged]
  refine ⟨d, hcur, hout, hn.trans_le hlen.ge, ?_⟩
  rw [hn, List.take_of_length_le hlen.le]

/-- The answer to a write of RX is captured, and its bytes are in memory (R78). -/
theorem State.Awaits.answer_rx {m : Memory} {r : MemRequest} {bytes : List Byte} (h : s.Awaits m .rx d r)
    (hop : r.op = .write bytes) (hstep : Machine.step s = .next t) (hcalm : calm [.answer .rx] s.nextInput) :
    t.rx.ready = some [] ∧ Memory.Stored m t.mem r.addr bytes := by
  obtain ⟨hrst, -, hmem⟩ := hcalm
  obtain ⟨t', hstep', -, hready, hstored, -⟩ := writeAnswerLandsInMemory s _ bytes _ h.inv (.inl hmem) h.port hop h.out
  obtain rfl : t' = t := Host.Outcome.next.inj (hstep'.symm.trans hstep)
  rw [← h.mem]
  exact ⟨hready hrst, hstored rfl rfl⟩

end LastUnit

/-- Settles O56: the push issues the write of the last unit, the channel waits for the answer, which stores the unit,
and the step after the answer ends the pass. -/
theorem receivedByteReachesMemory : Obligations.ReceivedByteReachesMemory := by
  intro s d b push ans last waits later hinv hcur hout hlen hunit hcnt hb hinputs hpush hcg hwaits hans hlast
  obtain rfl : s.nextInput = push := State.nextInput_of_inputs hinputs
  obtain ⟨t, hstep⟩ := step_completes s
  replace hlen : (s.rx.stage ++ [b]).length = d.remainingSize := by rwa [List.length_append]
  have hawaits := step_push_awaits hinv hcur hout hlen hunit hcnt hb hpush hcg hstep
  obtain ⟨u, v, x, hu, rfl, huv, rfl, hvx, hrun⟩ :=
    runSteps_latency (fun _ _ ha hab hcalm => State.Awaits.step ha hab hcalm) hinputs hwaits hstep hawaits
  obtain ⟨hready, hinside, houtside⟩ := hu.answer_rx rfl huv hans
  obtain ⟨hvcur, hvout⟩ := hu.step_cur_out huv hans
  obtain ⟨hrst, -, hsilent⟩ := hlast
  rw [← step_mem_of_silent hvx hsilent] at hinside houtside
  rw [hlen] at houtside
  refine ⟨x, hrun, ?event, fun i hi => ?stored, houtside⟩
  case event =>
    exact (eventExactlyAtPassEnd .rx v x hvx).2 ⟨hrst, [], _, d, hready, hvout, rfl, hvcur, le_rfl⟩
  case stored =>
    rw [hinside i (hi.trans_eq hlen.symm)]
    exact List.getElem?_eq_getElem _

end Sys2Proof.Machine
end
